-- ==== Sys2Proof/Word.lean ====
section
/-! DEFINITION. The word types of the engine (00_scope.md R10): host registers of 32 bits, bytes of 8 bits, and
pin levels and flags of one bit. -/

namespace Sys2Proof

/-- A host register, a `PORT` data word or a `CMD` word. -/
abbrev Word := BitVec 32

/-- A plane byte, an SPI byte, an opcode or a payload byte. -/
abbrev Byte := BitVec 8

/-- A pin level or a flag: `true` is 1 (high), `false` is 0 (low). -/
abbrev Level := Bool

end Sys2Proof
end

