-- ==== Sys2Proof/Config.lean ====
section
/-! DEFINITION. What an implementation fixes: the configuration record `CFG` (00_scope.md R6), and the values the
spec leaves free. -/

namespace Sys2Proof

/-- A configuration payload: a list of at least one byte (30_encoding.md R55, 92_eei_decisions.md D17). -/
structure Payload where
  first : Byte
  rest  : List Byte
  deriving DecidableEq, Repr, Inhabited

/-- The payload's bytes in the order they are sent. -/
def Payload.bytes (p : Payload) : List Byte := p.first :: p.rest

/-- The OPEN part of `CFG`: the twelve opcodes and the eight payloads of the display controller's commands
(00_scope.md R6, 30_encoding.md R55). `plDsleep` is exactly one byte. -/
structure PanelCommands where
  opcSwreset  : Byte
  opcDuc      : Byte
  opcBorder   : Byte
  opcDem      : Byte
  opcXwin     : Byte
  opcYwin     : Byte
  opcXcnt     : Byte
  opcYcnt     : Byte
  opcWramP    : Byte
  opcWramA    : Byte
  opcActivate : Byte
  opcDsleep   : Byte
  plDuc       : Payload
  plBorder    : Payload
  plDem       : Payload
  plXwin      : Payload
  plYwin      : Payload
  plXcnt      : Payload
  plYcnt      : Payload
  plDsleep    : Byte
  deriving DecidableEq, Repr, Inhabited

/-- The configuration record `CFG` (00_scope.md R6). `WIDTH`, `HEIGHT` and what is derived from them are fixed
and stand in `Machine/Params.lean`; so do SPI mode 0 and the bit order, in the frame itself. -/
structure Cfg where
  /-- `T_RST_LOW`, in ticks. -/
  tRstLow     : Nat
  /-- `T_BOOT`, in ticks. -/
  tBoot       : Nat
  /-- `T_BUSY_MAX`, in ticks. -/
  tBusyMax    : Nat
  /-- `T_BUSY_SETTLE`, in ticks. -/
  tBusySettle : Nat
  /-- `T_POLL`, in ticks. -/
  tPoll       : Nat
  /-- `F_SCLK`, in hertz; only the timing figures read it. -/
  fSclk       : Nat
  /-- `BATCH_DATA` (41_spi_protocol.md R69). -/
  batchData   : Bool
  /-- The OPEN opcodes and payloads. -/
  cmds        : PanelCommands
  deriving DecidableEq, Repr

/-- One of the three members of the source's Color (40_framebuffer.md R60). -/
inductive Colour where
  | black | white | red
  deriving DecidableEq, Repr, Inhabited

namespace Config

/-- FREE VALUE (log entry 2). The OPEN opcodes and payloads of the engine as built. -/
opaque panelCommands : PanelCommands

/-- FREE VALUE (DESIGN CHOICE, log entry 5). The level of `BUSY` at the n-th draw that no schedule gives (60_exceptions.md R128). -/
opaque busyLevel : Nat → Level

/-- FREE VALUE (log entry 17). The colour the panel shows at pixel `k` for the forbidden pair, at its `n`-th
activation (60_exceptions.md R129, 93_implementation_defined.md U2); only the reference model of the panel reads it. -/
opaque forbiddenPairColour : Nat → Nat → Colour

/-- FREE VALUE (log entry 28). The RAM address the panel puts its `n`-th byte at where the payloads give it no valid
window or another direction (70_reset_and_hazards.md R140); only the reference model of the panel reads it. -/
opaque strayAddress : Nat → Nat

end Config

end Sys2Proof
end

