-- ==== Sys2Proof/Syntax.lean ====
section
/-! DEFINITION. The instructions of the engine: one constructor for each row of spec/opcode_table.json. -/

namespace Sys2Proof

/-- The three binary formats of 30_encoding.md R44. -/
inductive Format where
  /-- A word written to register 0. -/
  | cmd
  /-- A host port transaction. -/
  | port
  /-- A tagged byte on the SPI link. -/
  | spi
  deriving DecidableEq, Repr

/-- The operations a legal `CMD` word launches (30_encoding.md R47). -/
inductive Command where
  | nop
  /-- The colour code `CMD[5:4]` (R49, R50). -/
  | setPixel (c : BitVec 2)
  | getPixel
  | clear
  | refresh
  deriving DecidableEq, Repr

/-- The instructions: five `CMD` operations, sixteen `PORT` accesses, twelve SPI units. The operands of a read
are none; a write carries its 32-bit `DATA`; an SPI unit takes its opcode and payload from `CFG`. -/
inductive Instr where
  -- `CMD` words (30_encoding.md R47)
  | nop
  | setPixel (c : BitVec 2)
  | getPixel
  | clear
  | refresh
  -- `PORT` transactions (30_encoding.md R45)
  | rdCmd
  | wrCmd (w : Word)
  | rdArgX
  | wrArgX (v : Word)
  | rdArgY
  | wrArgY (v : Word)
  | rdResult
  | wrResult (v : Word)
  | rdStatus
  | wrStatus (v : Word)
  | rdRsvd5
  | wrRsvd5 (v : Word)
  | rdRsvd6
  | wrRsvd6 (v : Word)
  | rdRsvd7
  | wrRsvd7 (v : Word)
  -- SPI units (30_encoding.md R55)
  | swreset
  | duc
  | border
  | dem
  | xwin
  | ywin
  | xcnt
  | ycnt
  | wramP
  | wramA
  | activate
  | dsleep
  deriving DecidableEq, Repr

/-- The format that carries an instruction. -/
def Instr.format : Instr → Format
  | .nop | .setPixel _ | .getPixel | .clear | .refresh => .cmd
  | .rdCmd | .wrCmd _ | .rdArgX | .wrArgX _ | .rdArgY | .wrArgY _ | .rdResult | .wrResult _
  | .rdStatus | .wrStatus _ | .rdRsvd5 | .wrRsvd5 _ | .rdRsvd6 | .wrRsvd6 _ | .rdRsvd7 | .wrRsvd7 _ => .port
  | .swreset | .duc | .border | .dem | .xwin | .ywin | .xcnt | .ycnt | .wramP | .wramA | .activate | .dsleep => .spi

/-- The instruction a command stands for. -/
def Command.toInstr : Command → Instr
  | .nop => .nop
  | .setPixel c => .setPixel c
  | .getPixel => .getPixel
  | .clear => .clear
  | .refresh => .refresh

end Sys2Proof
end

