-- ==== Sys2Proof/WellFormed.lean ====
section
/-! DEFINITION. Which instructions and which configurations are well-formed. -/

namespace Sys2Proof

/-- A command is well-formed unless it is SET_PIXEL with the code 0b10, which is no colour (30_encoding.md R49, R51). -/
def Command.wf : Command → Bool
  | .setPixel c => c != 0b10#2
  | .nop | .getPixel | .clear | .refresh => true

/-- The one field of an instruction that has a forbidden value is SET_PIXEL's colour code (30_encoding.md R49);
every `DATA` word is a well-formed operand, an illegal `CMD` word among them, since writing it has an effect
(43_host_port.md R104). -/
def Instr.wf : Instr → Bool
  | .setPixel c => c != 0b10#2
  | .nop | .getPixel | .clear | .refresh
  | .rdCmd | .wrCmd _ | .rdArgX | .wrArgX _ | .rdArgY | .wrArgY _ | .rdResult | .wrResult _
  | .rdStatus | .wrStatus _ | .rdRsvd5 | .wrRsvd5 _ | .rdRsvd6 | .wrRsvd6 _ | .rdRsvd7 | .wrRsvd7 _
  | .swreset | .duc | .border | .dem | .xwin | .ywin | .xcnt | .ycnt | .wramP | .wramA | .activate | .dsleep => true

/-- The constraints of 00_scope.md R6 on the parameters that have one. The opcodes and the payload bytes have
none (DEDUCED, log entry 24); that a payload has at least one byte, and that of deep sleep exactly one, is in its type. -/
def Cfg.wf (c : Cfg) : Bool :=
  decide (20 ≤ c.tRstLow) && decide (200 ≤ c.tBoot) && decide (c.tBusyMax = 10000) && decide (1 ≤ c.tPoll)
    && decide (1 ≤ c.fSclk) && decide (c.fSclk ≤ 4000000)

/-- The twelve opcodes, in the order of 30_encoding.md R55. -/
def PanelCommands.opcodes (p : PanelCommands) : List Byte :=
  [p.opcSwreset, p.opcDuc, p.opcBorder, p.opcDem, p.opcXwin, p.opcYwin, p.opcXcnt, p.opcYcnt, p.opcWramP,
   p.opcWramA, p.opcActivate, p.opcDsleep]

/-- The twelve opcodes differ. No rule asks it of `CFG` (00_scope.md R6: any 8-bit value); reading a command
back from its opcode needs it. -/
def PanelCommands.distinct (p : PanelCommands) : Bool := decide p.opcodes.Nodup

end Sys2Proof
end

