-- ==== Sys2Proof/Machine/Params.lean ====
section
/-! DEFINITION. The fixed geometry of the engine and the two configurations the spec writes down (00_scope.md R6,
30_encoding.md R56). -/

namespace Sys2Proof.Machine

/-- `WIDTH`, in pixels. -/
def width : Nat := 400

/-- `HEIGHT`, in pixels. -/
def height : Nat := 300

/-- `NPIX`. -/
def nPix : Nat := 120000

/-- `PLANE_BYTES`. -/
def planeBytes : Nat := 15000

/-- `ROW_BYTES`. -/
def rowBytes : Nat := 50

/-- The number of bytes of the plane space: addresses 0 to 29999 exist (20_memory.md R25, R26). -/
def planeSpace : Nat := 30000

/-- The parameters of the engine as built: the values R6 gives, the OPEN ones left as the free value
`Config.panelCommands`. -/
def builtCfg : Cfg where
  tRstLow := 20
  tBoot := 200
  tBusyMax := 10000
  tBusySettle := 0
  tPoll := 1
  fSclk := 4000000
  batchData := false
  cmds := Config.panelCommands

/-- The commands of the illustrative configuration `CFG_EX` (30_encoding.md R56). -/
def exampleCommands : PanelCommands where
  opcSwreset := 0x12#8
  opcDuc := 0x21#8
  opcBorder := 0x3C#8
  opcDem := 0x11#8
  opcXwin := 0x44#8
  opcYwin := 0x45#8
  opcXcnt := 0x4E#8
  opcYcnt := 0x4F#8
  opcWramP := 0x24#8
  opcWramA := 0x26#8
  opcActivate := 0x20#8
  opcDsleep := 0x10#8
  plDuc := ⟨0x00#8, [0x00#8]⟩
  plBorder := ⟨0x05#8, []⟩
  plDem := ⟨0x03#8, []⟩
  plXwin := ⟨0x00#8, [0x31#8]⟩
  plYwin := ⟨0x00#8, [0x00#8, 0x2B#8, 0x01#8]⟩
  plXcnt := ⟨0x00#8, []⟩
  plYcnt := ⟨0x00#8, [0x00#8]⟩
  plDsleep := 0x01#8

/-- `CFG_EX` with the parameter values of R6. -/
def exampleCfg : Cfg := { builtCfg with cmds := exampleCommands }

end Sys2Proof.Machine
end

