-- ==== Sys2Proof/Decode.lean ====
section
/-! DEFINITION. Decoding of the three formats (30_encoding.md R44 to R56), total on any bytes and rejecting by
name, and the encoder written from the same tables.

Bytes of an instruction, first byte first: a `CMD` word is four bytes, the least significant first; a `PORT`
transaction is a byte with the control bits in [3:0] and then the four bytes of `DATA`, the least significant first;
an SPI frame is the byte `B` and then a byte with the tag `DC` in bit 0 (DESIGN CHOICE, log entry 11). -/

namespace Sys2Proof

/-- Why bytes are no instruction of a format. -/
inductive Reject where
  /-- Fewer bytes than the format's fixed length (30_encoding.md R54). -/
  | truncated
  /-- Bits set that the format does not have (R44, R45). -/
  | noSuchBits
  /-- A `CMD` word that is not legal (R51). -/
  | illegalCommand (w : Word)
  /-- An SPI frame with tag 1: a data byte of a unit, no command (R48). -/
  | dataByte (b : Byte)
  /-- A command byte that is none of the twelve opcodes of `CFG` (R55). -/
  | unknownOpcode (b : Byte)
  deriving DecidableEq, Repr

/-! ### `CMD` words -/

/-- `OP`, bits [3:0] of a `CMD` word (R46). -/
def cmdOp (w : Word) : BitVec 4 := w.extractLsb' 0 4

/-- `COLOR`, bits [5:4] (R46). -/
def cmdColor (w : Word) : BitVec 2 := w.extractLsb' 4 2

/-- `RSVD`, bits [31:6] (R46). -/
def cmdRsvd (w : Word) : BitVec 26 := w.extractLsb' 6 26

/-- The command a `CMD` word launches, or its rejection as illegal (R47, R51). -/
def decodeCmd (w : Word) : Except Reject Command :=
  if cmdRsvd w ≠ 0 then .error (.illegalCommand w)
  else if cmdOp w = 0x1 then
    if cmdColor w = 0b10 then .error (.illegalCommand w) else .ok (.setPixel (cmdColor w))
  else if cmdColor w ≠ 0 then .error (.illegalCommand w)
  else if cmdOp w = 0x0 then .ok .nop
  else if cmdOp w = 0x2 then .ok .getPixel
  else if cmdOp w = 0x3 then .ok .clear
  else if cmdOp w = 0x4 then .ok .refresh
  else .error (.illegalCommand w)

/-- The operation code of a command (R47). -/
def Command.op : Command → BitVec 4
  | .nop => 0x0
  | .setPixel _ => 0x1
  | .getPixel => 0x2
  | .clear => 0x3
  | .refresh => 0x4

/-- The `COLOR` field of a command: 0 for every operation but SET_PIXEL (R46). -/
def Command.color : Command → BitVec 2
  | .setPixel c => c
  | .nop | .getPixel | .clear | .refresh => 0

/-- The `CMD` word of a command, fields from the most significant: RSVD, COLOR, OP (R46). -/
def encodeCmd (c : Command) : Word := (0#26 ++ c.color ++ c.op : BitVec 32)

/-! ### `PORT` transactions -/

/-- The access a `PORT` transaction performs: `ctrl` is `WE` in bit 3 and `IDX` in [2:0] (R45). Every control value
is an access (10_state.md R14). The `DATA` of a read is returned, not supplied. -/
def decodePort (ctrl : BitVec 4) (data : Word) : Instr :=
  match ctrl.getLsbD 3, (ctrl.extractLsb' 0 3).toNat with
  | false, 0 => .rdCmd
  | false, 1 => .rdArgX
  | false, 2 => .rdArgY
  | false, 3 => .rdResult
  | false, 4 => .rdStatus
  | false, 5 => .rdRsvd5
  | false, 6 => .rdRsvd6
  | false, _ => .rdRsvd7
  | true, 0 => .wrCmd data
  | true, 1 => .wrArgX data
  | true, 2 => .wrArgY data
  | true, 3 => .wrResult data
  | true, 4 => .wrStatus data
  | true, 5 => .wrRsvd5 data
  | true, 6 => .wrRsvd6 data
  | true, _ => .wrRsvd7 data

/-- The control bits and the `DATA` of a `PORT` access (R45); a read supplies no `DATA`, here 0. `none` for an
instruction of another format. -/
def encodePort : Instr → Option (BitVec 4 × Word)
  | .rdCmd => some (0b0000, 0)
  | .rdArgX => some (0b0001, 0)
  | .rdArgY => some (0b0010, 0)
  | .rdResult => some (0b0011, 0)
  | .rdStatus => some (0b0100, 0)
  | .rdRsvd5 => some (0b0101, 0)
  | .rdRsvd6 => some (0b0110, 0)
  | .rdRsvd7 => some (0b0111, 0)
  | .wrCmd v => some (0b1000, v)
  | .wrArgX v => some (0b1001, v)
  | .wrArgY v => some (0b1010, v)
  | .wrResult v => some (0b1011, v)
  | .wrStatus v => some (0b1100, v)
  | .wrRsvd5 v => some (0b1101, v)
  | .wrRsvd6 v => some (0b1110, v)
  | .wrRsvd7 v => some (0b1111, v)
  | .nop | .setPixel _ | .getPixel | .clear | .refresh => none
  | .swreset | .duc | .border | .dem | .xwin | .ywin | .xcnt | .ycnt | .wramP | .wramA | .activate | .dsleep => none

/-! ### SPI frames -/

/-- The twelve units and their opcodes, in the order of R55. -/
def spiTable (p : PanelCommands) : List (Byte × Instr) :=
  [(p.opcSwreset, .swreset), (p.opcDuc, .duc), (p.opcBorder, .border), (p.opcDem, .dem), (p.opcXwin, .xwin),
   (p.opcYwin, .ywin), (p.opcXcnt, .xcnt), (p.opcYcnt, .ycnt), (p.opcWramP, .wramP), (p.opcWramA, .wramA),
   (p.opcActivate, .activate), (p.opcDsleep, .dsleep)]

/-- The unit an SPI frame begins: tag 0 and one of the configured opcodes (R48, R55). 00_scope.md R6 allows equal opcodes
and the spec does not say which unit such a byte begins: the first in the order of R55 is taken (DESIGN CHOICE, log entry
27). The engine itself sends units and reads none. -/
def decodeSpi (p : PanelCommands) (dc : Level) (b : Byte) : Except Reject Instr :=
  if dc then .error (.dataByte b)
  else
    match (spiTable p).find? (fun row => row.1 == b) with
    | some row => .ok row.2
    | none => .error (.unknownOpcode b)

/-- The command byte of a unit (R55). `none` for an instruction of another format. -/
def encodeSpi (p : PanelCommands) : Instr → Option Byte
  | .swreset => some p.opcSwreset
  | .duc => some p.opcDuc
  | .border => some p.opcBorder
  | .dem => some p.opcDem
  | .xwin => some p.opcXwin
  | .ywin => some p.opcYwin
  | .xcnt => some p.opcXcnt
  | .ycnt => some p.opcYcnt
  | .wramP => some p.opcWramP
  | .wramA => some p.opcWramA
  | .activate => some p.opcActivate
  | .dsleep => some p.opcDsleep
  | .nop | .setPixel _ | .getPixel | .clear | .refresh => none
  | .rdCmd | .wrCmd _ | .rdArgX | .wrArgX _ | .rdArgY | .wrArgY _ | .rdResult | .wrResult _
  | .rdStatus | .wrStatus _ | .rdRsvd5 | .wrRsvd5 _ | .rdRsvd6 | .wrRsvd6 _ | .rdRsvd7 | .wrRsvd7 _ => none

/-! ### Bytes -/

/-- A word of four bytes, the least significant first. -/
def wordOfBytes (b0 b1 b2 b3 : Byte) : Word := (b3 ++ b2 ++ b1 ++ b0 : BitVec 32)

/-- The four bytes of a word, the least significant first. -/
def bytesOfWord (w : Word) : List Byte :=
  [w.extractLsb' 0 8, w.extractLsb' 8 8, w.extractLsb' 16 8, w.extractLsb' 24 8]

/-- The instruction that begins a list of bytes of a format, with the rest of the list. -/
def decode (p : PanelCommands) : Format → List Byte → Except Reject (Instr × List Byte)
  | .cmd, b0 :: b1 :: b2 :: b3 :: rest =>
    match decodeCmd (wordOfBytes b0 b1 b2 b3) with
    | .ok c => .ok (c.toInstr, rest)
    | .error e => .error e
  | .port, c :: b0 :: b1 :: b2 :: b3 :: rest =>
    if c.extractLsb' 4 4 ≠ 0 then .error .noSuchBits
    else .ok (decodePort (c.extractLsb' 0 4) (wordOfBytes b0 b1 b2 b3), rest)
  | .spi, b :: t :: rest =>
    if t.extractLsb' 1 7 ≠ 0 then .error .noSuchBits
    else
      match decodeSpi p (t.getLsbD 0) b with
      | .ok i => .ok (i, rest)
      | .error e => .error e
  | .cmd, _ | .port, _ | .spi, _ => .error .truncated

/-- The command an instruction of the `CMD` format stands for. -/
def Instr.command? : Instr → Option Command
  | .nop => some .nop
  | .setPixel c => some (.setPixel c)
  | .getPixel => some .getPixel
  | .clear => some .clear
  | .refresh => some .refresh
  | .rdCmd | .wrCmd _ | .rdArgX | .wrArgX _ | .rdArgY | .wrArgY _ | .rdResult | .wrResult _
  | .rdStatus | .wrStatus _ | .rdRsvd5 | .wrRsvd5 _ | .rdRsvd6 | .wrRsvd6 _ | .rdRsvd7 | .wrRsvd7 _ => none
  | .swreset | .duc | .border | .dem | .xwin | .ywin | .xcnt | .ycnt | .wramP | .wramA | .activate | .dsleep => none

/-- The bytes of a well-formed instruction, in its own format. The bytes of a unit are those of its command
frame; its data frames are `CFG`'s payload or the plane (41_spi_protocol.md R72). -/
def encode (p : PanelCommands) (i : Instr) : List Byte :=
  match i.command?, encodePort i, encodeSpi p i with
  | some c, _, _ => bytesOfWord (encodeCmd c)
  | none, some (ctrl, data), _ => (0#4 ++ ctrl : BitVec 8) :: bytesOfWord data
  | none, none, some b => [b, 0x00#8]
  | none, none, none => []

/-! ### The opcode table's numbering -/

/-- The format of a table row whose bits number `nbits` and whose word is `w` (DESIGN CHOICE, log entry 11): 32 bits are a `CMD`
word; more are a `PORT` transaction with its `DATA`; 9 to 16 bits an SPI frame with its tag; up to 8 bits a `PORT`
control nibble where the word is below 16, and an SPI byte otherwise. -/
def tableFormat (nbits w : Nat) : Format :=
  if 32 < nbits then .port
  else if 16 < nbits then .cmd
  else if 8 < nbits then .spi
  else if w < 16 then .port
  else .spi

/-- The first five bytes of a table word, the bits from `nbits` on being 0. -/
def tableBytes (nbits w : Nat) : List Byte :=
  (List.range 5).map fun i => BitVec.ofNat 8 ((w % 2 ^ nbits) >>> (8 * i))

/-- The instruction the decoder reads from a word of spec/opcode_table.json; the table's SPI opcodes are those of
`CFG_EX` (30_encoding.md R56). -/
def decodeTableWord (nbits w : Nat) : Option Instr :=
  match decode Machine.exampleCommands (tableFormat nbits w) (tableBytes nbits w) with
  | .ok (i, _) => some i
  | .error _ => none

end Sys2Proof
end

