-- ==== Sys2Proof/Machine/State.lean ====
section
/-! DEFINITION. The state of the engine (10_state.md), as plain data, and its value after power-on reset. -/

namespace Sys2Proof.Machine

/-- The refresh state (10_state.md R18), in the order of its codes 0 to 7. -/
inductive RefreshState where
  | uninit
  | reset
  | initializing
  | ready
  | transferringBlack
  | transferringRed
  | activating
  | sleeping
  deriving DecidableEq, Repr

/-- The phase of a busy-wait entry, `st.bw` (R21, 42_refresh_sequencer.md R94). -/
inductive BusyPhase where
  | settle
  | sample
  | poll
  deriving DecidableEq, Repr

/-- An event of the link trace (41_spi_protocol.md R70). -/
inductive LinkEvent where
  /-- `Frame(dc, b)`: one SPI frame. -/
  | frame (dc : Level) (b : Byte)
  /-- `Rst(v)`: one drive of `RST_N`. -/
  | rst (v : Level)
  /-- `Tick`: one elapsed tick of a wait. -/
  | tick
  /-- `Sample(b)`: one sample of `BUSY` by the sequencer, with the level read. -/
  | sample (b : Level)
  deriving DecidableEq, Repr

/-- Which agent moves next (10_state.md R12, 60_exceptions.md R119). -/
inductive Turn where
  /-- The Host performs a `PORT` transaction: control bits and `DATA` (30_encoding.md R45). -/
  | host (ctrl : BitVec 4) (data : Word)
  /-- The Sequencer may move, without a tick. -/
  | sequencer
  /-- The Tick agent supplies a tick. -/
  | tick
  deriving DecidableEq, Repr

/-- Plane memory: the bytes that differ from their reset value, at strictly rising addresses (`Memory.wf`). -/
abbrev Memory := List Host.Cell

/-- The state of the engine. The first group is the spec's (10_state.md R13 to R24); `cfg` is the argument `CFG`
of the step relation, which no step writes; the last group is the model's own: what is observed, and what the
agents outside the engine do next. -/
structure State where
  /-- `ARG_X`. -/
  argX     : Word
  /-- `ARG_Y`. -/
  argY     : Word
  /-- `RESULT`. -/
  result   : Word
  /-- The plane space (20_memory.md R26). -/
  mem      : Memory
  /-- `st.state`. -/
  state    : RefreshState
  /-- `st.run`. -/
  run      : Bool
  /-- `st.pc`, the index of the micro-program entry being executed. -/
  pc       : Fin 21
  /-- `st.sub`, the position inside the entry. -/
  sub      : Nat
  /-- `st.bw`. -/
  bw       : BusyPhase
  /-- `st.wait`, the ticks since the first sample of the busy-wait. -/
  wait     : Nat
  /-- `st.to_hwrst`. -/
  toHwrst  : Bool
  /-- `st.to_swrst`. -/
  toSwrst  : Bool
  /-- `st.to_act`. -/
  toAct    : Bool
  /-- `st.rejected`. -/
  rejected : Bool
  /-- `st.illegal`. -/
  illegal  : Bool
  /-- The latch of pin `CS_N`. -/
  csN      : Level
  /-- The latch of pin `DC`. -/
  dc       : Level
  /-- The latch of pin `RST_N`. -/
  rstN     : Level
  /-- The latch of pin `SCLK`. -/
  sclk     : Level
  /-- The latch of pin `DIN`. -/
  din      : Level
  /-- The configuration record `CFG` (00_scope.md R6). -/
  cfg      : Cfg
  /-- The link trace, the newest event first (41_spi_protocol.md R70). -/
  trace    : List LinkEvent
  /-- The `DATA` the last `PORT` read returned (30_encoding.md R45). -/
  readData : Word
  /-- The agents' coming turns, the next one first. -/
  turns    : List Turn
  /-- The levels of the coming draws of `BUSY` that are known, the next one first. -/
  busyIn   : List Level
  /-- How many draws of `BUSY` were free values so far. -/
  draws    : Nat
  deriving DecidableEq, Repr

/-- Reasons the model stops. The engine itself has no fault (60_exceptions.md R117); a state that meets the
invariant of `Safety.lean` raises none of these. -/
inductive Fault where
  /-- SAFE. Raised by a plane access at an address that does not exist (20_memory.md R26, 30000 and above;
  DEDUCED, log entry 8). -/
  | planeAddress (a : Nat)
  /-- SAFE. Raised by a sequencer step at a position the entry does not have: `st.sub` outside the frames of a unit
  or stream (10_state.md R21), or the END entry, which has no step (42_refresh_sequencer.md R93). -/
  | sequencerRange
  deriving DecidableEq, Repr

/-- Reasons the model gives an instruction no meaning. -/
inductive Refusal where
  /-- SAFE. Raised by the dispatch for an instruction that has no meaning in the model; none is left. -/
  | notModelled (mnemonic : String)
  deriving DecidableEq, Repr

/-- The engine right after power-on reset (10_state.md R24, 70_reset_and_hazards.md R130). The last five fields are
the model's own (DESIGN CHOICE, log entries 3, 5, 6, 7). -/
def State.reset : State where
  argX := 0x00000000#32
  argY := 0x00000000#32
  result := 0x00000000#32
  mem := []
  state := .uninit
  run := false
  pc := 0
  sub := 0
  bw := .settle
  wait := 0
  toHwrst := false
  toSwrst := false
  toAct := false
  rejected := false
  illegal := false
  csN := true
  dc := false
  rstN := true
  sclk := false
  din := false
  cfg := builtCfg
  trace := []
  readData := 0x00000000#32
  turns := []
  busyIn := []
  draws := 0

/-- The link trace in the order the events happened. -/
def State.linkTrace (s : State) : List LinkEvent := s.trace.reverse

end Sys2Proof.Machine
end

