-- ==== Sys2Proof/Machine/Ops.lean ====
section
/-! DEFINITION. The named operations over plane memory, pins, the link trace, the `BUSY` input and the sticky flags
(00_scope.md R9).

The engine has no exception, trap or interrupt and so neither an entry nor a return (60_exceptions.md R117, R121): in
place of both stands `setFlag`, the spec's `set_flag`. -/

namespace Sys2Proof.Machine

/-- What every meaning and every sequencer step answers. -/
abbrev Result := Host.Outcome State Fault Refusal

/-! ### Plane memory -/

/-- What a plane byte that is not listed reads as: its value after reset, 0xFF in the primary plane and 0x00 in the
accent plane (10_state.md R24). -/
def Memory.unlisted (a : Nat) : Byte := if a < planeBytes then 0xFF#8 else 0x00#8

/-- The byte at an address. -/
def Memory.get : Memory → Nat → Byte
  | [], a => Memory.unlisted a
  | (b, v) :: rest, a => if b = a then v else Memory.get rest a

/-- One cell in front of a memory, or no cell where the value is what the unlisted address reads as. -/
def Memory.cell (a : Nat) (v : Byte) (m : Memory) : Memory := if v = Memory.unlisted a then m else (a, v) :: m

/-- Writing a byte, keeping the canonical form. -/
def Memory.put : Memory → Nat → Byte → Memory
  | [], a, v => Memory.cell a v []
  | (b, w) :: rest, a, v =>
    if a < b then Memory.cell a v ((b, w) :: rest)
    else if a = b then Memory.cell a v rest
    else (b, w) :: Memory.put rest a v

/-- Addresses rise strictly, from `lo` on. -/
def Memory.rising : Nat → Memory → Bool
  | _, [] => true
  | lo, (a, _) :: rest => decide (lo ≤ a) && Memory.rising (a + 1) rest

/-- The canonical form: addresses rise strictly, exist (20_memory.md R26), and no cell holds what it would read as
unlisted. -/
def Memory.wf (m : Memory) : Bool :=
  Memory.rising 0 m && m.all (fun c => decide (c.1 < planeSpace) && c.2 != Memory.unlisted c.1)

/-- Every plane byte at its reset value: no cell in the plane space is listed (DEDUCED, log entry 20). -/
def Memory.clear (m : Memory) : Memory := m.filter (fun c => decide (planeSpace ≤ c.1))

/-- `MemRead(a, 1)` (R9); `none` at an address that does not exist (20_memory.md R26). -/
def memRead (s : State) (a : Nat) : Option Byte := if a < planeSpace then some (s.mem.get a) else none

/-- `MemWrite(a, 1, v)` (R9); `none` at an address that does not exist. -/
def memWrite (s : State) (a : Nat) (v : Byte) : Option State :=
  if a < planeSpace then some { s with mem := s.mem.put a v } else none

/-! ### Pins and the link trace -/

/-- The output pins (00_scope.md R7). -/
inductive Pin where
  | csN | dc | rstN | sclk | din
  deriving DecidableEq, Repr

/-- `pin(P) <- v` (R9). -/
def drive (p : Pin) (v : Level) (s : State) : State :=
  match p with
  | .csN => { s with csN := v }
  | .dc => { s with dc := v }
  | .rstN => { s with rstN := v }
  | .sclk => { s with sclk := v }
  | .din => { s with din := v }

/-- The drives of a list, the first one first. -/
def driveAll (ds : List (Pin × Level)) (s : State) : State := ds.foldl (fun s d => drive d.1 d.2 s) s

/-- Append an event to the link trace (41_spi_protocol.md R70). -/
def note (e : LinkEvent) (s : State) : State := { s with trace := e :: s.trace }

/-- The pin drives of one SPI frame in order (41_spi_protocol.md R68): chip-select low, the tag on `DC`, the byte
clocked out most-significant-bit-first in SPI mode 0, chip-select high. With `hold` chip-select stays low, for a
data byte that another one follows when `BATCH_DATA` is true (R69; DEDUCED, log entry 15). The meaning of SPI mode 0 is
PRESUMED (log entry 14). -/
def frameDrives (dc : Level) (b : Byte) (hold : Bool) : List (Pin × Level) :=
  [(.csN, false), (.dc, dc)]
    ++ [7, 6, 5, 4, 3, 2, 1, 0].flatMap (fun i => [(.din, b.getLsbD i), (.sclk, true), (.sclk, false)])
    ++ [(.csN, !hold)]

/-- `emit(dc, b)`, one SPI frame (41_spi_protocol.md R68). `more` says that another data byte of the same unit
follows, which matters only to chip-select and only when `BATCH_DATA` is true (R69). -/
def emit (dc : Level) (b : Byte) (more : Bool) (s : State) : State :=
  note (.frame dc b) (driveAll (frameDrives dc b (s.cfg.batchData && dc && more)) s)

/-! ### The `BUSY` input -/

/-- `sample(BUSY)` (R9): the next level of the schedule, and a free value where the schedule is used up
(60_exceptions.md R128; DESIGN CHOICE, log entry 5). -/
def sampleBusy (s : State) : Level × State :=
  match s.busyIn with
  | b :: rest => (b, { s with busyIn := rest })
  | [] => (Config.busyLevel s.draws, { s with draws := s.draws + 1 })

/-! ### The host port and the sticky flags -/

/-- The `DATA` a read returns (30_encoding.md R45). -/
def respond (v : Word) (s : State) : State := { s with readData := v }

/-- The two sticky flags (10_state.md R17). -/
inductive StickyFlag where
  | rejected | illegal
  deriving DecidableEq, Repr

/-- `set_flag(F)` (R9): the flag becomes 1 and nothing else changes. -/
def setFlag (f : StickyFlag) (s : State) : State :=
  match f with
  | .rejected => { s with rejected := true }
  | .illegal => { s with illegal := true }

/-- The re-entrancy guard (43_host_port.md R105): while a refresh runs the command is dropped and REJECTED set. -/
def guarded (s : State) (act : State → Result) : Result :=
  if s.run then .next (setFlag .rejected s) else act s

end Sys2Proof.Machine
end

