-- ==== Sys2Proof/Machine/Operands.lean ====
section
/-! DEFINITION. The operands of the pixel commands: coordinates, the pixel index, the bits of a pixel in the two
planes, and the colour codes (40_framebuffer.md R59, R60; 30_encoding.md R49, R50). -/

namespace Sys2Proof.Machine

/-- The two planes (10_state.md R19). -/
inductive Plane where
  | primary | accent
  deriving DecidableEq, Repr

/-- `base(plane)` (20_memory.md R26). -/
def Plane.base : Plane → Nat
  | .primary => 0
  | .accent => 15000

/-- `sint32(v)` (00_scope.md R8). -/
def sint32 (v : Word) : Int := v.toInt

/-- The x operand of a pixel command (10_state.md R15). -/
def pixelX (s : State) : Int := sint32 s.argX

/-- The y operand. -/
def pixelY (s : State) : Int := sint32 s.argY

/-- `in_canvas(x, y)`, a signed comparison (R59). -/
def inCanvas (x y : Int) : Bool :=
  decide (0 ≤ x) && decide (x < (width : Int)) && decide (0 ≤ y) && decide (y < (height : Int))

/-- `k(x, y)`, only meant for coordinates in the canvas (R59). -/
def pixelIndex (x y : Int) : Nat := x.toNat + y.toNat * width

/-- `byte(k)` (R59). -/
def byteOf (k : Nat) : Nat := k / 8

/-- `bitpos(k)`, most-significant-bit-first (R59). -/
def bitOf (k : Nat) : Nat := 7 - k % 8

/-- `mask(k)` (R59). -/
def maskOf (k : Nat) : Byte := 1#8 <<< bitOf k

/-- Bit `bitpos(k)` of a byte. -/
def laneOf (v : Byte) (k : Nat) : Level := v.getLsbD (bitOf k)

/-- A byte with bit `bitpos(k)` set to `b` and every other bit unchanged (R59). -/
def withLane (v : Byte) (k : Nat) (b : Level) : Byte := if b then v ||| maskOf k else v &&& ~~~ maskOf k

/-- `PixRead(plane, k)` (R59). -/
def pixRead (s : State) (pl : Plane) (k : Nat) : Option Level :=
  (memRead s (pl.base + byteOf k)).map (fun v => laneOf v k)

/-- `PixWrite(plane, k, b)` (R59). -/
def pixWrite (pl : Plane) (k : Nat) (b : Level) (s : State) : Option State :=
  match memRead s (pl.base + byteOf k) with
  | some v => memWrite s (pl.base + byteOf k) (withLane v k b)
  | none => none

/-- The primary-plane bit of a colour code `{accent, primary}` (30_encoding.md R49). -/
def codePrimary (c : BitVec 2) : Level := c.getLsbD 0

/-- The accent-plane bit of a colour code. -/
def codeAccent (c : BitVec 2) : Level := c.getLsbD 1

/-- The colour code of a pair of plane bits. -/
def codeOf (p a : Level) : BitVec 2 := BitVec.ofBool a ++ BitVec.ofBool p

/-- The compositing table, as the code of each colour (40_framebuffer.md R60). -/
def colourCode : Colour → BitVec 2
  | .black => 0b00
  | .white => 0b01
  | .red => 0b11

/-- The decode map of a pair of plane bits `(p, a)`; `(0, 1)` is no colour (R60). -/
def colourOfPair (p a : Level) : Option Colour :=
  match p, a with
  | false, false => some .black
  | true, false => some .white
  | true, true => some .red
  | false, true => none

end Sys2Proof.Machine
end

