-- ==== Sys2Proof/Machine/Flags.lean ====
section
/-! DEFINITION. The words of `RESULT` and `STATUS` and the flags they are made of (10_state.md R16, R17). -/

namespace Sys2Proof.Machine

/-- The code of a refresh state, `STATUS[3:0]` (10_state.md R18). -/
def RefreshState.code : RefreshState → BitVec 4
  | .uninit => 0
  | .reset => 1
  | .initializing => 2
  | .ready => 3
  | .transferringBlack => 4
  | .transferringRed => 5
  | .activating => 6
  | .sleeping => 7

/-- `RESULT` of a read in the canvas: `zext_32({0, a, p, a, p})`, that is CLIPPED 0, A, P, COLOR (R16, R62). -/
def pixelResult (p a : Level) : Word :=
  (0#1 ++ BitVec.ofBool a ++ BitVec.ofBool p ++ codeOf p a : BitVec 5).setWidth 32

/-- `RESULT` of a clipped read: CLIPPED 1 and every other field 0 (R62). -/
def clippedResult : Word := 0x00000010#32

/-- The word a read of `STATUS` returns, `busy` being the level of `BUSY` at the read (R17, 43_host_port.md R113). -/
def statusWord (busy : Level) (s : State) : Word :=
  (BitVec.ofBool busy ++ BitVec.ofBool s.illegal ++ BitVec.ofBool s.rejected ++ BitVec.ofBool s.toAct
    ++ BitVec.ofBool s.toSwrst ++ BitVec.ofBool s.toHwrst ++ BitVec.ofBool s.run ++ s.state.code : BitVec 11).setWidth 32

/-- The write-1-to-clear of `STATUS`: bit 8 clears REJECTED, bit 9 clears ILLEGAL, every other bit is ignored
(43_host_port.md R114). -/
def clearSticky (v : Word) (s : State) : State :=
  { s with rejected := s.rejected && !v.getLsbD 8, illegal := s.illegal && !v.getLsbD 9 }

/-- The three busy-waits (42_refresh_sequencer.md R94). -/
inductive WaitKind where
  | hwrst | swrst | act
  deriving DecidableEq, Repr

/-- `TO[kind] <- 1` (R94). -/
def setTimeout (k : WaitKind) (s : State) : State :=
  match k with
  | .hwrst => { s with toHwrst := true }
  | .swrst => { s with toSwrst := true }
  | .act => { s with toAct := true }

/-- The three timeout flags cleared, at the acceptance of a REFRESH (42_refresh_sequencer.md R85). -/
def clearTimeouts (s : State) : State := { s with toHwrst := false, toSwrst := false, toAct := false }

end Sys2Proof.Machine
end

