-- ==== Sys2Proof/Machine/Sequencer.lean ====
section
/-! DEFINITION. The refresh sequencer: the micro-program, entering and completing an entry, and one step of each
kind of entry (42_refresh_sequencer.md R85 to R96). The steps of a unit and of a stream are the shared operations of
the meanings of the SPI instructions (`Machine/Spi.lean`). -/

namespace Sys2Proof.Machine

/-- The two delays of the hardware reset (R89). -/
inductive DelayKind where
  | rstLow | boot
  deriving DecidableEq, Repr

/-- The kinds of micro-program entry, with their arguments (R86). A `UNIT` or `STREAM` entry names its SPI
instruction. -/
inductive Entry where
  | pin (v : Level)
  | delay (d : DelayKind)
  | busyWait (k : WaitKind)
  | unit (i : Instr)
  | pass
  | fin
  deriving DecidableEq, Repr

/-- The micro-program: entries 0 to 20, each with the state the sequencer is in while it runs (R86). -/
def microProgram : List (RefreshState × Entry) :=
  [(.reset, .pin false),
   (.reset, .delay .rstLow),
   (.reset, .pin true),
   (.reset, .delay .boot),
   (.reset, .busyWait .hwrst),
   (.initializing, .unit .swreset),
   (.initializing, .busyWait .swrst),
   (.initializing, .unit .duc),
   (.initializing, .unit .border),
   (.initializing, .unit .dem),
   (.initializing, .unit .xwin),
   (.initializing, .unit .ywin),
   (.initializing, .unit .xcnt),
   (.initializing, .unit .ycnt),
   (.ready, .pass),
   (.transferringBlack, .unit .wramP),
   (.transferringRed, .unit .wramA),
   (.activating, .unit .activate),
   (.activating, .busyWait .act),
   (.activating, .unit .dsleep),
   (.sleeping, .fin)]

/-- The row of an entry. -/
def microRow (e : Fin 21) : RefreshState × Entry := microProgram.getD e.val (.sleeping, .fin)

/-- The state column of an entry. -/
def entryState (e : Fin 21) : RefreshState := (microRow e).1

/-- The kind and argument of an entry. -/
def entryOf (e : Fin 21) : Entry := (microRow e).2

/-- The number of ticks of a delay (R89). -/
def delayTicks (c : Cfg) : DelayKind → Nat
  | .rstLow => c.tRstLow
  | .boot => c.tBoot

/-- `enter(e)` (R87). -/
def enter (e : Fin 21) (s : State) : State :=
  { s with
    pc := e
    sub := 0
    wait := 0
    bw := if 0 < s.cfg.tBusySettle then .settle else .sample
    state := entryState e
    run := if entryOf e = .fin then false else s.run }

/-- The entry after `e`; the last entry has none and stays (10_state.md R22; DESIGN CHOICE, log entry 21). -/
def nextEntry (e : Fin 21) : Fin 21 := ⟨min (e.val + 1) 20, by omega⟩

/-- `complete()` (R87). -/
def complete (s : State) : State := enter (nextEntry s.pc) s

/-- The common end of the steps that count to `n`: `st.sub <- st.sub + 1`, and the entry completes when that is
`n` (R89, R90, R91). -/
def countTo (n : Nat) (s : State) : State :=
  if s.sub + 1 = n then complete { s with sub := s.sub + 1 } else { s with sub := s.sub + 1 }

/-- A step of a `PIN` entry (R88). -/
def stepPin (v : Level) (s : State) : State := complete (note (.rst v) (drive .rstN v s))

/-- A step of a `DELAY` entry, a tick step (R89). -/
def stepDelay (d : DelayKind) (s : State) : State := countTo (delayTicks s.cfg d) (note .tick s)

/-- A step of a `PASS` entry (R92). -/
def stepPass (s : State) : State := complete s

/-- A busy-wait step in phase `SETTLE`, a tick step (R94). -/
def stepSettle (s : State) : State :=
  if s.sub + 1 = s.cfg.tBusySettle then { note .tick s with sub := 0, bw := .sample }
  else { note .tick s with sub := s.sub + 1 }

/-- What a busy-wait does with a sampled level (R94): complete when it is low, complete with the timeout flag when it
is high at the ceiling, poll again otherwise. -/
def afterSample (k : WaitKind) (b : Level) (s : State) : State :=
  if b = false then complete s
  else if s.cfg.tBusyMax ≤ s.wait then complete (setTimeout k s)
  else { s with sub := 0, bw := .poll }

/-- A busy-wait step in phase `SAMPLE` (R94). -/
def stepSample (k : WaitKind) (s : State) : State :=
  afterSample k (sampleBusy s).1 (note (.sample (sampleBusy s).1) (sampleBusy s).2)

/-- A busy-wait step in phase `POLL`, a tick step (R94). -/
def stepPoll (s : State) : State :=
  { note .tick s with
    sub := s.sub + 1
    wait := s.wait + 1
    bw := if s.sub + 1 = s.cfg.tPoll then .sample else .poll }

/-- A step of a `BUSY_WAIT` entry, by its phase (R94). -/
def stepBusyWait (k : WaitKind) (s : State) : State :=
  match s.bw with
  | .settle => stepSettle s
  | .sample => stepSample k s
  | .poll => stepPoll s

/-- One step of an entry that is no SPI instruction. An `END` entry has no step (R93): a state with `st.run` = 1
there is out of range (DESIGN CHOICE, log entry 9). A `unit` entry is fetched as its instruction and never comes here. -/
def stepMicro (e : Entry) (s : State) : Result :=
  match e with
  | .pin v => .next (stepPin v s)
  | .delay d => .next (stepDelay d s)
  | .busyWait k => .next (stepBusyWait k s)
  | .pass => .next (stepPass s)
  | .unit _ | .fin => .fault .sequencerRange

/-- The frame of a unit at position `n`: the command byte, then the payload bytes in order (41_spi_protocol.md R72).
`none` past the last one. -/
def unitFrame (opc : Byte) (payload : List Byte) (n : Nat) : Option (Level × Byte) :=
  match n with
  | 0 => some (false, opc)
  | j + 1 => (payload[j]?).map (fun b => (true, b))

/-- A step of a `UNIT` entry (R90): the frame at `st.sub`. -/
def stepUnit (opc : Byte) (payload : List Byte) (s : State) : Result :=
  match unitFrame opc payload s.sub with
  | some (dc, b) => .next (countTo (payload.length + 1) (emit dc b (decide (s.sub < payload.length)) s))
  | none => .fault .sequencerRange

/-- A step of a `STREAM` entry (R91): the command byte, then the plane's bytes in address order. -/
def stepStream (opc : Byte) (pl : Plane) (s : State) : Result :=
  match s.sub with
  | 0 => .next (countTo (planeBytes + 1) (emit false opc true s))
  | j + 1 =>
    if planeBytes ≤ j then .fault .sequencerRange
    else
      match memRead s (pl.base + j) with
      | some b => .next (countTo (planeBytes + 1) (emit true b (decide (j + 1 < planeBytes)) s))
      | none => .fault (.planeAddress (pl.base + j))

/-- The sequencer's next step is a tick step: a delay, or a busy-wait that settles or polls (R89, R94). -/
def waitsForTick (s : State) : Bool :=
  match entryOf s.pc, s.bw with
  | .delay _, _ => true
  | .busyWait _, .settle => true
  | .busyWait _, .poll => true
  | .busyWait _, .sample => false
  | .pin _, _ | .unit _, _ | .pass, _ | .fin, _ => false

end Sys2Proof.Machine
end

