-- ==== Sys2Proof/Machine/Framebuffer.lean ====
section
/-! DEFINITION. The meanings of the `CMD` operations (40_framebuffer.md, 42_refresh_sequencer.md R85). Each is the
command as the host port performs it: the illegal check, then the guard, then the effect (60_exceptions.md R119). -/

namespace Sys2Proof.Machine

/-- `NOP` (40_framebuffer.md R64): no state changes, whatever `RUN` is. -/
def execNop (s : State) : Result := .next s

/-- The effect of SET_PIXEL where it is neither illegal nor refused (R61): clip silently, or write one bit of each
plane. -/
def setPixel (c : BitVec 2) (s : State) : Result :=
  if inCanvas (pixelX s) (pixelY s) then
    match (pixWrite .primary (pixelIndex (pixelX s) (pixelY s)) (codePrimary c) s).bind
        (pixWrite .accent (pixelIndex (pixelX s) (pixelY s)) (codeAccent c)) with
    | some t => .next t
    | none => .fault (.planeAddress (byteOf (pixelIndex (pixelX s) (pixelY s))))
  else .next s

/-- `SET_PIXEL` (R61). The code 0b10 is no colour and its word is illegal (30_encoding.md R51): only ILLEGAL is set
(43_host_port.md R104; DEDUCED, log entry 13). -/
def execSetPixel (c : BitVec 2) (s : State) : Result :=
  if c = 0b10#2 then .next (setFlag .illegal s) else guarded s (setPixel c)

/-- `GET_PIXEL` (R62): `RESULT` is fully rewritten; accepted whatever `RUN` is. -/
def execGetPixel (s : State) : Result :=
  if inCanvas (pixelX s) (pixelY s) then
    match pixRead s .primary (pixelIndex (pixelX s) (pixelY s)), pixRead s .accent (pixelIndex (pixelX s) (pixelY s)) with
    | some p, some a => .next { s with result := pixelResult p a }
    | _, _ => .fault (.planeAddress (byteOf (pixelIndex (pixelX s) (pixelY s))))
  else .next { s with result := clippedResult }

/-- `CLEAR` (R63): every primary byte 0xFF, every accent byte 0x00. -/
def execClear (s : State) : Result := guarded s (fun s => .next { s with mem := s.mem.clear })

/-- `REFRESH` (42_refresh_sequencer.md R85): the refresh is accepted, its outcome flags start clean, and the
sequencer enters entry 0. -/
def execRefresh (s : State) : Result := guarded s (fun s => .next (enter 0 (clearTimeouts { s with run := true })))

/-- The command a legal word launches, performed inside the host access (43_host_port.md R103). -/
def runCommand (c : Command) (s : State) : Result :=
  match c with
  | .nop => execNop s
  | .setPixel c => execSetPixel c s
  | .getPixel => execGetPixel s
  | .clear => execClear s
  | .refresh => execRefresh s

end Sys2Proof.Machine
end

