-- ==== Sys2Proof/Machine/Port.lean ====
section
/-! DEFINITION. The meanings of the sixteen `PORT` accesses (43_host_port.md). -/

namespace Sys2Proof.Machine

/-- `RD CMD` (R106): the command register reads 0. -/
def execRdCmd (s : State) : Result := .next (respond 0x00000000#32 s)

/-- `WR CMD, w` (R103): an illegal word only sets ILLEGAL (R104); a legal one launches its command. -/
def execWrCmd (w : Word) (s : State) : Result :=
  match decodeCmd w with
  | .ok c => runCommand c s
  | .error _ => .next (setFlag .illegal s)

/-- `RD ARG_X` (R108). -/
def execRdArgX (s : State) : Result := .next (respond s.argX s)

/-- `WR ARG_X, v` (R107): accepted whatever `RUN` is. -/
def execWrArgX (v : Word) (s : State) : Result := .next { s with argX := v }

/-- `RD ARG_Y` (R110). -/
def execRdArgY (s : State) : Result := .next (respond s.argY s)

/-- `WR ARG_Y, v` (R109): accepted whatever `RUN` is. -/
def execWrArgY (v : Word) (s : State) : Result := .next { s with argY := v }

/-- `RD RESULT` (R111). -/
def execRdResult (s : State) : Result := .next (respond s.result s)

/-- `WR RESULT, v` (R112): ignored. -/
def execWrResult (_v : Word) (s : State) : Result := .next s

/-- `RD STATUS` (R113): the level of `BUSY` is drawn at the read, and the read appends no `Sample` event. -/
def execRdStatus (s : State) : Result := .next (respond (statusWord (sampleBusy s).1 s) (sampleBusy s).2)

/-- `WR STATUS, v` (R114): write-1-to-clear of the two sticky flags. -/
def execWrStatus (v : Word) (s : State) : Result := .next (clearSticky v s)

/-- A read of a reserved index (R115): 0. -/
def readReserved (s : State) : Result := .next (respond 0x00000000#32 s)

/-- A write of a reserved index (R115): ignored. -/
def writeReserved (_v : Word) (s : State) : Result := .next s

/-- `RD RSVD5` (R115). -/
def execRdRsvd5 (s : State) : Result := readReserved s

/-- `WR RSVD5, v` (R115). -/
def execWrRsvd5 (v : Word) (s : State) : Result := writeReserved v s

/-- `RD RSVD6` (R115). -/
def execRdRsvd6 (s : State) : Result := readReserved s

/-- `WR RSVD6, v` (R115). -/
def execWrRsvd6 (v : Word) (s : State) : Result := writeReserved v s

/-- `RD RSVD7` (R115). -/
def execRdRsvd7 (s : State) : Result := readReserved s

/-- `WR RSVD7, v` (R115). -/
def execWrRsvd7 (v : Word) (s : State) : Result := writeReserved v s

end Sys2Proof.Machine
end

