-- ==== Sys2Proof/Machine/Spi.lean ====
section
/-! DEFINITION. The meanings of the twelve SPI units (41_spi_protocol.md R73 to R84). A unit is sent one frame a
sequencer step (R72, 42_refresh_sequencer.md R90, R91), so the meaning of a unit is its frame at position `st.sub`,
and the unit completes with its last frame (DEDUCED, log entry 10). -/

namespace Sys2Proof.Machine

/-- `SWRESET` (R73): no payload. -/
def execSwreset (s : State) : Result := stepUnit s.cfg.cmds.opcSwreset [] s

/-- `DUC` (R74). -/
def execDuc (s : State) : Result := stepUnit s.cfg.cmds.opcDuc s.cfg.cmds.plDuc.bytes s

/-- `BORDER` (R75). -/
def execBorder (s : State) : Result := stepUnit s.cfg.cmds.opcBorder s.cfg.cmds.plBorder.bytes s

/-- `DEM` (R76). -/
def execDem (s : State) : Result := stepUnit s.cfg.cmds.opcDem s.cfg.cmds.plDem.bytes s

/-- `XWIN` (R77). -/
def execXwin (s : State) : Result := stepUnit s.cfg.cmds.opcXwin s.cfg.cmds.plXwin.bytes s

/-- `YWIN` (R78). -/
def execYwin (s : State) : Result := stepUnit s.cfg.cmds.opcYwin s.cfg.cmds.plYwin.bytes s

/-- `XCNT` (R79). -/
def execXcnt (s : State) : Result := stepUnit s.cfg.cmds.opcXcnt s.cfg.cmds.plXcnt.bytes s

/-- `YCNT` (R80). -/
def execYcnt (s : State) : Result := stepUnit s.cfg.cmds.opcYcnt s.cfg.cmds.plYcnt.bytes s

/-- `WRAM_P` (R81): the primary plane, unmodified and in address order. -/
def execWramP (s : State) : Result := stepStream s.cfg.cmds.opcWramP .primary s

/-- `WRAM_A` (R82): the accent plane. -/
def execWramA (s : State) : Result := stepStream s.cfg.cmds.opcWramA .accent s

/-- `ACTIVATE` (R83): no payload. -/
def execActivate (s : State) : Result := stepUnit s.cfg.cmds.opcActivate [] s

/-- `DSLEEP` (R84): a payload of exactly one byte. -/
def execDsleep (s : State) : Result := stepUnit s.cfg.cmds.opcDsleep [s.cfg.cmds.plDsleep] s

end Sys2Proof.Machine
end

