-- ==== Sys2Proof/Machine/Dispatch.lean ====
section
/-! DEFINITION. The meaning of every instruction, one arm a constructor. -/

namespace Sys2Proof.Machine

/-- The meaning of an instruction. -/
def exec (i : Instr) (s : State) : Host.Outcome State Fault Refusal :=
  match i with
  -- `CMD` operations
  | .nop => Sys2Proof.Machine.execNop s
  | .setPixel c => Sys2Proof.Machine.execSetPixel c s
  | .getPixel => Sys2Proof.Machine.execGetPixel s
  | .clear => Sys2Proof.Machine.execClear s
  | .refresh => Sys2Proof.Machine.execRefresh s
  -- `PORT` accesses
  | .rdCmd => Sys2Proof.Machine.execRdCmd s
  | .wrCmd w => Sys2Proof.Machine.execWrCmd w s
  | .rdArgX => Sys2Proof.Machine.execRdArgX s
  | .wrArgX v => Sys2Proof.Machine.execWrArgX v s
  | .rdArgY => Sys2Proof.Machine.execRdArgY s
  | .wrArgY v => Sys2Proof.Machine.execWrArgY v s
  | .rdResult => Sys2Proof.Machine.execRdResult s
  | .wrResult v => Sys2Proof.Machine.execWrResult v s
  | .rdStatus => Sys2Proof.Machine.execRdStatus s
  | .wrStatus v => Sys2Proof.Machine.execWrStatus v s
  | .rdRsvd5 => Sys2Proof.Machine.execRdRsvd5 s
  | .wrRsvd5 v => Sys2Proof.Machine.execWrRsvd5 v s
  | .rdRsvd6 => Sys2Proof.Machine.execRdRsvd6 s
  | .wrRsvd6 v => Sys2Proof.Machine.execWrRsvd6 v s
  | .rdRsvd7 => Sys2Proof.Machine.execRdRsvd7 s
  | .wrRsvd7 v => Sys2Proof.Machine.execWrRsvd7 v s
  -- SPI units
  | .swreset => Sys2Proof.Machine.execSwreset s
  | .duc => Sys2Proof.Machine.execDuc s
  | .border => Sys2Proof.Machine.execBorder s
  | .dem => Sys2Proof.Machine.execDem s
  | .xwin => Sys2Proof.Machine.execXwin s
  | .ywin => Sys2Proof.Machine.execYwin s
  | .xcnt => Sys2Proof.Machine.execXcnt s
  | .ycnt => Sys2Proof.Machine.execYcnt s
  | .wramP => Sys2Proof.Machine.execWramP s
  | .wramA => Sys2Proof.Machine.execWramA s
  | .activate => Sys2Proof.Machine.execActivate s
  | .dsleep => Sys2Proof.Machine.execDsleep s

end Sys2Proof.Machine
end

