-- ==== Sys2Proof/Machine/Fetch.lean ====
section
/-! DEFINITION. Which agent moves next and what it does: the engine fetches no instructions (20_memory.md R25), so
the next instruction is the host's `PORT` transaction or the SPI unit of the current micro-program entry. -/

namespace Sys2Proof.Machine

/-- What the next step performs, and on which state. -/
inductive Fetched where
  /-- An instruction of the table. -/
  | instr (i : Instr) (s : State)
  /-- A step of a micro-program entry that is no instruction. -/
  | micro (e : Entry) (s : State)
  /-- No agent has an enabled step. -/
  | idle (s : State)
  deriving DecidableEq, Repr

/-- The sequencer's step: the instruction of a `unit` entry, or the entry itself (42_refresh_sequencer.md R87). -/
def fetchEntry (s : State) : Fetched :=
  match entryOf s.pc with
  | .unit i => .instr i s
  | e => .micro e s

/-- The sequencer's turn, with or without a tick: its step where it is enabled (R87, R89), and nothing otherwise
(DEDUCED, log entry 22). -/
def sequencerTurn (tick : Bool) (s : State) : Fetched :=
  if s.run && (waitsForTick s == tick) then fetchEntry s else .idle s

/-- The next step. A listed turn is used up by it (DESIGN CHOICE, log entry 3). With none listed, the sequencer moves on by itself
while a refresh runs, a tick being supplied where it waits for one, and otherwise the engine rests (DESIGN CHOICE, log entry 4). -/
def fetch (s : State) : Fetched :=
  match s.turns with
  | .host ctrl data :: rest => .instr (decodePort ctrl data) { s with turns := rest }
  | .sequencer :: rest => sequencerTurn false { s with turns := rest }
  | .tick :: rest => sequencerTurn true { s with turns := rest }
  | [] => if s.run then fetchEntry s else .idle s

/-- The micro-program entry of an SPI instruction (42_refresh_sequencer.md R86). -/
def unitEntry : Instr → Option (Fin 21)
  | .swreset => some 5
  | .duc => some 7
  | .border => some 8
  | .dem => some 9
  | .xwin => some 10
  | .ywin => some 11
  | .xcnt => some 12
  | .ycnt => some 13
  | .wramP => some 15
  | .wramA => some 16
  | .activate => some 17
  | .dsleep => some 19
  | .nop | .setPixel _ | .getPixel | .clear | .refresh => none
  | .rdCmd | .wrCmd _ | .rdArgX | .wrArgX _ | .rdArgY | .wrArgY _ | .rdResult | .wrResult _
  | .rdStatus | .wrStatus _ | .rdRsvd5 | .wrRsvd5 _ | .rdRsvd6 | .wrRsvd6 _ | .rdRsvd7 | .wrRsvd7 _ => none

/-- A host transaction placed as the next turn. -/
def placeHost (ctrl : BitVec 4) (data : Word) (s : State) : State := { s with turns := .host ctrl data :: s.turns }

/-- The sequencer placed at the beginning of entry `e` of a running refresh, and its turn next. -/
def placeEntry (e : Fin 21) (s : State) : State :=
  enter e { s with run := true, turns := .sequencer :: s.turns }

/-- A table word placed where the next step takes its instruction from (DESIGN CHOICE, log entry 12): a `CMD` word as the host's
write of it to register 0, a `PORT` word as the host's transaction, an SPI opcode as the current entry of the
micro-program. A word that is no unit's opcode places nothing. -/
def placeWord (nbits w : Nat) (s : State) : State :=
  match tableFormat nbits w with
  | .cmd => placeHost 0b1000#4 (BitVec.ofNat 32 (w % 2 ^ nbits)) s
  | .port => placeHost (BitVec.ofNat 4 (w % 2 ^ nbits)) (BitVec.ofNat 32 ((w % 2 ^ nbits) >>> 8)) s
  | .spi =>
    match (decodeTableWord nbits w).bind unitEntry with
    | some e => placeEntry e s
    | none => s

end Sys2Proof.Machine
end

