-- ==== Sys2Proof/Machine/Step.lean ====
section
/-! DEFINITION. One step of the engine and its environment. -/

namespace Sys2Proof.Machine

/-- One step: the instruction or the micro-program step that is next, or nothing where no agent has an enabled step
(70_reset_and_hazards.md R130, 42_refresh_sequencer.md R87). -/
def step (s : State) : Host.Outcome State Fault Refusal :=
  match fetch s with
  | .instr i t => exec i t
  | .micro e t => stepMicro e t
  | .idle t => .next t

/-- `s` with a table word stored where `step` takes its next instruction from. -/
def State.withFetchWord (s : State) (nbits w : Nat) : State := placeWord nbits w s

end Sys2Proof.Machine
end

