-- ==== Sys2Proof/Machine/Trace.lean ====
section
/-! DEFINITION. The link trace of a refresh, written from 42_refresh_sequencer.md R98 and independent of the
sequencer's steps: what a refresh is to send, for claims to compare the steps with. -/

namespace Sys2Proof.Machine

/-- The bytes of a plane in address order (20_memory.md R29). -/
def planeData (m : Memory) (pl : Plane) : List Byte := (List.range planeBytes).map (fun i => m.get (pl.base + i))

/-- `U(opc, payload)`: the frames of a protocol unit (41_spi_protocol.md R72). -/
def unitTrace (opc : Byte) (payload : List Byte) : List LinkEvent :=
  .frame false opc :: payload.map (LinkEvent.frame true)

/-- How a busy-wait ends (R94): at the first low sample, after `j` high ones, or by timeout. -/
inductive WaitOutcome where
  | completes (j : Nat)
  | timesOut
  deriving DecidableEq, Repr

/-- The number of high samples before the one at the ceiling: samples are taken at `st.wait` = 0, `T_POLL`,
2 `T_POLL` and so on, and the first at or above `T_BUSY_MAX` is the last (R94, 90_conflicts.md C11). -/
def pollsToCeiling (c : Cfg) : Nat := (c.tBusyMax + c.tPoll - 1) / c.tPoll

/-- The poll periods a busy-wait takes. -/
def WaitOutcome.polls (c : Cfg) : WaitOutcome → Nat
  | .completes j => j
  | .timesOut => pollsToCeiling c

/-- The level of the last sample. -/
def WaitOutcome.lastLevel : WaitOutcome → Level
  | .completes _ => false
  | .timesOut => true

/-- A low sample ends a wait up to and at the ceiling, never after it (R94, vector V-BW-4). -/
def WaitOutcome.possible (c : Cfg) : WaitOutcome → Bool
  | .completes j => decide (j ≤ pollsToCeiling c)
  | .timesOut => true

/-- The wait's timeout flag afterwards, in a refresh that set none before (R94). -/
def WaitOutcome.flag : WaitOutcome → Bool
  | .completes _ => false
  | .timesOut => true

/-- The levels of `BUSY` a busy-wait samples. -/
def WaitOutcome.samples (c : Cfg) (o : WaitOutcome) : List Level :=
  List.replicate (o.polls c) true ++ [o.lastLevel]

/-- `BW(kind)`: the events of a busy-wait (R98). -/
def WaitOutcome.trace (c : Cfg) (o : WaitOutcome) : List LinkEvent :=
  List.replicate c.tBusySettle .tick
    ++ (List.replicate (o.polls c) (LinkEvent.sample true :: List.replicate c.tPoll .tick)).flatten
    ++ [.sample o.lastLevel]

/-- The reset pulse and the boot wait. -/
def resetTrace (c : Cfg) : List LinkEvent :=
  .rst false :: List.replicate c.tRstLow .tick ++ .rst true :: List.replicate c.tBoot .tick

/-- The units of the register initialisation after the soft reset. -/
def initTrace (p : PanelCommands) : List LinkEvent :=
  unitTrace p.opcDuc p.plDuc.bytes ++ unitTrace p.opcBorder p.plBorder.bytes ++ unitTrace p.opcDem p.plDem.bytes
    ++ unitTrace p.opcXwin p.plXwin.bytes ++ unitTrace p.opcYwin p.plYwin.bytes ++ unitTrace p.opcXcnt p.plXcnt.bytes
    ++ unitTrace p.opcYcnt p.plYcnt.bytes

/-- Both planes and the master activation. -/
def transferTrace (p : PanelCommands) (m : Memory) : List LinkEvent :=
  unitTrace p.opcWramP (planeData m .primary) ++ unitTrace p.opcWramA (planeData m .accent)
    ++ unitTrace p.opcActivate []

/-- The link trace of one accepted refresh, from acceptance to `SLEEPING` (R98), its three busy-waits ending as
given. -/
def refreshTrace (c : Cfg) (m : Memory) (hwrst swrst act : WaitOutcome) : List LinkEvent :=
  resetTrace c ++ hwrst.trace c ++ unitTrace c.cmds.opcSwreset [] ++ swrst.trace c ++ initTrace c.cmds
    ++ transferTrace c.cmds m ++ act.trace c ++ unitTrace c.cmds.opcDsleep [c.cmds.plDsleep]

/-- The `Frame` events of a trace. -/
def framesOf (evs : List LinkEvent) : List (Level × Byte) :=
  evs.filterMap fun
    | .frame dc b => some (dc, b)
    | .rst _ | .tick | .sample _ => none

/-- The number of `Tick` events of a trace. -/
def ticksOf (evs : List LinkEvent) : Nat := evs.count .tick

/-- The number of `Sample` events of a trace. -/
def samplesOf (evs : List LinkEvent) : Nat := (evs.filter fun
    | .sample _ => true
    | .frame _ _ | .rst _ | .tick => false).length

/-- The levels `DIN` has at the rising edges of `SCLK`, from the pin drives in order (41_spi_protocol.md R68). -/
def dinAtRisingEdges : Level → List (Pin × Level) → List Level
  | _, [] => []
  | _, (.din, v) :: rest => dinAtRisingEdges v rest
  | d, (.sclk, true) :: rest => d :: dinAtRisingEdges d rest
  | d, (.sclk, false) :: rest | d, (.csN, _) :: rest | d, (.dc, _) :: rest | d, (.rstN, _) :: rest =>
    dinAtRisingEdges d rest

end Sys2Proof.Machine
end

