-- ==== Sys2Proof/Machine/Panel.lean ====
section
/-! DEFINITION. The reference model of the display controller (60_exceptions.md R129): environment, not engine, and no
step reads it. It is a reader of the link trace; its state is no field of `State`, since it follows from the trace
and the state the panel had before (DEDUCED, log entry 16).

R129 gives it for a valid `CFG`. What a payload means is the display controller's (41_spi_protocol.md R74 to R80), so how
it reads them is an argument, `PanelReading`, and a `CFG` whose window or counter payloads do not cover the RAM misplaces
the image (70_reset_and_hazards.md R140; DEDUCED, log entry 28). -/

namespace Sys2Proof.Machine

/-- How the display controller reads the payloads of the initialisation units (41_spi_protocol.md R74, R76 to R80). No
rule gives the packing, so this is an argument of the reference model and claims hold for every reading. -/
structure PanelReading where
  /-- `DUC`: the payload selects dual-plane operation. -/
  selectsDual : List Byte → Bool
  /-- `DEM`: the payload selects that X and Y both increment. -/
  increments  : List Byte → Bool
  /-- `XWIN`: the first and the last byte column of the window. -/
  xWindow     : List Byte → Nat × Nat
  /-- `YWIN`: the first and the last row of the window. -/
  yWindow     : List Byte → Nat × Nat
  /-- `XCNT`: the byte column the X counter is set to. -/
  xCount      : List Byte → Nat
  /-- `YCNT`: the row the Y counter is set to. -/
  yCount      : List Byte → Nat

/-- A position lies in a window and the window in the RAM of 50 byte columns and 300 rows (R77, R78, R129). -/
def inWindow (xw yw : Nat × Nat) (x y : Nat) : Bool :=
  decide (xw.1 ≤ x) && decide (x ≤ xw.2) && decide (xw.2 < 50) && decide (yw.1 ≤ y) && decide (y ≤ yw.2)
    && decide (yw.2 < 300)

/-- The window of the commands' payloads is the whole RAM, written in the order of the planes (R76, R77, R78). -/
def PanelReading.coversRam (r : PanelReading) (p : PanelCommands) : Bool :=
  r.increments p.plDem.bytes && r.xWindow p.plXwin.bytes == (0, 49) && r.yWindow p.plYwin.bytes == (0, 299)

/-- The commands' payloads place the planes as 20_memory.md R28 lays them out: the whole RAM, from its first byte on
(R76 to R80). With `selectsDual` of `PL_DUC` this is what 41_spi_protocol.md asks of a `CFG`. -/
def PanelReading.placesPlanes (r : PanelReading) (p : PanelCommands) : Bool :=
  r.coversRam p && r.xCount p.plXcnt.bytes == 0 && r.yCount p.plYcnt.bytes == 0

/-- The reading that 30_encoding.md R56 gives with `CFG_EX`: general knowledge (GK2, GK3), used by tests only
(PRESUMED, log entry 28). -/
def exampleReading : PanelReading where
  selectsDual l := l.head? == some 0x00#8
  increments l := l == [0x03#8]
  xWindow l := ((l.getD 0 0#8).toNat, (l.getD 1 0#8).toNat)
  yWindow l := ((l.getD 0 0#8).toNat + 256 * (l.getD 1 0#8).toNat, (l.getD 2 0#8).toNat + 256 * (l.getD 3 0#8).toNat)
  xCount l := (l.getD 0 0#8).toNat
  yCount l := (l.getD 0 0#8).toNat + 256 * (l.getD 1 0#8).toNat

/-- The state of the reference display controller (R129), with the window and the direction of its writes, which R129
leaves at those of a valid `CFG` (log entry 28). -/
structure Panel where
  /-- The black RAM. -/
  rb       : Vector Byte 15000
  /-- The red RAM. -/
  rr       : Vector Byte 15000
  /-- The X counter, 0 to 49 in a valid window. -/
  cx       : Nat
  /-- The Y counter, 0 to 299 in a valid window. -/
  cy       : Nat
  /-- The first and the last byte column of the window. -/
  xWin     : Nat × Nat
  /-- The first and the last row of the window. -/
  yWin     : Nat × Nat
  /-- X and Y both increment during writes. -/
  incr     : Bool
  /-- How many RAM bytes arrived: the index of the free addresses. -/
  written  : Nat
  /-- The unit whose data bytes are arriving; `WRAM_P` and `WRAM_A` are the write targets `RB` and `RR`. -/
  current  : Option Instr
  /-- The payload bytes of that unit received so far. -/
  got      : List Byte
  /-- The dual-plane flag. -/
  dual     : Bool
  /-- The colours shown. -/
  image    : Vector Colour 120000
  /-- How many activations there were: the index of the free colours of the forbidden pair. -/
  updates  : Nat
  asleep   : Bool
  /-- `RST_N` was driven low and not yet high again. -/
  resetLow : Bool
  /-- The last sample of `BUSY` was high: a frame that comes now comes after a busy-wait that timed out. -/
  busy     : Bool
  /-- The state is open, until the next hardware reset: the controller got a frame the spec does not say its answer to. -/
  unsure   : Bool
  /-- How many such frames there were: the index of the free states. -/
  losses   : Nat
  deriving DecidableEq, Repr, Inhabited

/-- FREE VALUE (DESIGN CHOICE, log entry 29). The display controller, RAMs, counters, settings and image, after the `n`-th frame
the spec does not say its answer to. -/
opaque Config.anyPanel : Nat → Panel

/-- Any state and any image (93_implementation_defined.md U6, 91_not_in_source.md N9), up to the level of `RST_N`, which is
the engine's (DESIGN CHOICE, log entry 29). -/
def panelLost (q : Panel) : Panel :=
  { Config.anyPanel q.losses with resetLow := q.resetLow, unsure := true, losses := q.losses + 1 }

/-- The payload the panel waits for after a command, whose length `CFG` fixes for both sides (30_encoding.md R54). -/
def payloadOf (p : PanelCommands) : Instr → List Byte
  | .duc => p.plDuc.bytes
  | .border => p.plBorder.bytes
  | .dem => p.plDem.bytes
  | .xwin => p.plXwin.bytes
  | .ywin => p.plYwin.bytes
  | .xcnt => p.plXcnt.bytes
  | .ycnt => p.plYcnt.bytes
  | .dsleep => [p.plDsleep]
  | .swreset | .activate | .wramP | .wramA
  | .nop | .setPixel _ | .getPixel | .clear | .refresh
  | .rdCmd | .wrCmd _ | .rdArgX | .wrArgX _ | .rdArgY | .wrArgY _ | .rdResult | .wrResult _
  | .rdStatus | .wrStatus _ | .rdRsvd5 | .wrRsvd5 _ | .rdRsvd6 | .wrRsvd6 _ | .rdRsvd7 | .wrRsvd7 _ => []

/-- The colour pixel `k` shows on activation (R129). -/
def panelColour (q : Panel) (k : Nat) : Colour :=
  if q.dual = false then
    if laneOf ((q.rb[byteOf k]?).getD 0) k then .white else .black
  else
    match colourOfPair (laneOf ((q.rb[byteOf k]?).getD 0) k) (laneOf ((q.rr[byteOf k]?).getD 0) k) with
    | some c => c
    | none => Config.forbiddenPairColour q.updates k

/-- Activation: every pixel shows the colour of the RAM bits. -/
def panelActivate (q : Panel) : Panel :=
  { q with image := Vector.ofFn (fun k => panelColour q k.val), updates := q.updates + 1 }

/-- The counters are in a window of the RAM and advance in the order of the planes: where a byte lands is given. -/
def inOrder (q : Panel) : Bool := q.incr && inWindow q.xWin q.yWin q.cx q.cy

/-- The RAM address of the next byte: `cy*50 + cx` (R129). Where the payloads give no window around the counters or
another direction, the spec says only that the image is misplaced, and the address is a free value (R140; DESIGN CHOICE,
log entry 28). -/
def ramAddress (q : Panel) : Nat := if inOrder q then q.cy * 50 + q.cx else Config.strayAddress q.written

/-- The counters after a RAM byte: X advances, at the end of a row Y does (R76); that they wrap from the end of the window
to its beginning is general knowledge (GK4; PRESUMED, log entry 16). -/
def panelAdvance (q : Panel) : Panel :=
  if inOrder q then
    if q.cx = q.xWin.2 then
      { q with cx := q.xWin.1, cy := if q.cy = q.yWin.2 then q.yWin.1 else q.cy + 1, written := q.written + 1 }
    else { q with cx := q.cx + 1, written := q.written + 1 }
  else { q with written := q.written + 1 }

/-- The effect of a whole payload, as the controller reads it (R129, R140). -/
def payloadEffect (r : PanelReading) (i : Instr) (q : Panel) : Panel :=
  match i with
  | .duc => { q with dual := r.selectsDual q.got }
  | .dem => { q with incr := r.increments q.got }
  | .xwin => { q with xWin := r.xWindow q.got }
  | .ywin => { q with yWin := r.yWindow q.got }
  | .xcnt => { q with cx := r.xCount q.got }
  | .ycnt => { q with cy := r.yCount q.got }
  | .dsleep => { q with asleep := true }
  | .border | .swreset | .activate | .wramP | .wramA
  | .nop | .setPixel _ | .getPixel | .clear | .refresh
  | .rdCmd | .wrCmd _ | .rdArgX | .wrArgX _ | .rdArgY | .wrArgY _ | .rdResult | .wrResult _
  | .rdStatus | .wrStatus _ | .rdRsvd5 | .wrRsvd5 _ | .rdRsvd6 | .wrRsvd6 _ | .rdRsvd7 | .wrRsvd7 _ => q

/-- A payload byte of unit `i`; the payload takes effect with its last byte. What a byte beyond the payload does is not
given (30_encoding.md R53, 91_not_in_source.md N9): any state (DESIGN CHOICE, log entry 29). -/
def panelPayload (r : PanelReading) (p : PanelCommands) (i : Instr) (b : Byte) (q : Panel) : Panel :=
  if q.got.length + 1 = (payloadOf p i).length then payloadEffect r i { q with got := q.got ++ [b] }
  else if q.got.length + 1 < (payloadOf p i).length then { q with got := q.got ++ [b] }
  else panelLost q

/-- A data frame. What one outside every unit does is not given (N9; DESIGN CHOICE, log entry 29). -/
def panelData (r : PanelReading) (p : PanelCommands) (b : Byte) (q : Panel) : Panel :=
  match q.current with
  | none => panelLost q
  | some i =>
    if i = .wramP then panelAdvance { q with rb := q.rb.setIfInBounds (ramAddress q) b }
    else if i = .wramA then panelAdvance { q with rr := q.rr.setIfInBounds (ramAddress q) b }
    else panelPayload r p i b q

/-- The unit before has all of its payload. A plane's unit takes any number of bytes (R129). -/
def unitDone (p : PanelCommands) (q : Panel) : Bool :=
  match q.current with
  | none => true
  | some i => i == .wramP || i == .wramA || q.got.length == (payloadOf p i).length

/-- A command frame begins a unit. Of two equal opcodes the first in the order of 30_encoding.md R55 is taken (DESIGN
CHOICE, log entry 27). What an unknown opcode does, or a command before the payload of the unit before is whole, is not
given (R53, N9): any state (DESIGN CHOICE, log entry 29). -/
def panelCommand (p : PanelCommands) (b : Byte) (q : Panel) : Panel :=
  match unitDone p q, decodeSpi p false b with
  | true, .ok i => if i = .activate then panelActivate { q with current := some i, got := [] }
                   else { q with current := some i, got := [] }
  | _, _ => panelLost q

/-- An SPI frame. One that reaches a controller whose last sampled `BUSY` was high, as after a busy-wait that timed out,
leaves any state and any image (93_implementation_defined.md U6, 70_reset_and_hazards.md R137), and so does every frame from
then on until a hardware reset, and one sent while `RST_N` is low (DESIGN CHOICE, log entry 29). A sleeping controller
ignores frames (GK4; PRESUMED, log entry 16). -/
def panelFrame (r : PanelReading) (p : PanelCommands) (dc : Level) (b : Byte) (q : Panel) : Panel :=
  if q.unsure || q.busy || q.resetLow then panelLost q
  else if q.asleep then q
  else if dc then panelData r p b q
  else panelCommand p b q

/-- One event of the link trace. The pulse `Rst(0)`, `Rst(1)` wakes the controller (R129), which then is in no unit
and has no open state (DEDUCED, log entry 16). -/
def panelEvent (r : PanelReading) (p : PanelCommands) (q : Panel) (e : LinkEvent) : Panel :=
  match e with
  | .tick => q
  | .sample b => { q with busy := b }
  | .rst false => { q with resetLow := true }
  | .rst true =>
    if q.resetLow then
      { q with resetLow := false, asleep := false, busy := false, unsure := false, current := none, got := [] }
    else q
  | .frame dc b => panelFrame r p dc b q

/-- The panel after a trace, from any state it had before. -/
def panelAfter (r : PanelReading) (p : PanelCommands) (evs : List LinkEvent) (q : Panel) : Panel :=
  evs.foldl (panelEvent r p) q

end Sys2Proof.Machine
end

