-- ==== Sys2Proof/Machine/Pseudo.lean ====
section
/-! DEFINITION. The pseudo-instructions of 30_encoding.md R58: each stands for `PORT` transactions in order. No step
reads them; they name what a host puts into `turns`. -/

namespace Sys2Proof.Machine

/-- The pseudo-instructions with a fixed expansion. `REFRESH_SYNC` is `refresh` and then `WAITIDLE`. -/
inductive Pseudo where
  | setpx (x y : Word) (c : BitVec 2)
  | getpx (x y : Word)
  | clear
  | refresh
  | nop
  | clrflags
  deriving DecidableEq, Repr

/-- `WR ARG_X, x` and then `WR ARG_Y, y`. -/
def coordinateTurns (x y : Word) : List Turn := [.host 0b1001#4 x, .host 0b1010#4 y]

/-- The expansion of a pseudo-instruction. -/
def Pseudo.turns : Pseudo → List Turn
  | .setpx x y c => coordinateTurns x y ++ [.host 0b1000#4 (encodeCmd (.setPixel c))]
  | .getpx x y => coordinateTurns x y ++ [.host 0b1000#4 (encodeCmd .getPixel), .host 0b0011#4 0]
  | .clear => [.host 0b1000#4 (encodeCmd .clear)]
  | .refresh => [.host 0b1000#4 (encodeCmd .refresh)]
  | .nop => [.host 0b1000#4 (encodeCmd .nop)]
  | .clrflags => [.host 0b1100#4 0x00000300#32]

/-- One round of `WAITIDLE`, a read of `STATUS`. The loop is the host's; it ends at the first `idleSeen` word. -/
def waitIdleTurn : Turn := .host 0b0100#4 0

/-- The condition that ends `WAITIDLE`: `STATUS[4]`, RUN, is 0. -/
def idleSeen (status : Word) : Bool := !status.getLsbD 4

end Sys2Proof.Machine
end

