-- ==== Sys2Proof/Machine/Timing.lean ====
section
/-! DEFINITION. The timing figures of 70_reset_and_hazards.md R141, for information only: no step reads them. -/

namespace Sys2Proof.Machine

/-- `T_TICK`, 1 ms, in nanoseconds (00_scope.md R6). -/
def tickNanos : Nat := 1000000

/-- The time of `n` SPI frames in nanoseconds, eight clock periods each, without the chip-select overhead, which
the spec does not give. -/
def spiNanos (c : Cfg) (n : Nat) : Nat := n * 8 * 1000000000 / c.fSclk

/-- The shortest half-period of `SCLK` in nanoseconds (41_spi_protocol.md R68). -/
def halfPeriodNanos (c : Cfg) : Nat := 1000000000 / (2 * c.fSclk)

/-- The most ticks one busy-wait takes (42_refresh_sequencer.md R96). -/
def busyWaitBound (c : Cfg) : Nat := c.tBusySettle + c.tBusyMax + c.tPoll - 1

/-- The most ticks one refresh takes: both delays and three busy-waits. -/
def refreshTickBound (c : Cfg) : Nat := c.tRstLow + c.tBoot + 3 * busyWaitBound c

/-- The payload bytes of the seven initialisation units. -/
def initPayloadBytes (p : PanelCommands) : Nat :=
  p.plDuc.bytes.length + p.plBorder.bytes.length + p.plDem.bytes.length + p.plXwin.bytes.length
    + p.plYwin.bytes.length + p.plXcnt.bytes.length + p.plYcnt.bytes.length

/-- The number of `Frame` events of one refresh (42_refresh_sequencer.md R98). -/
def refreshFrames (p : PanelCommands) : Nat := 12 + initPayloadBytes p + 30000 + 1

end Sys2Proof.Machine
end

