-- ==== Sys2Proof/Safety.lean ====
section
/-! DEFINITION. What counts as a safe state and a safe run, in the terms the statements use. -/

namespace Sys2Proof.Machine

/-- The pair of pixel `k` is not (primary 0, accent 1) (10_state.md R20). -/
def pairOk (m : Memory) (k : Nat) : Bool :=
  laneOf (m.get (Plane.primary.base + byteOf k)) k || !laneOf (m.get (Plane.accent.base + byteOf k)) k

/-- The plane invariant (10_state.md R20). -/
def PlaneInv (m : Memory) : Prop := ∀ k, k < nPix → pairOk m k = true

/-- `RUN`, `STATE` and `st.pc` agree (42_refresh_sequencer.md R93, 10_state.md R22). -/
def phaseOk (s : State) : Bool :=
  if s.run then entryOf s.pc != .fin && s.state == entryState s.pc
  else s.state == .uninit || (s.state == .sleeping && s.pc == 20)

/-- The last position of an SPI unit: the number of its data frames (41_spi_protocol.md R72, R81, R82). -/
def lastPosition (p : PanelCommands) (i : Instr) : Nat :=
  if i = .wramP ∨ i = .wramA then planeBytes else (payloadOf p i).length

/-- The position inside a running entry is one it has (10_state.md R21, 42_refresh_sequencer.md R94). -/
def positionOk (s : State) : Bool :=
  match entryOf s.pc with
  | .pin _ | .pass => s.sub == 0
  | .delay d => decide (s.sub < delayTicks s.cfg d)
  | .unit i => decide (s.sub ≤ lastPosition s.cfg.cmds i)
  | .busyWait _ =>
    match s.bw with
    | .settle => decide (s.sub < s.cfg.tBusySettle) && s.wait == 0
    | .sample => decide (s.wait ≤ s.cfg.tBusyMax + s.cfg.tPoll - 1)
    | .poll => decide (s.sub < s.cfg.tPoll) && decide (s.wait < s.cfg.tBusyMax + s.sub)
  | .fin => false

/-- The sequencer is between two data bytes of a unit, where `BATCH_DATA` holds chip-select low (41_spi_protocol.md R69). -/
def betweenData (s : State) : Bool :=
  s.run && decide (2 ≤ s.sub)
    && match entryOf s.pc with
      | .unit _ => true
      | .pin _ | .delay _ | .busyWait _ | .pass | .fin => false

/-- The pins between two steps: the clock rests low; chip-select rests high, but for the data bytes of a unit with
`BATCH_DATA`; `RST_N` is low exactly during entries 1 and 2 (10_state.md R23, 42_refresh_sequencer.md R88, R101). -/
def pinsOk (s : State) : Bool :=
  !s.sclk && (s.csN || (s.cfg.batchData && betweenData s)) && (s.rstN == !(s.run && (s.pc == 1 || s.pc == 2)))

/-- The words `RESULT` can hold: reset or BLACK, WHITE, RED, clipped (40_framebuffer.md R62). -/
def resultOk (v : Word) : Bool := v == 0x00000000#32 || v == 0x00000005#32 || v == 0x0000000F#32 || v == 0x00000010#32

/-- The invariant of the engine. -/
structure EngineInv (s : State) : Prop where
  cfg      : s.cfg.wf = true
  mem      : s.mem.wf = true
  planes   : PlaneInv s.mem
  result   : resultOk s.result = true
  phase    : phaseOk s = true
  position : s.run = true → positionOk s = true
  pins     : pinsOk s = true

/-- `n` steps of the machine. -/
def runSteps (n : Nat) (s : State) : Result := Sys2Proof.core.run n s

/-- The seven legal `CMD` words and the commands they launch (30_encoding.md R51, 95_test_vectors.md 2.5). -/
def legalWords : List (Word × Command) :=
  [(0x00000000#32, .nop), (0x00000001#32, .setPixel 0b00#2), (0x00000011#32, .setPixel 0b01#2),
   (0x00000031#32, .setPixel 0b11#2), (0x00000002#32, .getPixel), (0x00000003#32, .clear), (0x00000004#32, .refresh)]

/-- `legal(w)` as 30_encoding.md R51 writes it, by bits. -/
def legal (w : Word) : Prop :=
  w = 0x00000000#32
    ∨ ((∀ i, 6 ≤ i → w.getLsbD i = false)
        ∧ (w.getLsbD 3 = false ∧ w.getLsbD 2 = false ∧ w.getLsbD 1 = false ∧ w.getLsbD 0 = true)
        ∧ ¬ (w.getLsbD 5 = true ∧ w.getLsbD 4 = false))
    ∨ w = 0x00000002#32 ∨ w = 0x00000003#32 ∨ w = 0x00000004#32

/-- The sequencer is at the beginning of its current entry, just entered, and no turn is listed, so that it moves on
by itself. -/
def freshEntry (s : State) : Prop :=
  s.run = true ∧ s.sub = 0 ∧ s.wait = 0 ∧ s.bw = (if 0 < s.cfg.tBusySettle then .settle else .sample) ∧ s.turns = []

/-- One frame of a unit as 41_spi_protocol.md R68 leaves the pins and the trace: `hold` keeps chip-select low
between the data bytes of a unit (R69). -/
def frameSent (d : Level) (b : Byte) (hold : Bool) (s : State) : State :=
  { s with csN := !hold, dc := d, sclk := false, din := b.getLsbD 0, trace := .frame d b :: s.trace }

/-- Instruction `i` sends the unit `opc`, `bytes`, one frame a step: at position `st.sub` the opcode with tag 0 or
the payload byte with tag 1, nothing else changing but the position; with the last frame the entry completes
(41_spi_protocol.md R72, 42_refresh_sequencer.md R90, R91). -/
def SendsUnit (i : Instr) (opc : State → Byte) (bytes : State → List Byte) : Prop :=
  ∀ (s : State) (b : Byte), (opc s :: bytes s)[s.sub]? = some b →
    exec i s = .next
      (if s.sub = (bytes s).length then
        complete (frameSent (decide (0 < s.sub)) b false s)
      else
        { frameSent (decide (0 < s.sub)) b (s.cfg.batchData && decide (0 < s.sub)) s with sub := s.sub + 1 })

/-- What a sequencer step can depend on: everything but the host's registers, the sticky flags and the turns. -/
def seqView (s : State) : State :=
  { s with argX := 0, argY := 0, result := 0, readData := 0, rejected := false, illegal := false, turns := [] }

end Sys2Proof.Machine
end

