-- ==== Sys2Proof/Certificates/Slice0/Obligations.lean ====
section
/-! DEFINITION. The statements for the provers, in the terms of the model and of `Safety.lean`. -/

open Sys2Proof Sys2Proof.Machine

/-! ### Encoding -/

/-- Decoding the encoding of a well-formed instruction gives it back, in every format; for the SPI units the
configured opcodes must differ, which no rule asks of `CFG`. The bytes an instruction is laid out in are the model's
(DESIGN CHOICE, log entry 11), and so is what equal opcodes decode to (log entry 27), which this statement leaves
aside. -/
def Obligations.DecodeEncodeAgree : Prop :=
  ∀ (p : PanelCommands) (i : Instr) (rest : List Byte), i.wf = true → (i.format = .spi → p.distinct = true) →
    decode p i.format (encode p i ++ rest) = .ok (i, rest)

/-- 30_encoding.md R51, R47: a word decodes to a command exactly when it is legal as the rule writes it; the legal words
are the seven of the inference the rule marks as derived, and each launches its operation. -/
def Obligations.LegalCommandWords : Prop :=
  ∀ w : Word, ((∃ c, decodeCmd w = .ok c) ↔ legal w) ∧ (legal w ↔ w ∈ legalWords.map Prod.fst)
    ∧ (∀ c, decodeCmd w = .ok c ↔ (w, c) ∈ legalWords)

/-- 30_encoding.md R45: every control value is one access, and the access carries it and, for a write, its `DATA`. -/
def Obligations.PortControlBits : Prop :=
  ∀ (ctrl : BitVec 4) (data : Word), ∃ v, encodePort (decodePort ctrl data) = some (ctrl, v)
    ∧ (ctrl.getLsbD 3 = true → v = data)

/-- Words written out from the spec's encodings decode to the instructions they stand for (SPI opcodes: `CFG_EX`). How
a word is read is the model's choice, not the spec's (DESIGN CHOICE, log entry 11): 8 bits below 16 are `PORT` control
bits with `DATA` 0, 40 bits carry `DATA` above the control byte, other words of 8 bits are SPI opcodes; the spec gives
the bits inside `CMD`, the control bits and the values of `CFG_EX`. -/
def Obligations.SpecWordsDecode : Prop :=
  decodeTableWord 32 0x00000031 = some (.setPixel 0b11) ∧ decodeTableWord 32 0x00000021 = none
    ∧ decodeTableWord 32 0x80000003 = none ∧ decodeTableWord 8 0b1001 = some (.wrArgX 0)
    ∧ decodeTableWord 40 0x0000012B0A = some (.wrArgY 0x12B) ∧ decodeTableWord 8 0x45 = some .ywin
    ∧ decodeTableWord 8 0x13 = none

/-! ### The step -/

/-- A step performs the instruction that is next: the host's transaction whose bytes decode to it, or the unit of the
current entry, after its turn is used up. The list of turns (log entry 3), the byte layout of a transaction (log entry
11) and that the sequencer moves by itself when no turn is listed (log entry 4) are the model's choices (DESIGN
CHOICE). -/
def Obligations.StepRunsTheNextInstruction : Prop :=
  (∀ (p : PanelCommands) (s : State) (ctrl : BitVec 4) (data : Word) (rest : List Turn) (i : Instr),
      s.turns = .host ctrl data :: rest →
      decode p .port ((0#4 ++ ctrl : BitVec 8) :: bytesOfWord data) = .ok (i, []) →
      step s = exec i { s with turns := rest })
    ∧ (∀ (s : State) (i : Instr), s.run = true → entryOf s.pc = .unit i →
      (s.turns = [] → step s = exec i s)
        ∧ (∀ rest, s.turns = .sequencer :: rest → step s = exec i { s with turns := rest }))

/-- 42_refresh_sequencer.md R87, R89: an entry that is no instruction takes its step when the sequencer has its turn,
a tick step with a tick and any other step without one. The list of turns (log entry 3) and that with none listed the
sequencer moves by itself, its tick supplied (log entry 4), are the model's choices (DESIGN CHOICE). -/
def Obligations.StepRunsTheNextEntry : Prop :=
  ∀ (s : State) (e : Entry), s.run = true → entryOf s.pc = e → (∀ i, e ≠ .unit i) →
    (s.turns = [] → step s = stepMicro e s)
      ∧ (∀ rest, s.turns = .sequencer :: rest → waitsForTick s = false → step s = stepMicro e { s with turns := rest })
      ∧ (∀ rest, s.turns = .tick :: rest → waitsForTick s = true → step s = stepMicro e { s with turns := rest })

/-- 42_refresh_sequencer.md R87, 70_reset_and_hazards.md R130 and 93_implementation_defined.md U18: where no agent has
an enabled step nothing changes but the turn, which is used up: no refresh runs, or the sequencer waits for a tick
that does not come, or a tick comes that nobody waits for. The list of turns (DESIGN CHOICE, log entries 3 and 4) and
that an idle turn is only used up (DEDUCED, log entry 22) are the model's. -/
def Obligations.StepWithoutEnabledAgent : Prop :=
  (∀ s : State, s.run = false → s.turns = [] → step s = .next s)
    ∧ (∀ (s : State) (rest : List Turn), s.turns = .sequencer :: rest →
        (s.run = false ∨ waitsForTick s = true) → step s = .next { s with turns := rest })
    ∧ (∀ (s : State) (rest : List Turn), s.turns = .tick :: rest →
        (s.run = false ∨ waitsForTick s = false) → step s = .next { s with turns := rest })

/-! ### The framebuffer commands -/

/-- 40_framebuffer.md R59, 20_memory.md R28: the in-range test on signed integers, and the byte, bit and mask of a pixel. -/
def Obligations.PixelAddressing : Prop :=
  ∀ x y : Int, (inCanvas x y = true ↔ (0 ≤ x ∧ x < 400) ∧ (0 ≤ y ∧ y < 300))
    ∧ (inCanvas x y = true →
        (pixelIndex x y : Int) = x + y * 400 ∧ pixelIndex x y < 120000
          ∧ byteOf (pixelIndex x y) = pixelIndex x y / 8 ∧ (byteOf (pixelIndex x y) : Int) = y * 50 + x / 8
          ∧ (bitOf (pixelIndex x y) : Int) = 7 - x % 8
          ∧ maskOf (pixelIndex x y) = 0x80#8 >>> (pixelIndex x y % 8))

/-- 40_framebuffer.md R66: distinct in-canvas coordinates have distinct lanes, and every lane has exactly one
coordinate pair. -/
def Obligations.LanesAndCoordinatesMatch : Prop :=
  (∀ x y x' y' : Int, inCanvas x y = true → inCanvas x' y' = true →
      byteOf (pixelIndex x y) = byteOf (pixelIndex x' y') → bitOf (pixelIndex x y) = bitOf (pixelIndex x' y') →
      x = x' ∧ y = y')
    ∧ (∀ byte bit : Nat, byte < 15000 → bit < 8 →
        ∃ x y : Int, inCanvas x y = true ∧ byteOf (pixelIndex x y) = byte ∧ bitOf (pixelIndex x y) = bit)

/-- 40_framebuffer.md R60 and 30_encoding.md R49: the compositing table and its decode map. -/
def Obligations.CompositingTable : Prop :=
  (codePrimary (colourCode .black) = false ∧ codeAccent (colourCode .black) = false)
    ∧ (codePrimary (colourCode .white) = true ∧ codeAccent (colourCode .white) = false)
    ∧ (codePrimary (colourCode .red) = true ∧ codeAccent (colourCode .red) = true)
    ∧ (∀ c : Colour, colourOfPair (codePrimary (colourCode c)) (codeAccent (colourCode c)) = some c)
    ∧ (∀ p a : Level, colourOfPair p a = none ↔ codeOf p a = 0b10#2)

/-- 40_framebuffer.md R61, the whole of SET_PIXEL: its word; an illegal code only sets ILLEGAL; a refused command only sets
REJECTED; a clipped one changes nothing; otherwise the two bits of the pixel are the code's, every other lane and every
other byte reads as before, and nothing but plane memory changes. -/
def Obligations.SetPixelEffect : Prop :=
  ∀ (s : State) (c : BitVec 2),
    encodeCmd (.setPixel c) = 0x00000001#32 ||| (c.setWidth 32 <<< 4)
      ∧ (c = 0b10#2 → exec (.setPixel c) s = .next { s with illegal := true })
      ∧ (c ≠ 0b10#2 → s.run = true → exec (.setPixel c) s = .next { s with rejected := true })
      ∧ (c ≠ 0b10#2 → s.run = false → inCanvas s.argX.toInt s.argY.toInt = false → exec (.setPixel c) s = .next s)
      ∧ (c ≠ 0b10#2 → s.run = false → s.mem.wf = true → inCanvas s.argX.toInt s.argY.toInt = true →
          ∃ t, exec (.setPixel c) s = .next t
            ∧ pixRead t .primary (pixelIndex s.argX.toInt s.argY.toInt) = some (c.getLsbD 0)
            ∧ pixRead t .accent (pixelIndex s.argX.toInt s.argY.toInt) = some (c.getLsbD 1)
            ∧ (∀ (pl : Plane) (j : Nat), j < 120000 → j ≠ pixelIndex s.argX.toInt s.argY.toInt →
                pixRead t pl j = pixRead s pl j)
            ∧ (∀ a : Nat, a ≠ byteOf (pixelIndex s.argX.toInt s.argY.toInt) →
                a ≠ 15000 + byteOf (pixelIndex s.argX.toInt s.argY.toInt) → memRead t a = memRead s a)
            ∧ t.mem.wf = true ∧ { t with mem := s.mem } = s)

/-- 40_framebuffer.md R62, the whole of GET_PIXEL, whatever `RUN` is: a clipped read gives 0x10; otherwise `RESULT` is
made of the two bits read; the four words it can then be are the inference the rule marks as derived. -/
def Obligations.GetPixelEffect : Prop :=
  ∀ s : State, encodeCmd .getPixel = 0x00000002#32
      ∧ (inCanvas s.argX.toInt s.argY.toInt = false → exec .getPixel s = .next { s with result := 0x00000010#32 })
      ∧ (inCanvas s.argX.toInt s.argY.toInt = true → ∃ (p a : Level) (v : Word),
          pixRead s .primary (pixelIndex s.argX.toInt s.argY.toInt) = some p
            ∧ pixRead s .accent (pixelIndex s.argX.toInt s.argY.toInt) = some a
            ∧ exec .getPixel s = .next { s with result := v }
            ∧ v.getLsbD 0 = p ∧ v.getLsbD 1 = a ∧ v.getLsbD 2 = p ∧ v.getLsbD 3 = a
            ∧ (∀ i, 4 ≤ i → v.getLsbD i = false)
            ∧ v = (if a then (if p then 0x0000000F#32 else 0x0000000A#32)
                   else (if p then 0x00000005#32 else 0x00000000#32)))

/-- 40_framebuffer.md R67, law 5: a pixel just set reads back as its colour code. -/
def Obligations.SetPixelThenGetPixel : Prop :=
  ∀ (s : State) (c : BitVec 2), s.run = false → s.mem.wf = true → c ≠ 0b10#2 →
    inCanvas s.argX.toInt s.argY.toInt = true →
    ∃ t u, exec (.setPixel c) s = .next t ∧ exec .getPixel t = .next u
      ∧ u.result.extractLsb' 0 2 = c ∧ u.result.getLsbD 4 = false ∧ u.mem = t.mem

/-- 40_framebuffer.md R63, the whole of CLEAR: refused while a refresh runs; otherwise every primary byte is 0xFF and
every accent byte 0x00, nothing but plane memory changes, a second CLEAR changes nothing more, and every pixel of the
canvas then reads as WHITE. -/
def Obligations.ClearEffect : Prop :=
  ∀ s : State, encodeCmd .clear = 0x00000003#32
    ∧ (s.run = true → exec .clear s = .next { s with rejected := true })
    ∧ (s.run = false → ∃ t, exec .clear s = .next t
        ∧ (∀ i, i < 15000 → memRead t i = some 0xFF#8 ∧ memRead t (15000 + i) = some 0x00#8)
        ∧ { t with mem := s.mem } = s ∧ exec .clear t = .next t
        ∧ (∀ x y : Word, inCanvas x.toInt y.toInt = true →
            exec .getPixel { t with argX := x, argY := y }
              = .next { t with argX := x, argY := y, result := 0x00000005#32 }))

/-- CLEAR's operation on plane memory is the byte loop of 40_framebuffer.md R63. -/
def Obligations.ClearIsTheByteLoop : Prop :=
  ∀ m : Memory, m.wf = true →
    m.clear = (List.range 15000).foldl (fun m i => (m.put (0 + i) 0xFF#8).put (15000 + i) 0x00#8) m

/-- 40_framebuffer.md R64, 43_host_port.md R112, R115: NOP and the ignored writes, with their encodings, change no state
at all, whatever `RUN` is; a write of 0 to `CMD` is NOP. -/
def Obligations.NopAndIgnoredWrites : Prop :=
  ∀ (s : State) (v : Word), encodeCmd .nop = 0x00000000#32 ∧ exec .nop s = .next s
    ∧ decodePort 0b1000#4 0x00000000#32 = .wrCmd 0x00000000#32 ∧ exec (.wrCmd 0x00000000#32) s = .next s
    ∧ decodePort 0b1011#4 v = .wrResult v ∧ exec (.wrResult v) s = .next s
    ∧ decodePort 0b1101#4 v = .wrRsvd5 v ∧ exec (.wrRsvd5 v) s = .next s
    ∧ decodePort 0b1110#4 v = .wrRsvd6 v ∧ exec (.wrRsvd6 v) s = .next s
    ∧ decodePort 0b1111#4 v = .wrRsvd7 v ∧ exec (.wrRsvd7 v) s = .next s

/-- 42_refresh_sequencer.md R85: an accepted REFRESH sets RUN, clears the three timeout flags and enters entry 0 in
state RESET; a refused one only sets REJECTED. -/
def Obligations.RefreshEffect : Prop :=
  ∀ s : State, encodeCmd .refresh = 0x00000004#32
    ∧ (s.run = true → exec .refresh s = .next { s with rejected := true })
    ∧ (s.run = false → exec .refresh s = .next { s with
        run := true, toHwrst := false, toSwrst := false, toAct := false, pc := 0, sub := 0, wait := 0
        bw := if 0 < s.cfg.tBusySettle then .settle else .sample, state := .reset })

/-- 43_host_port.md R105: while a refresh runs the seven legal words behave as the guard says: SET_PIXEL, CLEAR and
REFRESH only set REJECTED, NOP and GET_PIXEL are performed as they are when no refresh runs. -/
def Obligations.GuardDuringRefresh : Prop :=
  ∀ s : State, s.run = true →
    (∀ w : Word, w ∈ [0x00000001#32, 0x00000011#32, 0x00000031#32, 0x00000003#32, 0x00000004#32] →
        exec (.wrCmd w) s = .next { s with rejected := true })
      ∧ exec (.wrCmd 0x00000000#32) s = .next s
      ∧ (∀ t, exec (.wrCmd 0x00000002#32) { s with run := false } = .next t →
          exec (.wrCmd 0x00000002#32) s = .next { t with run := true })

/-! ### The host port -/

/-- 43_host_port.md R106, R108, R110, R111, R115: what the reads of `CMD`, `ARG_X`, `ARG_Y`, `RESULT` and the reserved
indices return, with their control bits; nothing else changes. That the data returned stands in `readData` is the
model's choice (DESIGN CHOICE, log entry 6). -/
def Obligations.PortReads : Prop :=
  (∀ d : Word, decodePort 0b0000#4 d = .rdCmd ∧ decodePort 0b0001#4 d = .rdArgX ∧ decodePort 0b0010#4 d = .rdArgY
      ∧ decodePort 0b0011#4 d = .rdResult ∧ decodePort 0b0101#4 d = .rdRsvd5 ∧ decodePort 0b0110#4 d = .rdRsvd6
      ∧ decodePort 0b0111#4 d = .rdRsvd7)
    ∧ ∀ s : State, exec .rdCmd s = .next { s with readData := 0x00000000#32 }
    ∧ exec .rdArgX s = .next { s with readData := s.argX }
    ∧ exec .rdArgY s = .next { s with readData := s.argY }
    ∧ exec .rdResult s = .next { s with readData := s.result }
    ∧ exec .rdRsvd5 s = .next { s with readData := 0x00000000#32 }
    ∧ exec .rdRsvd6 s = .next { s with readData := 0x00000000#32 }
    ∧ exec .rdRsvd7 s = .next { s with readData := 0x00000000#32 }

/-- 43_host_port.md R107, R109: the operand registers are plain storage, writable at any time, with their control bits. -/
def Obligations.OperandWrites : Prop :=
  ∀ (s : State) (v : Word), decodePort 0b1001#4 v = .wrArgX v ∧ decodePort 0b1010#4 v = .wrArgY v
    ∧ exec (.wrArgX v) s = .next { s with argX := v }
    ∧ exec (.wrArgY v) s = .next { s with argY := v }

/-- 43_host_port.md R113: a read of `STATUS` returns the fields of the sequencer and the flags at their bits, and at
bit 10 the level of `BUSY` drawn at the read (the next level of the schedule, or the next free value, which the
statement leaves open); no field but the draw and the data returned changes, and no event is appended. That the level
drawn is the head of `busyIn`, and `Config.busyLevel s.draws` when that is empty, and that the word returned stands in
`readData`, is the model's choice (DESIGN CHOICE, log entries 5 and 6): the spec says only that the level is a free
draw. -/
def Obligations.StatusRead : Prop :=
  ∀ s : State, (∀ d, decodePort 0b0100#4 d = .rdStatus) ∧ ∃ (b : Level) (t : State), exec .rdStatus s = .next t
    ∧ (∀ l rest, s.busyIn = l :: rest → b = l ∧ t.busyIn = rest ∧ t.draws = s.draws)
    ∧ (s.busyIn = [] → b = Config.busyLevel s.draws ∧ t.busyIn = [] ∧ t.draws = s.draws + 1)
    ∧ t.readData.extractLsb' 0 4 = s.state.code ∧ t.readData.getLsbD 4 = s.run
    ∧ t.readData.getLsbD 5 = s.toHwrst ∧ t.readData.getLsbD 6 = s.toSwrst ∧ t.readData.getLsbD 7 = s.toAct
    ∧ t.readData.getLsbD 8 = s.rejected ∧ t.readData.getLsbD 9 = s.illegal ∧ t.readData.getLsbD 10 = b
    ∧ (∀ i, 11 ≤ i → t.readData.getLsbD i = false)
    ∧ { t with readData := s.readData, busyIn := s.busyIn, draws := s.draws } = s

/-- 43_host_port.md R114: a write of `STATUS` clears REJECTED where bit 8 is 1 and ILLEGAL where bit 9 is 1; a 0 leaves
them, and every other bit is ignored. -/
def Obligations.StatusWrite : Prop :=
  ∀ (s : State) (v : Word), decodePort 0b1100#4 v = .wrStatus v ∧ exec (.wrStatus v) s = .next { s with
    rejected := if v.getLsbD 8 then false else s.rejected
    illegal := if v.getLsbD 9 then false else s.illegal }

/-- 43_host_port.md R104: a write of an illegal word has exactly one effect, ILLEGAL, whatever `RUN` is. -/
def Obligations.IllegalWordOnlySetsIllegal : Prop :=
  ∀ (s : State) (w : Word), ¬ legal w → exec (.wrCmd w) s = .next { s with illegal := true }

/-- 43_host_port.md R103: a write of a legal word launches its command, and the command completes inside the access. -/
def Obligations.LegalWordLaunchesItsCommand : Prop :=
  ∀ (s : State) (w : Word) (c : Command), (w, c) ∈ legalWords →
    ∃ t, exec (.wrCmd w) s = .next t ∧ exec c.toInstr s = .next t

/-- 20_memory.md R34: a read changes nothing but the data returned and, for `STATUS`, the draw of `BUSY`. The draw and
the data returned stand in fields of the model's own (DESIGN CHOICE, log entries 5 and 6). -/
def Obligations.ReadsHaveNoSideEffect : Prop :=
  ∀ (s t : State) (ctrl : BitVec 4) (data : Word), ctrl.getLsbD 3 = false → exec (decodePort ctrl data) s = .next t →
    { t with readData := s.readData, busyIn := s.busyIn, draws := s.draws } = s
      ∧ (ctrl ≠ 0b0100#4 → t.busyIn = s.busyIn ∧ t.draws = s.draws)

/-- 30_encoding.md R58, with 70_reset_and_hazards.md R134: a pseudo-instruction whose transactions come next runs as
its operation on the coordinates it wrote; a round of WAITIDLE ends the wait exactly when no refresh runs. The list of
turns (DESIGN CHOICE, log entry 3), the data returned in `readData` (log entry 6) and the pseudo-instructions as turns
(DEDUCED, log entry 26) are the model's. -/
def Obligations.PseudoInstructionsRun : Prop :=
  (∀ (s : State) (x y : Word) (c : BitVec 2) (rest : List Turn), c ≠ 0b10#2 →
      s.turns = (Pseudo.setpx x y c).turns ++ rest →
      runSteps 3 s = exec (.setPixel c) { s with argX := x, argY := y, turns := rest })
    ∧ (∀ (s : State) (x y : Word) (rest : List Turn), s.turns = (Pseudo.getpx x y).turns ++ rest →
      ∃ t, exec .getPixel { s with argX := x, argY := y, turns := rest } = .next t
        ∧ runSteps 4 s = .next { t with readData := t.result })
    ∧ (∀ (s : State) (rest : List Turn),
      (s.turns = Pseudo.clear.turns ++ rest → runSteps 1 s = exec .clear { s with turns := rest })
        ∧ (s.turns = Pseudo.refresh.turns ++ rest → runSteps 1 s = exec .refresh { s with turns := rest })
        ∧ (s.turns = Pseudo.nop.turns ++ rest → runSteps 1 s = .next { s with turns := rest })
        ∧ (s.turns = Pseudo.clrflags.turns ++ rest →
            runSteps 1 s = .next { s with turns := rest, rejected := false, illegal := false })
        ∧ (s.turns = waitIdleTurn :: rest → ∃ t, runSteps 1 s = .next t ∧ idleSeen t.readData = !s.run))

/-! ### The SPI link -/

/-- 41_spi_protocol.md R68, with `BATCH_DATA` false: a frame drives chip-select low, then the tag, then clocks the
byte out most-significant-bit-first with `DIN` set before each rising edge of `SCLK`, then drives chip-select high.
That `DIN` is taken at the rising edges of `SCLK` is the meaning of SPI mode 0, which the spec supplies as general
knowledge (GK1; PRESUMED, unsafe, log entry 14). -/
def Obligations.FrameWaveform : Prop :=
  ∀ (d : Level) (b : Byte),
    (frameDrives d b false).take 2 = [(.csN, false), (.dc, d)]
      ∧ (frameDrives d b false).getLast? = some (.csN, true)
      ∧ (frameDrives d b false).countP (fun x => decide (x.1 = .csN)) = 2
      ∧ (frameDrives d b false).countP (fun x => decide (x.1 = .dc)) = 1
      ∧ (∀ d0, dinAtRisingEdges d0 (frameDrives d b false)
          = [b.getLsbD 7, b.getLsbD 6, b.getLsbD 5, b.getLsbD 4, b.getLsbD 3, b.getLsbD 2, b.getLsbD 1, b.getLsbD 0])
      ∧ (∀ s : State, s.cfg.batchData = false → emit d b true s = emit d b false s
          ∧ emit d b false s = frameSent d b false s)

/-- 41_spi_protocol.md R73 to R80, R83, R84, with R72 and 42_refresh_sequencer.md R90: each of the ten units sends its
opcode and then its payload, one frame a step. That chip-select stays low between the data bytes of a unit when
`batchData` is true is read from 41_spi_protocol.md R69 (DEDUCED, unsafe there, log entry 15), and that one step of an
instruction is one frame from R72 (DEDUCED, log entry 10). -/
def Obligations.UnitsSendTheirFrames : Prop :=
  SendsUnit .swreset (fun s => s.cfg.cmds.opcSwreset) (fun _ => [])
    ∧ SendsUnit .duc (fun s => s.cfg.cmds.opcDuc) (fun s => s.cfg.cmds.plDuc.bytes)
    ∧ SendsUnit .border (fun s => s.cfg.cmds.opcBorder) (fun s => s.cfg.cmds.plBorder.bytes)
    ∧ SendsUnit .dem (fun s => s.cfg.cmds.opcDem) (fun s => s.cfg.cmds.plDem.bytes)
    ∧ SendsUnit .xwin (fun s => s.cfg.cmds.opcXwin) (fun s => s.cfg.cmds.plXwin.bytes)
    ∧ SendsUnit .ywin (fun s => s.cfg.cmds.opcYwin) (fun s => s.cfg.cmds.plYwin.bytes)
    ∧ SendsUnit .xcnt (fun s => s.cfg.cmds.opcXcnt) (fun s => s.cfg.cmds.plXcnt.bytes)
    ∧ SendsUnit .ycnt (fun s => s.cfg.cmds.opcYcnt) (fun s => s.cfg.cmds.plYcnt.bytes)
    ∧ SendsUnit .activate (fun s => s.cfg.cmds.opcActivate) (fun _ => [])
    ∧ SendsUnit .dsleep (fun s => s.cfg.cmds.opcDsleep) (fun s => [s.cfg.cmds.plDsleep])

/-- 41_spi_protocol.md R81, R82, with 42_refresh_sequencer.md R91: the two streams send their opcode and then the
15000 bytes of their plane in address order, unmodified, one frame a step. That chip-select stays low between plane
bytes when `batchData` is true is read from 41_spi_protocol.md R69 (DEDUCED, unsafe there, log entry 15), and that one
step of an instruction is one frame from R91 (DEDUCED, log entry 10). -/
def Obligations.StreamsSendThePlanes : Prop :=
  SendsUnit .wramP (fun s => s.cfg.cmds.opcWramP) (fun s => (List.range 15000).map (fun i => s.mem.get i))
    ∧ SendsUnit .wramA (fun s => s.cfg.cmds.opcWramA) (fun s => (List.range 15000).map (fun i => s.mem.get (15000 + i)))

/-- Past its last frame an SPI instruction stops by name: a position the sequencer does not have (10_state.md R21); the
stop is the model's choice (log entry 9), and no state of the invariant reaches it. -/
def Obligations.UnitsStopPastTheirLastFrame : Prop :=
  ∀ (s : State) (i : Instr), i.format = .spi → lastPosition s.cfg.cmds i < s.sub → exec i s = .fault .sequencerRange

/-- 42_refresh_sequencer.md R90: run by the sequencer alone, a unit is sent whole, exactly its frames, and the next
entry is entered. No turn is listed: that the sequencer then moves by itself is the model's choice (DESIGN CHOICE, log
entry 4). -/
def Obligations.WholeUnitIsSent : Prop :=
  ∀ (s : State) (i : Instr) (opc : Byte), freshEntry s → entryOf s.pc = .unit i → i ≠ .wramP → i ≠ .wramA →
    encodeSpi s.cfg.cmds i = some opc →
    runSteps (1 + (payloadOf s.cfg.cmds i).length) s = .next (complete { s with
      csN := true, dc := decide (payloadOf s.cfg.cmds i ≠ []), sclk := false
      din := ((payloadOf s.cfg.cmds i).getLastD opc).getLsbD 0
      trace := (unitTrace opc (payloadOf s.cfg.cmds i)).reverse ++ s.trace })

/-- 42_refresh_sequencer.md R91: run by the sequencer alone, a stream is 15001 frames, the opcode and the whole plane.
No turn is listed: that the sequencer then moves by itself is the model's choice (DESIGN CHOICE, log entry 4). -/
def Obligations.WholeStreamIsSent : Prop :=
  ∀ (s : State) (i : Instr) (opc : Byte) (pl : Plane), freshEntry s → entryOf s.pc = .unit i →
    (i = .wramP ∧ pl = .primary ∨ i = .wramA ∧ pl = .accent) → encodeSpi s.cfg.cmds i = some opc →
    runSteps 15001 s = .next (complete { s with
      csN := true, dc := true, sclk := false, din := (s.mem.get (pl.base + 14999)).getLsbD 0
      trace := (unitTrace opc (planeData s.mem pl)).reverse ++ s.trace })

/-! ### The sequencer -/

/-- 42_refresh_sequencer.md R86: the states and the kinds of the 21 entries. -/
def Obligations.MicroProgramTable : Prop :=
  (List.finRange 21).map (fun e => (entryState e).code.toNat)
      = [1, 1, 1, 1, 1, 2, 2, 2, 2, 2, 2, 2, 2, 2, 3, 4, 5, 6, 6, 6, 7]
    ∧ (List.finRange 21).map entryOf
      = [.pin false, .delay .rstLow, .pin true, .delay .boot, .busyWait .hwrst, .unit .swreset, .busyWait .swrst,
         .unit .duc, .unit .border, .unit .dem, .unit .xwin, .unit .ywin, .unit .xcnt, .unit .ycnt, .pass,
         .unit .wramP, .unit .wramA, .unit .activate, .busyWait .act, .unit .dsleep, .fin]

/-- 42_refresh_sequencer.md R88, R92: a `PIN` entry drives `RST_N` and appends its event, a `PASS` entry does nothing;
each completes in its one step. No turn is listed: that the sequencer then moves by itself is the model's choice
(DESIGN CHOICE, log entry 4). -/
def Obligations.PinAndPassEntries : Prop :=
  ∀ (s : State), s.run = true → s.turns = [] →
    (∀ v, entryOf s.pc = .pin v → step s = .next (complete { s with rstN := v, trace := .rst v :: s.trace }))
      ∧ (entryOf s.pc = .pass → step s = .next (complete s))

/-- 42_refresh_sequencer.md R87, R93: completing an entry enters the next one at its beginning, in the state of its
row; entering the last one ends the refresh in `SLEEPING`. -/
def Obligations.CompletingAnEntry : Prop :=
  ∀ s : State, s.pc ≠ 20 →
    (complete s).pc.val = s.pc.val + 1 ∧ (complete s).sub = 0 ∧ (complete s).wait = 0
      ∧ (complete s).bw = (if 0 < s.cfg.tBusySettle then .settle else .sample)
      ∧ (complete s).state = entryState (complete s).pc
      ∧ (complete s).run = (s.run && decide (s.pc ≠ 19))
      ∧ (s.pc = 19 → (complete s).state = .sleeping)
      ∧ { complete s with pc := s.pc, sub := s.sub, wait := s.wait, bw := s.bw, state := s.state, run := s.run } = s

/-- 42_refresh_sequencer.md R89: a delay is exactly its number of tick steps, changes no pin, and completes. No turn
is listed: that the ticks are then supplied is the model's choice (DESIGN CHOICE, unsafe for a tick that stops, log
entry 4). -/
def Obligations.DelayTakesItsTicks : Prop :=
  ∀ (s : State) (d : DelayKind), s.cfg.wf = true → freshEntry s → entryOf s.pc = .delay d →
    runSteps (delayTicks s.cfg d) s
      = .next (complete { s with trace := List.replicate (delayTicks s.cfg d) .tick ++ s.trace })

/-- 42_refresh_sequencer.md R94: a busy-wait whose samples are those of an outcome (high ones, then a low one at or
below the ceiling, or high ones up to the ceiling) takes exactly the outcome's ticks and samples, and completes, with
its timeout flag set where it timed out and as it was otherwise. No turn is listed and the levels stand in `busyIn`:
that the ticks are then supplied and where the levels come from are the model's choices (DESIGN CHOICE, log entries 4
and 5). -/
def Obligations.BusyWaitFollowsItsSamples : Prop :=
  ∀ (s : State) (k : WaitKind) (o : WaitOutcome) (rest : List Level), s.cfg.wf = true → freshEntry s →
    entryOf s.pc = .busyWait k → o.possible s.cfg = true → s.busyIn = o.samples s.cfg ++ rest →
    runSteps (s.cfg.tBusySettle + o.polls s.cfg * (1 + s.cfg.tPoll) + 1) s
      = .next (complete (if o.flag then setTimeout k { s with
            busyIn := rest, trace := (o.trace s.cfg).reverse ++ s.trace }
          else { s with busyIn := rest, trace := (o.trace s.cfg).reverse ++ s.trace }))

/-- 42_refresh_sequencer.md R96: a busy-wait completes within its bound of ticks, whatever `BUSY` does. Provided the
Tick agent keeps supplying ticks, as R96 says: with no turn listed the model supplies them (DESIGN CHOICE, unsafe for
the stopped tick of 93_implementation_defined.md U18, log entry 4). -/
def Obligations.BusyWaitIsBounded : Prop :=
  ∀ (s : State) (k : WaitKind), s.cfg.wf = true → freshEntry s → entryOf s.pc = .busyWait k →
    ∃ n t, runSteps n s = .next t ∧ t.pc = nextEntry s.pc ∧ t.sub = 0 ∧ t.run = true
      ∧ ticksOf t.trace ≤ ticksOf s.trace + (s.cfg.tBusySettle + s.cfg.tBusyMax + s.cfg.tPoll - 1)

/-- 42_refresh_sequencer.md R96: every refresh ends in `SLEEPING`, from every state of the invariant and whatever
`BUSY` does, while the ticks keep coming (no turn is listed: the model's default, log entry 4). -/
def Obligations.EveryRefreshEnds : Prop :=
  ∀ s : State, EngineInv s → s.run = true → s.turns = [] →
    ∃ n t, runSteps n s = .next t ∧ t.run = false ∧ t.state = .sleeping ∧ t.pc = 20

/-- 42_refresh_sequencer.md R98: the link trace of one accepted refresh, from acceptance to `SLEEPING`, is exactly the
rule's, and the timeout flags say which of its busy-waits timed out. After the REFRESH no turn is listed, so the
sequencer moves by itself and its ticks are supplied, and the levels of `BUSY` stand in `busyIn`: the model's choices
(DESIGN CHOICE, log entries 3, 4 and 5). -/
def Obligations.RefreshSendsItsTrace : Prop :=
  ∀ (s : State) (hw sw act : WaitOutcome) (rest : List Level), s.cfg.wf = true → s.run = false →
    s.turns = [.host 0b1000#4 0x00000004#32] → hw.possible s.cfg = true → sw.possible s.cfg = true →
    act.possible s.cfg = true →
    s.busyIn = hw.samples s.cfg ++ (sw.samples s.cfg ++ (act.samples s.cfg ++ rest)) →
    ∃ n t, runSteps n s = .next t
      ∧ t.linkTrace = s.linkTrace ++ refreshTrace s.cfg s.mem hw sw act
      ∧ t.run = false ∧ t.state = .sleeping ∧ t.pc = 20 ∧ t.busyIn = rest
      ∧ t.toHwrst = hw.flag ∧ t.toSwrst = sw.flag ∧ t.toAct = act.flag
      ∧ t.csN = true ∧ t.sclk = false ∧ t.rstN = true ∧ t.dc = true ∧ t.din = s.cfg.cmds.plDsleep.getLsbD 0
      ∧ t.mem = s.mem ∧ t.argX = s.argX ∧ t.argY = s.argY ∧ t.result = s.result
      ∧ t.rejected = s.rejected ∧ t.illegal = s.illegal

/-- 42_refresh_sequencer.md R98, R99: the number of frames of a refresh, of those with tag 0, and the frames from the
write-primary command on. -/
def Obligations.RefreshFrameCount : Prop :=
  ∀ (c : Cfg) (m : Memory) (hw sw act : WaitOutcome),
    (framesOf (refreshTrace c m hw sw act)).length = 12 + initPayloadBytes c.cmds + 30000 + 1
      ∧ ((framesOf (refreshTrace c m hw sw act)).filter (fun f => !f.1)).length = 12
      ∧ (framesOf (refreshTrace c m hw sw act)).drop (8 + initPayloadBytes c.cmds)
          = (false, c.cmds.opcWramP) :: (List.range 15000).map (fun i => (true, m.get i))
            ++ (false, c.cmds.opcWramA) :: (List.range 15000).map (fun i => (true, m.get (15000 + i)))
            ++ [(false, c.cmds.opcActivate), (false, c.cmds.opcDsleep), (true, c.cmds.plDsleep)]

/-- 70_reset_and_hazards.md R141, 42_refresh_sequencer.md R96: the ticks of a refresh are its two delays and those of its
busy-waits, and never more than the bound. -/
def Obligations.RefreshTickCount : Prop :=
  ∀ (c : Cfg) (m : Memory) (hw sw act : WaitOutcome), c.wf = true → hw.possible c = true → sw.possible c = true →
    act.possible c = true →
    ticksOf (refreshTrace c m hw sw act)
        = c.tRstLow + c.tBoot + (3 * c.tBusySettle + (hw.polls c + sw.polls c + act.polls c) * c.tPoll)
      ∧ ticksOf (refreshTrace c m hw sw act) ≤ refreshTickBound c

/-- 70_reset_and_hazards.md R141: the figures of the table, under `CFG_EX`. -/
def Obligations.TimingFigures : Prop :=
  refreshFrames exampleCommands = 30026 ∧ spiNanos exampleCfg 30026 = 60052000 ∧ halfPeriodNanos exampleCfg = 125
    ∧ exampleCfg.tRstLow + exampleCfg.tBoot = 220 ∧ busyWaitBound exampleCfg = 10000
    ∧ refreshTickBound exampleCfg = 30220 ∧ 30220 * tickNanos = 30220000000 ∧ spiNanos exampleCfg 1 = 2000

/-! ### The whole machine -/

/-- The invariant holds after power-on reset. -/
def Obligations.ResetMeetsTheInvariant : Prop := EngineInv State.reset

/-- Every step keeps the invariant, from every state that meets it and whatever the agents outside do. Its clause on
chip-select with `batchData` rests on log entry 15 (DEDUCED). -/
def Obligations.StepKeepsTheInvariant : Prop := ∀ s t : State, EngineInv s → step s = .next t → EngineInv t

/-- From a state of the invariant a step answers a next state: no fault, no refusal. The stops themselves are the
model's (DEDUCED, log entry 8; DESIGN CHOICE, log entry 9). -/
def Obligations.InvariantStatesNeverStop : Prop := ∀ s : State, EngineInv s → ∃ t, step s = .next t

/-- 10_state.md R20: the forbidden pair (primary 0, accent 1) is never produced: a step from canonical planes without it
leaves planes without it. -/
def Obligations.ForbiddenPairIsNeverProduced : Prop :=
  ∀ s t : State, s.mem.wf = true → (∀ k, k < 120000 → ¬ (pixRead s .primary k = some false ∧ pixRead s .accent k = some true)) →
    step s = .next t → ∀ k, k < 120000 → ¬ (pixRead t .primary k = some false ∧ pixRead t .accent k = some true)

/-- 10_state.md R24: the state after power-on reset, as far as the rule gives it, with every plane byte; the word of
`STATUS` is the row the rule marks as derived. -/
def Obligations.ResetValues : Prop :=
  State.reset.argX = 0x00000000#32 ∧ State.reset.argY = 0x00000000#32 ∧ State.reset.result = 0x00000000#32
    ∧ State.reset.state = .uninit ∧ State.reset.run = false ∧ State.reset.pc = 0 ∧ State.reset.sub = 0
    ∧ State.reset.wait = 0 ∧ State.reset.bw = .settle ∧ State.reset.toHwrst = false ∧ State.reset.toSwrst = false
    ∧ State.reset.toAct = false ∧ State.reset.rejected = false ∧ State.reset.illegal = false
    ∧ (∀ i, i < 15000 → memRead State.reset i = some 0xFF#8 ∧ memRead State.reset (15000 + i) = some 0x00#8)
    ∧ State.reset.csN = true ∧ State.reset.sclk = false ∧ State.reset.dc = false ∧ State.reset.din = false
    ∧ State.reset.rstN = true ∧ (∀ b, statusWord b State.reset = if b then 0x00000400#32 else 0x00000000#32)

/-- 20_memory.md R41: no step changes the configuration. -/
def Obligations.ConfigurationIsFixed : Prop := ∀ s t : State, step s = .next t → t.cfg = s.cfg

/-- 10_state.md R15, R16, R19: the operand registers, `RESULT`, the planes and the data returned change only by the
accesses that write them, and the planes only while no refresh runs. That an access is the head of `turns`, and its
data in `readData`, is the model's form (DESIGN CHOICE, log entries 3 and 6). -/
def Obligations.RegistersChangeOnlyByTheirAccess : Prop :=
  ∀ s t : State, step s = .next t →
    (t.argX ≠ s.argX → ∃ rest, s.turns = .host 0b1001#4 t.argX :: rest)
      ∧ (t.argY ≠ s.argY → ∃ rest, s.turns = .host 0b1010#4 t.argY :: rest)
      ∧ (t.result ≠ s.result → ∃ rest, s.turns = .host 0b1000#4 0x00000002#32 :: rest)
      ∧ (t.mem ≠ s.mem → s.run = false ∧ ∃ w rest, s.turns = .host 0b1000#4 w :: rest
          ∧ w ∈ [0x00000001#32, 0x00000011#32, 0x00000031#32, 0x00000003#32])
      ∧ (t.readData ≠ s.readData → ∃ ctrl data rest, s.turns = .host ctrl data :: rest ∧ ctrl.getLsbD 3 = false)

/-- 43_host_port.md R104, R105 and 20_memory.md R37: a host access during a refresh changes neither the planes nor
anything of the sequencer, the pins or the link trace. The draws of `BUSY` are fields of the model's own (DESIGN
CHOICE, log entry 5). -/
def Obligations.HostAccessLeavesARefreshAlone : Prop :=
  ∀ (s t : State) (i : Instr), s.run = true → i.format ≠ .spi → exec i s = .next t →
    { seqView t with busyIn := s.busyIn, draws := s.draws } = seqView s
      ∧ (i ≠ .rdStatus → t.busyIn = s.busyIn ∧ t.draws = s.draws)

/-- 10_state.md R12, 42_refresh_sequencer.md R87: a step of the sequencer depends on nothing of the host's: two states
that agree but for the host's registers, the sticky flags and the coming turns go on alike. The turns are the model's
form of who moves next (DESIGN CHOICE, log entry 3). -/
def Obligations.SequencerDoesNotSeeTheHost : Prop :=
  ∀ (s s' t : State) (turn : Turn) (rest rest' : List Turn), (turn = .sequencer ∨ turn = .tick) →
    s.turns = turn :: rest → s'.turns = turn :: rest' → seqView s = seqView s' → step s = .next t →
    ∃ t', step s' = .next t' ∧ seqView t = seqView t'

/-- 20_memory.md R37: as long as a refresh runs the planes keep their contents, whatever accesses the host makes. -/
def Obligations.PlanesAreFrozenDuringARefresh : Prop :=
  ∀ (n : Nat) (s t : State), runSteps n s = .next t →
    (∀ m u, m < n → runSteps m s = .next u → u.run = true) → t.mem = s.mem

/-- 60_exceptions.md R120: the life of the sticky flags. That an access is the head of `turns` is the model's form
(DESIGN CHOICE, log entry 3). -/
def Obligations.LifeOfTheStickyFlags : Prop :=
  ∀ s t : State, step s = .next t →
    (s.rejected = true → t.rejected = false → ∃ v rest, s.turns = .host 0b1100#4 v :: rest ∧ v.getLsbD 8 = true)
      ∧ (s.illegal = true → t.illegal = false → ∃ v rest, s.turns = .host 0b1100#4 v :: rest ∧ v.getLsbD 9 = true)
      ∧ (s.rejected = false → t.rejected = true → s.run = true ∧ ∃ w rest, s.turns = .host 0b1000#4 w :: rest
          ∧ w ∈ [0x00000001#32, 0x00000011#32, 0x00000031#32, 0x00000003#32, 0x00000004#32])
      ∧ (s.illegal = false → t.illegal = true → ∃ w rest, s.turns = .host 0b1000#4 w :: rest ∧ ¬ legal w)

/-- 60_exceptions.md R120, 42_refresh_sequencer.md R94: a timeout flag is cleared only when a REFRESH is accepted, and
set only by its own busy-wait, by a high sample at the ceiling. That an access is the head of `turns` is the model's
form (DESIGN CHOICE, log entry 3). -/
def Obligations.LifeOfTheTimeoutFlags : Prop :=
  ∀ s t : State, step s = .next t →
    ((s.toHwrst = true ∧ t.toHwrst = false ∨ s.toSwrst = true ∧ t.toSwrst = false ∨ s.toAct = true ∧ t.toAct = false) →
        s.run = false ∧ ∃ rest, s.turns = .host 0b1000#4 0x00000004#32 :: rest)
      ∧ (s.toHwrst = false ∧ t.toHwrst = true → s.pc = 4)
      ∧ (s.toSwrst = false ∧ t.toSwrst = true → s.pc = 6)
      ∧ (s.toAct = false ∧ t.toAct = true → s.pc = 18)
      ∧ ((s.toHwrst = false ∧ t.toHwrst = true ∨ s.toSwrst = false ∧ t.toSwrst = true ∨ s.toAct = false ∧ t.toAct = true) →
          s.run = true ∧ s.bw = .sample ∧ s.cfg.tBusyMax ≤ s.wait ∧ t.trace = .sample true :: s.trace)

/-- 42_refresh_sequencer.md R97: the transitions of the refresh state are those of the rule, and only an accepted
REFRESH leaves `UNINIT` or `SLEEPING`. That an access is the head of `turns` is the model's form (DESIGN CHOICE, log
entry 3). -/
def Obligations.RefreshStateTransitions : Prop :=
  ∀ s t : State, EngineInv s → step s = .next t →
    (t.state = s.state ∨ (s.state, t.state) ∈
        [(RefreshState.uninit, RefreshState.reset), (.reset, .initializing), (.initializing, .ready),
         (.ready, .transferringBlack), (.transferringBlack, .transferringRed), (.transferringRed, .activating),
         (.activating, .sleeping), (.sleeping, .reset)])
      ∧ (t.state ≠ s.state → (s.state = .uninit ∨ s.state = .sleeping) →
          ∃ rest, s.turns = .host 0b1000#4 0x00000004#32 :: rest)

/-- 10_state.md R22: within a refresh the entry index stays or advances by exactly 1; it is 20 when the refresh ends;
without a refresh it stays until an accepted REFRESH sets it to 0. That an access is the head of `turns` is the
model's form (DESIGN CHOICE, log entry 3). -/
def Obligations.EntryIndexAdvances : Prop :=
  ∀ s t : State, step s = .next t →
    (s.run = true → t.pc = s.pc ∨ t.pc.val = s.pc.val + 1)
      ∧ (s.run = true → t.run = false → t.pc = 20)
      ∧ (s.run = false → t.run = false → t.pc = s.pc)
      ∧ (s.run = false → t.run = true → t.pc = 0 ∧ t.state = .reset
          ∧ ∃ rest, s.turns = .host 0b1000#4 0x00000004#32 :: rest)

/-- 42_refresh_sequencer.md R93: RUN is 0 exactly when STATE is UNINIT or SLEEPING, in every state of the invariant. -/
def Obligations.RunAndStateAgree : Prop :=
  ∀ s : State, EngineInv s → (s.run = false ↔ s.state = .uninit ∨ s.state = .sleeping)

/-! ### The reference display controller -/

/-- 60_exceptions.md R129, for payloads as 41_spi_protocol.md R74 to R80 ask for, which place the planes and select
dual-plane operation: a refresh whose three busy-waits complete leaves each pixel of the panel in the colour of the
planes, whatever state the panel was in; 70_reset_and_hazards.md R140: with a payload that does not select dual-plane
operation, RED renders as WHITE. That the twelve opcodes differ is a premise of the model's own, which no rule asks for
(00_scope.md R6 allows any values): it leaves out equal opcodes (log entries 24 and 27). The wrap of the counters, the
sleeping panel, the end of a unit's data and what the hardware reset ends are the model's (PRESUMED GK4 and DEDUCED, log
entry 16), and so is that the reading of the payloads is an argument (log entry 28). -/
def Obligations.PanelShowsThePlanes : Prop :=
  ∀ (r : PanelReading) (c : Cfg) (m : Memory) (j1 j2 j3 : Nat) (q : Panel) (k : Nat),
    c.cmds.distinct = true → r.placesPlanes c.cmds = true → PlaneInv m → k < 120000 →
    (panelAfter r c.cmds (refreshTrace c m (.completes j1) (.completes j2) (.completes j3)) q).image[k]?
      = if r.selectsDual c.cmds.plDuc.bytes then
          colourOfPair (laneOf (m.get (byteOf k)) k) (laneOf (m.get (15000 + byteOf k)) k)
        else some (if laneOf (m.get (byteOf k)) k then .white else .black)

/-- 70_reset_and_hazards.md R140: payloads that do not place the planes misplace the image. With counters set elsewhere than
to the first byte, each byte of the planes shows as many bytes further on, around the end of the RAM; with a window that is
not the whole RAM, the bytes of both RAMs outside it keep what they held. How far the spec goes is that the image is
misplaced; the wrap is PRESUMED (GK4, log entry 16) and the window's part in it DEDUCED (log entry 28). That the opcodes differ is a premise of
the model's own, which leaves out equal opcodes (log entries 24 and 27). -/
def Obligations.PayloadsMisplaceTheImage : Prop :=
  (∀ (r : PanelReading) (c : Cfg) (m : Memory) (j1 j2 j3 : Nat) (q : Panel) (k i : Nat),
      c.cmds.distinct = true → r.coversRam c.cmds = true →
      r.xCount c.cmds.plXcnt.bytes < 50 → r.yCount c.cmds.plYcnt.bytes < 300 → PlaneInv m → k < 120000 → i < 15000 →
      byteOf k = (i + r.yCount c.cmds.plYcnt.bytes * 50 + r.xCount c.cmds.plXcnt.bytes) % 15000 →
      (panelAfter r c.cmds (refreshTrace c m (.completes j1) (.completes j2) (.completes j3)) q).image[k]?
        = if r.selectsDual c.cmds.plDuc.bytes then colourOfPair (laneOf (m.get i) k) (laneOf (m.get (15000 + i)) k)
          else some (if laneOf (m.get i) k then .white else .black))
    ∧ (∀ (r : PanelReading) (c : Cfg) (m : Memory) (j1 j2 j3 : Nat) (q : Panel) (a : Nat),
      c.cmds.distinct = true → r.increments c.cmds.plDem.bytes = true →
      inWindow (r.xWindow c.cmds.plXwin.bytes) (r.yWindow c.cmds.plYwin.bytes)
        (r.xCount c.cmds.plXcnt.bytes) (r.yCount c.cmds.plYcnt.bytes) = true →
      inWindow (r.xWindow c.cmds.plXwin.bytes) (r.yWindow c.cmds.plYwin.bytes) (a % 50) (a / 50) = false →
      (panelAfter r c.cmds (refreshTrace c m (.completes j1) (.completes j2) (.completes j3)) q).rb[a]? = q.rb[a]?
        ∧ (panelAfter r c.cmds (refreshTrace c m (.completes j1) (.completes j2) (.completes j3)) q).rr[a]? = q.rr[a]?)
end

