-- ==== Sys2Proof/Laws/State.lean ====
section
/-! SUPPORT. The small lemmas of the state updates: what each named operation leaves in each field. -/

namespace Sys2Proof.Machine

variable (s : State)

/-! ### `note` -/

@[simp] theorem note_argX (e : LinkEvent) : (note e s).argX = s.argX := rfl
@[simp] theorem note_argY (e : LinkEvent) : (note e s).argY = s.argY := rfl
@[simp] theorem note_result (e : LinkEvent) : (note e s).result = s.result := rfl
@[simp] theorem note_mem (e : LinkEvent) : (note e s).mem = s.mem := rfl
@[simp] theorem note_state (e : LinkEvent) : (note e s).state = s.state := rfl
@[simp] theorem note_run (e : LinkEvent) : (note e s).run = s.run := rfl
@[simp] theorem note_pc (e : LinkEvent) : (note e s).pc = s.pc := rfl
@[simp] theorem note_sub (e : LinkEvent) : (note e s).sub = s.sub := rfl
@[simp] theorem note_bw (e : LinkEvent) : (note e s).bw = s.bw := rfl
@[simp] theorem note_wait (e : LinkEvent) : (note e s).wait = s.wait := rfl
@[simp] theorem note_toHwrst (e : LinkEvent) : (note e s).toHwrst = s.toHwrst := rfl
@[simp] theorem note_toSwrst (e : LinkEvent) : (note e s).toSwrst = s.toSwrst := rfl
@[simp] theorem note_toAct (e : LinkEvent) : (note e s).toAct = s.toAct := rfl
@[simp] theorem note_rejected (e : LinkEvent) : (note e s).rejected = s.rejected := rfl
@[simp] theorem note_illegal (e : LinkEvent) : (note e s).illegal = s.illegal := rfl
@[simp] theorem note_csN (e : LinkEvent) : (note e s).csN = s.csN := rfl
@[simp] theorem note_dc (e : LinkEvent) : (note e s).dc = s.dc := rfl
@[simp] theorem note_rstN (e : LinkEvent) : (note e s).rstN = s.rstN := rfl
@[simp] theorem note_sclk (e : LinkEvent) : (note e s).sclk = s.sclk := rfl
@[simp] theorem note_din (e : LinkEvent) : (note e s).din = s.din := rfl
@[simp] theorem note_cfg (e : LinkEvent) : (note e s).cfg = s.cfg := rfl
@[simp] theorem note_trace (e : LinkEvent) : (note e s).trace = e :: s.trace := rfl
@[simp] theorem note_readData (e : LinkEvent) : (note e s).readData = s.readData := rfl
@[simp] theorem note_turns (e : LinkEvent) : (note e s).turns = s.turns := rfl
@[simp] theorem note_busyIn (e : LinkEvent) : (note e s).busyIn = s.busyIn := rfl
@[simp] theorem note_draws (e : LinkEvent) : (note e s).draws = s.draws := rfl

/-! ### `respond` -/

@[simp] theorem respond_argX (v : Word) : (respond v s).argX = s.argX := rfl
@[simp] theorem respond_argY (v : Word) : (respond v s).argY = s.argY := rfl
@[simp] theorem respond_result (v : Word) : (respond v s).result = s.result := rfl
@[simp] theorem respond_mem (v : Word) : (respond v s).mem = s.mem := rfl
@[simp] theorem respond_state (v : Word) : (respond v s).state = s.state := rfl
@[simp] theorem respond_run (v : Word) : (respond v s).run = s.run := rfl
@[simp] theorem respond_pc (v : Word) : (respond v s).pc = s.pc := rfl
@[simp] theorem respond_sub (v : Word) : (respond v s).sub = s.sub := rfl
@[simp] theorem respond_bw (v : Word) : (respond v s).bw = s.bw := rfl
@[simp] theorem respond_wait (v : Word) : (respond v s).wait = s.wait := rfl
@[simp] theorem respond_toHwrst (v : Word) : (respond v s).toHwrst = s.toHwrst := rfl
@[simp] theorem respond_toSwrst (v : Word) : (respond v s).toSwrst = s.toSwrst := rfl
@[simp] theorem respond_toAct (v : Word) : (respond v s).toAct = s.toAct := rfl
@[simp] theorem respond_rejected (v : Word) : (respond v s).rejected = s.rejected := rfl
@[simp] theorem respond_illegal (v : Word) : (respond v s).illegal = s.illegal := rfl
@[simp] theorem respond_csN (v : Word) : (respond v s).csN = s.csN := rfl
@[simp] theorem respond_dc (v : Word) : (respond v s).dc = s.dc := rfl
@[simp] theorem respond_rstN (v : Word) : (respond v s).rstN = s.rstN := rfl
@[simp] theorem respond_sclk (v : Word) : (respond v s).sclk = s.sclk := rfl
@[simp] theorem respond_din (v : Word) : (respond v s).din = s.din := rfl
@[simp] theorem respond_cfg (v : Word) : (respond v s).cfg = s.cfg := rfl
@[simp] theorem respond_trace (v : Word) : (respond v s).trace = s.trace := rfl
@[simp] theorem respond_readData (v : Word) : (respond v s).readData = v := rfl
@[simp] theorem respond_turns (v : Word) : (respond v s).turns = s.turns := rfl
@[simp] theorem respond_busyIn (v : Word) : (respond v s).busyIn = s.busyIn := rfl
@[simp] theorem respond_draws (v : Word) : (respond v s).draws = s.draws := rfl

/-! ### `setFlag` -/

@[simp] theorem setFlag_argX (f : StickyFlag) : (setFlag f s).argX = s.argX := by cases f <;> simp [setFlag]
@[simp] theorem setFlag_argY (f : StickyFlag) : (setFlag f s).argY = s.argY := by cases f <;> simp [setFlag]
@[simp] theorem setFlag_result (f : StickyFlag) : (setFlag f s).result = s.result := by cases f <;> simp [setFlag]
@[simp] theorem setFlag_mem (f : StickyFlag) : (setFlag f s).mem = s.mem := by cases f <;> simp [setFlag]
@[simp] theorem setFlag_state (f : StickyFlag) : (setFlag f s).state = s.state := by cases f <;> simp [setFlag]
@[simp] theorem setFlag_run (f : StickyFlag) : (setFlag f s).run = s.run := by cases f <;> simp [setFlag]
@[simp] theorem setFlag_pc (f : StickyFlag) : (setFlag f s).pc = s.pc := by cases f <;> simp [setFlag]
@[simp] theorem setFlag_sub (f : StickyFlag) : (setFlag f s).sub = s.sub := by cases f <;> simp [setFlag]
@[simp] theorem setFlag_bw (f : StickyFlag) : (setFlag f s).bw = s.bw := by cases f <;> simp [setFlag]
@[simp] theorem setFlag_wait (f : StickyFlag) : (setFlag f s).wait = s.wait := by cases f <;> simp [setFlag]
@[simp] theorem setFlag_toHwrst (f : StickyFlag) : (setFlag f s).toHwrst = s.toHwrst := by cases f <;> simp [setFlag]
@[simp] theorem setFlag_toSwrst (f : StickyFlag) : (setFlag f s).toSwrst = s.toSwrst := by cases f <;> simp [setFlag]
@[simp] theorem setFlag_toAct (f : StickyFlag) : (setFlag f s).toAct = s.toAct := by cases f <;> simp [setFlag]
@[simp] theorem setFlag_rejected (f : StickyFlag) : (setFlag f s).rejected = (s.rejected || decide (f = .rejected)) := by cases f <;> simp [setFlag]
@[simp] theorem setFlag_illegal (f : StickyFlag) : (setFlag f s).illegal = (s.illegal || decide (f = .illegal)) := by cases f <;> simp [setFlag]
@[simp] theorem setFlag_csN (f : StickyFlag) : (setFlag f s).csN = s.csN := by cases f <;> simp [setFlag]
@[simp] theorem setFlag_dc (f : StickyFlag) : (setFlag f s).dc = s.dc := by cases f <;> simp [setFlag]
@[simp] theorem setFlag_rstN (f : StickyFlag) : (setFlag f s).rstN = s.rstN := by cases f <;> simp [setFlag]
@[simp] theorem setFlag_sclk (f : StickyFlag) : (setFlag f s).sclk = s.sclk := by cases f <;> simp [setFlag]
@[simp] theorem setFlag_din (f : StickyFlag) : (setFlag f s).din = s.din := by cases f <;> simp [setFlag]
@[simp] theorem setFlag_cfg (f : StickyFlag) : (setFlag f s).cfg = s.cfg := by cases f <;> simp [setFlag]
@[simp] theorem setFlag_trace (f : StickyFlag) : (setFlag f s).trace = s.trace := by cases f <;> simp [setFlag]
@[simp] theorem setFlag_readData (f : StickyFlag) : (setFlag f s).readData = s.readData := by cases f <;> simp [setFlag]
@[simp] theorem setFlag_turns (f : StickyFlag) : (setFlag f s).turns = s.turns := by cases f <;> simp [setFlag]
@[simp] theorem setFlag_busyIn (f : StickyFlag) : (setFlag f s).busyIn = s.busyIn := by cases f <;> simp [setFlag]
@[simp] theorem setFlag_draws (f : StickyFlag) : (setFlag f s).draws = s.draws := by cases f <;> simp [setFlag]

/-! ### `setTimeout` -/

@[simp] theorem setTimeout_argX (k : WaitKind) : (setTimeout k s).argX = s.argX := by cases k <;> simp [setTimeout]
@[simp] theorem setTimeout_argY (k : WaitKind) : (setTimeout k s).argY = s.argY := by cases k <;> simp [setTimeout]
@[simp] theorem setTimeout_result (k : WaitKind) : (setTimeout k s).result = s.result := by cases k <;> simp [setTimeout]
@[simp] theorem setTimeout_mem (k : WaitKind) : (setTimeout k s).mem = s.mem := by cases k <;> simp [setTimeout]
@[simp] theorem setTimeout_state (k : WaitKind) : (setTimeout k s).state = s.state := by cases k <;> simp [setTimeout]
@[simp] theorem setTimeout_run (k : WaitKind) : (setTimeout k s).run = s.run := by cases k <;> simp [setTimeout]
@[simp] theorem setTimeout_pc (k : WaitKind) : (setTimeout k s).pc = s.pc := by cases k <;> simp [setTimeout]
@[simp] theorem setTimeout_sub (k : WaitKind) : (setTimeout k s).sub = s.sub := by cases k <;> simp [setTimeout]
@[simp] theorem setTimeout_bw (k : WaitKind) : (setTimeout k s).bw = s.bw := by cases k <;> simp [setTimeout]
@[simp] theorem setTimeout_wait (k : WaitKind) : (setTimeout k s).wait = s.wait := by cases k <;> simp [setTimeout]
@[simp] theorem setTimeout_toHwrst (k : WaitKind) : (setTimeout k s).toHwrst = (s.toHwrst || decide (k = .hwrst)) := by cases k <;> simp [setTimeout]
@[simp] theorem setTimeout_toSwrst (k : WaitKind) : (setTimeout k s).toSwrst = (s.toSwrst || decide (k = .swrst)) := by cases k <;> simp [setTimeout]
@[simp] theorem setTimeout_toAct (k : WaitKind) : (setTimeout k s).toAct = (s.toAct || decide (k = .act)) := by cases k <;> simp [setTimeout]
@[simp] theorem setTimeout_rejected (k : WaitKind) : (setTimeout k s).rejected = s.rejected := by cases k <;> simp [setTimeout]
@[simp] theorem setTimeout_illegal (k : WaitKind) : (setTimeout k s).illegal = s.illegal := by cases k <;> simp [setTimeout]
@[simp] theorem setTimeout_csN (k : WaitKind) : (setTimeout k s).csN = s.csN := by cases k <;> simp [setTimeout]
@[simp] theorem setTimeout_dc (k : WaitKind) : (setTimeout k s).dc = s.dc := by cases k <;> simp [setTimeout]
@[simp] theorem setTimeout_rstN (k : WaitKind) : (setTimeout k s).rstN = s.rstN := by cases k <;> simp [setTimeout]
@[simp] theorem setTimeout_sclk (k : WaitKind) : (setTimeout k s).sclk = s.sclk := by cases k <;> simp [setTimeout]
@[simp] theorem setTimeout_din (k : WaitKind) : (setTimeout k s).din = s.din := by cases k <;> simp [setTimeout]
@[simp] theorem setTimeout_cfg (k : WaitKind) : (setTimeout k s).cfg = s.cfg := by cases k <;> simp [setTimeout]
@[simp] theorem setTimeout_trace (k : WaitKind) : (setTimeout k s).trace = s.trace := by cases k <;> simp [setTimeout]
@[simp] theorem setTimeout_readData (k : WaitKind) : (setTimeout k s).readData = s.readData := by cases k <;> simp [setTimeout]
@[simp] theorem setTimeout_turns (k : WaitKind) : (setTimeout k s).turns = s.turns := by cases k <;> simp [setTimeout]
@[simp] theorem setTimeout_busyIn (k : WaitKind) : (setTimeout k s).busyIn = s.busyIn := by cases k <;> simp [setTimeout]
@[simp] theorem setTimeout_draws (k : WaitKind) : (setTimeout k s).draws = s.draws := by cases k <;> simp [setTimeout]

/-! ### `clearTimeouts` -/

@[simp] theorem clearTimeouts_argX : (clearTimeouts s).argX = s.argX := rfl
@[simp] theorem clearTimeouts_argY : (clearTimeouts s).argY = s.argY := rfl
@[simp] theorem clearTimeouts_result : (clearTimeouts s).result = s.result := rfl
@[simp] theorem clearTimeouts_mem : (clearTimeouts s).mem = s.mem := rfl
@[simp] theorem clearTimeouts_state : (clearTimeouts s).state = s.state := rfl
@[simp] theorem clearTimeouts_run : (clearTimeouts s).run = s.run := rfl
@[simp] theorem clearTimeouts_pc : (clearTimeouts s).pc = s.pc := rfl
@[simp] theorem clearTimeouts_sub : (clearTimeouts s).sub = s.sub := rfl
@[simp] theorem clearTimeouts_bw : (clearTimeouts s).bw = s.bw := rfl
@[simp] theorem clearTimeouts_wait : (clearTimeouts s).wait = s.wait := rfl
@[simp] theorem clearTimeouts_toHwrst : (clearTimeouts s).toHwrst = false := rfl
@[simp] theorem clearTimeouts_toSwrst : (clearTimeouts s).toSwrst = false := rfl
@[simp] theorem clearTimeouts_toAct : (clearTimeouts s).toAct = false := rfl
@[simp] theorem clearTimeouts_rejected : (clearTimeouts s).rejected = s.rejected := rfl
@[simp] theorem clearTimeouts_illegal : (clearTimeouts s).illegal = s.illegal := rfl
@[simp] theorem clearTimeouts_csN : (clearTimeouts s).csN = s.csN := rfl
@[simp] theorem clearTimeouts_dc : (clearTimeouts s).dc = s.dc := rfl
@[simp] theorem clearTimeouts_rstN : (clearTimeouts s).rstN = s.rstN := rfl
@[simp] theorem clearTimeouts_sclk : (clearTimeouts s).sclk = s.sclk := rfl
@[simp] theorem clearTimeouts_din : (clearTimeouts s).din = s.din := rfl
@[simp] theorem clearTimeouts_cfg : (clearTimeouts s).cfg = s.cfg := rfl
@[simp] theorem clearTimeouts_trace : (clearTimeouts s).trace = s.trace := rfl
@[simp] theorem clearTimeouts_readData : (clearTimeouts s).readData = s.readData := rfl
@[simp] theorem clearTimeouts_turns : (clearTimeouts s).turns = s.turns := rfl
@[simp] theorem clearTimeouts_busyIn : (clearTimeouts s).busyIn = s.busyIn := rfl
@[simp] theorem clearTimeouts_draws : (clearTimeouts s).draws = s.draws := rfl

/-! ### `clearSticky` -/

@[simp] theorem clearSticky_argX (v : Word) : (clearSticky v s).argX = s.argX := rfl
@[simp] theorem clearSticky_argY (v : Word) : (clearSticky v s).argY = s.argY := rfl
@[simp] theorem clearSticky_result (v : Word) : (clearSticky v s).result = s.result := rfl
@[simp] theorem clearSticky_mem (v : Word) : (clearSticky v s).mem = s.mem := rfl
@[simp] theorem clearSticky_state (v : Word) : (clearSticky v s).state = s.state := rfl
@[simp] theorem clearSticky_run (v : Word) : (clearSticky v s).run = s.run := rfl
@[simp] theorem clearSticky_pc (v : Word) : (clearSticky v s).pc = s.pc := rfl
@[simp] theorem clearSticky_sub (v : Word) : (clearSticky v s).sub = s.sub := rfl
@[simp] theorem clearSticky_bw (v : Word) : (clearSticky v s).bw = s.bw := rfl
@[simp] theorem clearSticky_wait (v : Word) : (clearSticky v s).wait = s.wait := rfl
@[simp] theorem clearSticky_toHwrst (v : Word) : (clearSticky v s).toHwrst = s.toHwrst := rfl
@[simp] theorem clearSticky_toSwrst (v : Word) : (clearSticky v s).toSwrst = s.toSwrst := rfl
@[simp] theorem clearSticky_toAct (v : Word) : (clearSticky v s).toAct = s.toAct := rfl
@[simp] theorem clearSticky_rejected (v : Word) : (clearSticky v s).rejected = (s.rejected && !v.getLsbD 8) := rfl
@[simp] theorem clearSticky_illegal (v : Word) : (clearSticky v s).illegal = (s.illegal && !v.getLsbD 9) := rfl
@[simp] theorem clearSticky_csN (v : Word) : (clearSticky v s).csN = s.csN := rfl
@[simp] theorem clearSticky_dc (v : Word) : (clearSticky v s).dc = s.dc := rfl
@[simp] theorem clearSticky_rstN (v : Word) : (clearSticky v s).rstN = s.rstN := rfl
@[simp] theorem clearSticky_sclk (v : Word) : (clearSticky v s).sclk = s.sclk := rfl
@[simp] theorem clearSticky_din (v : Word) : (clearSticky v s).din = s.din := rfl
@[simp] theorem clearSticky_cfg (v : Word) : (clearSticky v s).cfg = s.cfg := rfl
@[simp] theorem clearSticky_trace (v : Word) : (clearSticky v s).trace = s.trace := rfl
@[simp] theorem clearSticky_readData (v : Word) : (clearSticky v s).readData = s.readData := rfl
@[simp] theorem clearSticky_turns (v : Word) : (clearSticky v s).turns = s.turns := rfl
@[simp] theorem clearSticky_busyIn (v : Word) : (clearSticky v s).busyIn = s.busyIn := rfl
@[simp] theorem clearSticky_draws (v : Word) : (clearSticky v s).draws = s.draws := rfl

/-! ### `drive` -/

@[simp] theorem drive_argX (p : Pin) (v : Level) : (drive p v s).argX = s.argX := by cases p <;> rfl
@[simp] theorem drive_argY (p : Pin) (v : Level) : (drive p v s).argY = s.argY := by cases p <;> rfl
@[simp] theorem drive_result (p : Pin) (v : Level) : (drive p v s).result = s.result := by cases p <;> rfl
@[simp] theorem drive_mem (p : Pin) (v : Level) : (drive p v s).mem = s.mem := by cases p <;> rfl
@[simp] theorem drive_state (p : Pin) (v : Level) : (drive p v s).state = s.state := by cases p <;> rfl
@[simp] theorem drive_run (p : Pin) (v : Level) : (drive p v s).run = s.run := by cases p <;> rfl
@[simp] theorem drive_pc (p : Pin) (v : Level) : (drive p v s).pc = s.pc := by cases p <;> rfl
@[simp] theorem drive_sub (p : Pin) (v : Level) : (drive p v s).sub = s.sub := by cases p <;> rfl
@[simp] theorem drive_bw (p : Pin) (v : Level) : (drive p v s).bw = s.bw := by cases p <;> rfl
@[simp] theorem drive_wait (p : Pin) (v : Level) : (drive p v s).wait = s.wait := by cases p <;> rfl
@[simp] theorem drive_toHwrst (p : Pin) (v : Level) : (drive p v s).toHwrst = s.toHwrst := by cases p <;> rfl
@[simp] theorem drive_toSwrst (p : Pin) (v : Level) : (drive p v s).toSwrst = s.toSwrst := by cases p <;> rfl
@[simp] theorem drive_toAct (p : Pin) (v : Level) : (drive p v s).toAct = s.toAct := by cases p <;> rfl
@[simp] theorem drive_rejected (p : Pin) (v : Level) : (drive p v s).rejected = s.rejected := by cases p <;> rfl
@[simp] theorem drive_illegal (p : Pin) (v : Level) : (drive p v s).illegal = s.illegal := by cases p <;> rfl
@[simp] theorem drive_csN (p : Pin) (v : Level) : (drive p v s).csN = (if p = .csN then v else s.csN) := by cases p <;> rfl
@[simp] theorem drive_dc (p : Pin) (v : Level) : (drive p v s).dc = (if p = .dc then v else s.dc) := by cases p <;> rfl
@[simp] theorem drive_rstN (p : Pin) (v : Level) : (drive p v s).rstN = (if p = .rstN then v else s.rstN) := by cases p <;> rfl
@[simp] theorem drive_sclk (p : Pin) (v : Level) : (drive p v s).sclk = (if p = .sclk then v else s.sclk) := by cases p <;> rfl
@[simp] theorem drive_din (p : Pin) (v : Level) : (drive p v s).din = (if p = .din then v else s.din) := by cases p <;> rfl
@[simp] theorem drive_cfg (p : Pin) (v : Level) : (drive p v s).cfg = s.cfg := by cases p <;> rfl
@[simp] theorem drive_trace (p : Pin) (v : Level) : (drive p v s).trace = s.trace := by cases p <;> rfl
@[simp] theorem drive_readData (p : Pin) (v : Level) : (drive p v s).readData = s.readData := by cases p <;> rfl
@[simp] theorem drive_turns (p : Pin) (v : Level) : (drive p v s).turns = s.turns := by cases p <;> rfl
@[simp] theorem drive_busyIn (p : Pin) (v : Level) : (drive p v s).busyIn = s.busyIn := by cases p <;> rfl
@[simp] theorem drive_draws (p : Pin) (v : Level) : (drive p v s).draws = s.draws := by cases p <;> rfl

/-- Everything one SPI frame does (41_spi_protocol.md R68). -/
theorem emit_eq (d : Level) (b : Byte) (more : Bool) :
    emit d b more s = { s with
      csN := !(s.cfg.batchData && d && more), dc := d, sclk := false, din := b.getLsbD 0, trace := .frame d b :: s.trace } := by
  simp only [emit, note, driveAll, frameDrives, List.flatMap_cons, List.flatMap_nil, List.foldl_append, List.foldl_cons,
    List.foldl_nil, drive]

/-! ### `emit` -/

@[simp] theorem emit_argX (d : Level) (b : Byte) (more : Bool) : (emit d b more s).argX = s.argX := by rw [emit_eq]
@[simp] theorem emit_argY (d : Level) (b : Byte) (more : Bool) : (emit d b more s).argY = s.argY := by rw [emit_eq]
@[simp] theorem emit_result (d : Level) (b : Byte) (more : Bool) : (emit d b more s).result = s.result := by rw [emit_eq]
@[simp] theorem emit_mem (d : Level) (b : Byte) (more : Bool) : (emit d b more s).mem = s.mem := by rw [emit_eq]
@[simp] theorem emit_state (d : Level) (b : Byte) (more : Bool) : (emit d b more s).state = s.state := by rw [emit_eq]
@[simp] theorem emit_run (d : Level) (b : Byte) (more : Bool) : (emit d b more s).run = s.run := by rw [emit_eq]
@[simp] theorem emit_pc (d : Level) (b : Byte) (more : Bool) : (emit d b more s).pc = s.pc := by rw [emit_eq]
@[simp] theorem emit_sub (d : Level) (b : Byte) (more : Bool) : (emit d b more s).sub = s.sub := by rw [emit_eq]
@[simp] theorem emit_bw (d : Level) (b : Byte) (more : Bool) : (emit d b more s).bw = s.bw := by rw [emit_eq]
@[simp] theorem emit_wait (d : Level) (b : Byte) (more : Bool) : (emit d b more s).wait = s.wait := by rw [emit_eq]
@[simp] theorem emit_toHwrst (d : Level) (b : Byte) (more : Bool) : (emit d b more s).toHwrst = s.toHwrst := by rw [emit_eq]
@[simp] theorem emit_toSwrst (d : Level) (b : Byte) (more : Bool) : (emit d b more s).toSwrst = s.toSwrst := by rw [emit_eq]
@[simp] theorem emit_toAct (d : Level) (b : Byte) (more : Bool) : (emit d b more s).toAct = s.toAct := by rw [emit_eq]
@[simp] theorem emit_rejected (d : Level) (b : Byte) (more : Bool) : (emit d b more s).rejected = s.rejected := by rw [emit_eq]
@[simp] theorem emit_illegal (d : Level) (b : Byte) (more : Bool) : (emit d b more s).illegal = s.illegal := by rw [emit_eq]
@[simp] theorem emit_csN (d : Level) (b : Byte) (more : Bool) : (emit d b more s).csN = (!(s.cfg.batchData && d && more)) := by rw [emit_eq]
@[simp] theorem emit_dc (d : Level) (b : Byte) (more : Bool) : (emit d b more s).dc = d := by rw [emit_eq]
@[simp] theorem emit_rstN (d : Level) (b : Byte) (more : Bool) : (emit d b more s).rstN = s.rstN := by rw [emit_eq]
@[simp] theorem emit_sclk (d : Level) (b : Byte) (more : Bool) : (emit d b more s).sclk = false := by rw [emit_eq]
@[simp] theorem emit_din (d : Level) (b : Byte) (more : Bool) : (emit d b more s).din = b.getLsbD 0 := by rw [emit_eq]
@[simp] theorem emit_cfg (d : Level) (b : Byte) (more : Bool) : (emit d b more s).cfg = s.cfg := by rw [emit_eq]
@[simp] theorem emit_trace (d : Level) (b : Byte) (more : Bool) : (emit d b more s).trace = .frame d b :: s.trace := by rw [emit_eq]
@[simp] theorem emit_readData (d : Level) (b : Byte) (more : Bool) : (emit d b more s).readData = s.readData := by rw [emit_eq]
@[simp] theorem emit_turns (d : Level) (b : Byte) (more : Bool) : (emit d b more s).turns = s.turns := by rw [emit_eq]
@[simp] theorem emit_busyIn (d : Level) (b : Byte) (more : Bool) : (emit d b more s).busyIn = s.busyIn := by rw [emit_eq]
@[simp] theorem emit_draws (d : Level) (b : Byte) (more : Bool) : (emit d b more s).draws = s.draws := by rw [emit_eq]

/-! ### `sampleBusy` -/

@[simp] theorem sampleBusy_argX : ((sampleBusy s).2).argX = s.argX := by unfold sampleBusy; split <;> simp_all
@[simp] theorem sampleBusy_argY : ((sampleBusy s).2).argY = s.argY := by unfold sampleBusy; split <;> simp_all
@[simp] theorem sampleBusy_result : ((sampleBusy s).2).result = s.result := by unfold sampleBusy; split <;> simp_all
@[simp] theorem sampleBusy_mem : ((sampleBusy s).2).mem = s.mem := by unfold sampleBusy; split <;> simp_all
@[simp] theorem sampleBusy_state : ((sampleBusy s).2).state = s.state := by unfold sampleBusy; split <;> simp_all
@[simp] theorem sampleBusy_run : ((sampleBusy s).2).run = s.run := by unfold sampleBusy; split <;> simp_all
@[simp] theorem sampleBusy_pc : ((sampleBusy s).2).pc = s.pc := by unfold sampleBusy; split <;> simp_all
@[simp] theorem sampleBusy_sub : ((sampleBusy s).2).sub = s.sub := by unfold sampleBusy; split <;> simp_all
@[simp] theorem sampleBusy_bw : ((sampleBusy s).2).bw = s.bw := by unfold sampleBusy; split <;> simp_all
@[simp] theorem sampleBusy_wait : ((sampleBusy s).2).wait = s.wait := by unfold sampleBusy; split <;> simp_all
@[simp] theorem sampleBusy_toHwrst : ((sampleBusy s).2).toHwrst = s.toHwrst := by unfold sampleBusy; split <;> simp_all
@[simp] theorem sampleBusy_toSwrst : ((sampleBusy s).2).toSwrst = s.toSwrst := by unfold sampleBusy; split <;> simp_all
@[simp] theorem sampleBusy_toAct : ((sampleBusy s).2).toAct = s.toAct := by unfold sampleBusy; split <;> simp_all
@[simp] theorem sampleBusy_rejected : ((sampleBusy s).2).rejected = s.rejected := by unfold sampleBusy; split <;> simp_all
@[simp] theorem sampleBusy_illegal : ((sampleBusy s).2).illegal = s.illegal := by unfold sampleBusy; split <;> simp_all
@[simp] theorem sampleBusy_csN : ((sampleBusy s).2).csN = s.csN := by unfold sampleBusy; split <;> simp_all
@[simp] theorem sampleBusy_dc : ((sampleBusy s).2).dc = s.dc := by unfold sampleBusy; split <;> simp_all
@[simp] theorem sampleBusy_rstN : ((sampleBusy s).2).rstN = s.rstN := by unfold sampleBusy; split <;> simp_all
@[simp] theorem sampleBusy_sclk : ((sampleBusy s).2).sclk = s.sclk := by unfold sampleBusy; split <;> simp_all
@[simp] theorem sampleBusy_din : ((sampleBusy s).2).din = s.din := by unfold sampleBusy; split <;> simp_all
@[simp] theorem sampleBusy_cfg : ((sampleBusy s).2).cfg = s.cfg := by unfold sampleBusy; split <;> simp_all
@[simp] theorem sampleBusy_trace : ((sampleBusy s).2).trace = s.trace := by unfold sampleBusy; split <;> simp_all
@[simp] theorem sampleBusy_readData : ((sampleBusy s).2).readData = s.readData := by unfold sampleBusy; split <;> simp_all
@[simp] theorem sampleBusy_turns : ((sampleBusy s).2).turns = s.turns := by unfold sampleBusy; split <;> simp_all
@[simp] theorem sampleBusy_busyIn : ((sampleBusy s).2).busyIn = s.busyIn.tail := by unfold sampleBusy; split <;> simp_all

/-! ### `enter` -/

@[simp] theorem enter_argX (e : Fin 21) : (enter e s).argX = s.argX := rfl
@[simp] theorem enter_argY (e : Fin 21) : (enter e s).argY = s.argY := rfl
@[simp] theorem enter_result (e : Fin 21) : (enter e s).result = s.result := rfl
@[simp] theorem enter_mem (e : Fin 21) : (enter e s).mem = s.mem := rfl
@[simp] theorem enter_state (e : Fin 21) : (enter e s).state = entryState e := rfl
@[simp] theorem enter_run (e : Fin 21) : (enter e s).run = (if entryOf e = .fin then false else s.run) := rfl
@[simp] theorem enter_pc (e : Fin 21) : (enter e s).pc = e := rfl
@[simp] theorem enter_sub (e : Fin 21) : (enter e s).sub = 0 := rfl
@[simp] theorem enter_bw (e : Fin 21) : (enter e s).bw = (if 0 < s.cfg.tBusySettle then .settle else .sample) := rfl
@[simp] theorem enter_wait (e : Fin 21) : (enter e s).wait = 0 := rfl
@[simp] theorem enter_toHwrst (e : Fin 21) : (enter e s).toHwrst = s.toHwrst := rfl
@[simp] theorem enter_toSwrst (e : Fin 21) : (enter e s).toSwrst = s.toSwrst := rfl
@[simp] theorem enter_toAct (e : Fin 21) : (enter e s).toAct = s.toAct := rfl
@[simp] theorem enter_rejected (e : Fin 21) : (enter e s).rejected = s.rejected := rfl
@[simp] theorem enter_illegal (e : Fin 21) : (enter e s).illegal = s.illegal := rfl
@[simp] theorem enter_csN (e : Fin 21) : (enter e s).csN = s.csN := rfl
@[simp] theorem enter_dc (e : Fin 21) : (enter e s).dc = s.dc := rfl
@[simp] theorem enter_rstN (e : Fin 21) : (enter e s).rstN = s.rstN := rfl
@[simp] theorem enter_sclk (e : Fin 21) : (enter e s).sclk = s.sclk := rfl
@[simp] theorem enter_din (e : Fin 21) : (enter e s).din = s.din := rfl
@[simp] theorem enter_cfg (e : Fin 21) : (enter e s).cfg = s.cfg := rfl
@[simp] theorem enter_trace (e : Fin 21) : (enter e s).trace = s.trace := rfl
@[simp] theorem enter_readData (e : Fin 21) : (enter e s).readData = s.readData := rfl
@[simp] theorem enter_turns (e : Fin 21) : (enter e s).turns = s.turns := rfl
@[simp] theorem enter_busyIn (e : Fin 21) : (enter e s).busyIn = s.busyIn := rfl
@[simp] theorem enter_draws (e : Fin 21) : (enter e s).draws = s.draws := rfl

/-! ### `complete` -/

@[simp] theorem complete_argX : (complete s).argX = s.argX := rfl
@[simp] theorem complete_argY : (complete s).argY = s.argY := rfl
@[simp] theorem complete_result : (complete s).result = s.result := rfl
@[simp] theorem complete_mem : (complete s).mem = s.mem := rfl
@[simp] theorem complete_state : (complete s).state = entryState (nextEntry s.pc) := rfl
@[simp] theorem complete_run : (complete s).run = (if entryOf (nextEntry s.pc) = .fin then false else s.run) := rfl
@[simp] theorem complete_pc : (complete s).pc = nextEntry s.pc := rfl
@[simp] theorem complete_sub : (complete s).sub = 0 := rfl
@[simp] theorem complete_bw : (complete s).bw = (if 0 < s.cfg.tBusySettle then .settle else .sample) := rfl
@[simp] theorem complete_wait : (complete s).wait = 0 := rfl
@[simp] theorem complete_toHwrst : (complete s).toHwrst = s.toHwrst := rfl
@[simp] theorem complete_toSwrst : (complete s).toSwrst = s.toSwrst := rfl
@[simp] theorem complete_toAct : (complete s).toAct = s.toAct := rfl
@[simp] theorem complete_rejected : (complete s).rejected = s.rejected := rfl
@[simp] theorem complete_illegal : (complete s).illegal = s.illegal := rfl
@[simp] theorem complete_csN : (complete s).csN = s.csN := rfl
@[simp] theorem complete_dc : (complete s).dc = s.dc := rfl
@[simp] theorem complete_rstN : (complete s).rstN = s.rstN := rfl
@[simp] theorem complete_sclk : (complete s).sclk = s.sclk := rfl
@[simp] theorem complete_din : (complete s).din = s.din := rfl
@[simp] theorem complete_cfg : (complete s).cfg = s.cfg := rfl
@[simp] theorem complete_trace : (complete s).trace = s.trace := rfl
@[simp] theorem complete_readData : (complete s).readData = s.readData := rfl
@[simp] theorem complete_turns : (complete s).turns = s.turns := rfl
@[simp] theorem complete_busyIn : (complete s).busyIn = s.busyIn := rfl
@[simp] theorem complete_draws : (complete s).draws = s.draws := rfl

/-! ### `countTo` -/

@[simp] theorem countTo_argX (n : Nat) : (countTo n s).argX = s.argX := by unfold countTo; split <;> rfl
@[simp] theorem countTo_argY (n : Nat) : (countTo n s).argY = s.argY := by unfold countTo; split <;> rfl
@[simp] theorem countTo_result (n : Nat) : (countTo n s).result = s.result := by unfold countTo; split <;> rfl
@[simp] theorem countTo_mem (n : Nat) : (countTo n s).mem = s.mem := by unfold countTo; split <;> rfl
@[simp] theorem countTo_toHwrst (n : Nat) : (countTo n s).toHwrst = s.toHwrst := by unfold countTo; split <;> rfl
@[simp] theorem countTo_toSwrst (n : Nat) : (countTo n s).toSwrst = s.toSwrst := by unfold countTo; split <;> rfl
@[simp] theorem countTo_toAct (n : Nat) : (countTo n s).toAct = s.toAct := by unfold countTo; split <;> rfl
@[simp] theorem countTo_rejected (n : Nat) : (countTo n s).rejected = s.rejected := by unfold countTo; split <;> rfl
@[simp] theorem countTo_illegal (n : Nat) : (countTo n s).illegal = s.illegal := by unfold countTo; split <;> rfl
@[simp] theorem countTo_csN (n : Nat) : (countTo n s).csN = s.csN := by unfold countTo; split <;> rfl
@[simp] theorem countTo_dc (n : Nat) : (countTo n s).dc = s.dc := by unfold countTo; split <;> rfl
@[simp] theorem countTo_rstN (n : Nat) : (countTo n s).rstN = s.rstN := by unfold countTo; split <;> rfl
@[simp] theorem countTo_sclk (n : Nat) : (countTo n s).sclk = s.sclk := by unfold countTo; split <;> rfl
@[simp] theorem countTo_din (n : Nat) : (countTo n s).din = s.din := by unfold countTo; split <;> rfl
@[simp] theorem countTo_cfg (n : Nat) : (countTo n s).cfg = s.cfg := by unfold countTo; split <;> rfl
@[simp] theorem countTo_trace (n : Nat) : (countTo n s).trace = s.trace := by unfold countTo; split <;> rfl
@[simp] theorem countTo_readData (n : Nat) : (countTo n s).readData = s.readData := by unfold countTo; split <;> rfl
@[simp] theorem countTo_turns (n : Nat) : (countTo n s).turns = s.turns := by unfold countTo; split <;> rfl
@[simp] theorem countTo_busyIn (n : Nat) : (countTo n s).busyIn = s.busyIn := by unfold countTo; split <;> rfl
@[simp] theorem countTo_draws (n : Nat) : (countTo n s).draws = s.draws := by unfold countTo; split <;> rfl

end Sys2Proof.Machine
end

