-- ==== Sys2Proof/Laws/Memory.lean ====
section
/-! SUPPORT. Plane memory: reading after writing, the canonical form, and clearing. -/

namespace Sys2Proof.Machine

/-- The part of the canonical form that speaks of single cells. -/
def Memory.cellsOk (m : Memory) : Prop := ∀ c ∈ m, c.1 < planeSpace ∧ c.2 ≠ Memory.unlisted c.1

theorem Memory.wf_iff (m : Memory) : Memory.wf m = true ↔ Memory.rising 0 m = true ∧ Memory.cellsOk m := by
  simp [Memory.wf, Memory.cellsOk]

theorem Memory.cellsOk_cons (c : Host.Cell) (m : Memory) :
    Memory.cellsOk (c :: m) ↔ (c.1 < planeSpace ∧ c.2 ≠ Memory.unlisted c.1) ∧ Memory.cellsOk m := by
  simp [Memory.cellsOk]

theorem Memory.rising_cons (lo a : Nat) (v : Byte) (m : Memory) :
    Memory.rising lo ((a, v) :: m) = true ↔ lo ≤ a ∧ Memory.rising (a + 1) m = true := by
  simp [Memory.rising]

theorem Memory.rising_mono {lo lo' : Nat} {m : Memory} (h : Memory.rising lo m = true) (hlo : lo' ≤ lo) :
    Memory.rising lo' m = true := by
  cases m with
  | nil => rfl
  | cons c m => obtain ⟨a, v⟩ := c; rw [Memory.rising_cons] at *; exact ⟨by omega, h.2⟩

/-- An address below the first listed one is not listed. -/
theorem Memory.get_of_lt {lo : Nat} {m : Memory} (h : Memory.rising lo m = true) {a : Nat} (ha : a < lo) :
    m.get a = Memory.unlisted a := by
  induction m generalizing lo with
  | nil => rfl
  | cons c m ih =>
    obtain ⟨b, v⟩ := c
    rw [Memory.rising_cons] at h
    simp only [Memory.get]
    rw [if_neg (by omega)]
    exact ih h.2 (by omega)

theorem Memory.rising_cell {lo a : Nat} {v : Byte} {m : Memory} (hlo : lo ≤ a)
    (h : Memory.rising (a + 1) m = true) : Memory.rising lo (Memory.cell a v m) = true := by
  unfold Memory.cell
  split
  · exact Memory.rising_mono h (by omega)
  · rw [Memory.rising_cons]; exact ⟨hlo, h⟩

theorem Memory.get_cell {a : Nat} {v : Byte} {m : Memory} (h : Memory.rising (a + 1) m = true) (b : Nat) :
    (Memory.cell a v m).get b = if b = a then v else m.get b := by
  unfold Memory.cell
  split
  · split
    · subst_vars; exact Memory.get_of_lt h (by omega)
    · rfl
  · simp [Memory.get, eq_comm]

theorem Memory.rising_put {lo : Nat} {m : Memory} (h : Memory.rising lo m = true) {a : Nat} (ha : lo ≤ a) (v : Byte) :
    Memory.rising lo (m.put a v) = true := by
  induction m generalizing lo with
  | nil => exact Memory.rising_cell ha rfl
  | cons c m ih =>
    obtain ⟨b, w⟩ := c
    have h' := (Memory.rising_cons _ _ _ _).1 h
    simp only [Memory.put]
    split
    · exact Memory.rising_cell ha ((Memory.rising_cons _ _ _ _).2 ⟨by omega, h'.2⟩)
    · split
      · subst_vars; exact Memory.rising_cell ha h'.2
      · exact (Memory.rising_cons _ _ _ _).2 ⟨h'.1, ih h'.2 (by omega)⟩

theorem Memory.cellsOk_cell {a : Nat} {v : Byte} {m : Memory} (ha : a < planeSpace) (h : Memory.cellsOk m) :
    Memory.cellsOk (Memory.cell a v m) := by
  unfold Memory.cell
  split
  · exact h
  · rw [Memory.cellsOk_cons]; exact ⟨⟨ha, ‹_›⟩, h⟩

theorem Memory.cellsOk_put {m : Memory} (h : Memory.cellsOk m) {a : Nat} (ha : a < planeSpace) (v : Byte) :
    Memory.cellsOk (m.put a v) := by
  induction m with
  | nil => exact Memory.cellsOk_cell ha h
  | cons c m ih =>
    obtain ⟨b, w⟩ := c
    have h' := (Memory.cellsOk_cons _ _).1 h
    simp only [Memory.put]
    split
    · exact Memory.cellsOk_cell ha h
    · split
      · exact Memory.cellsOk_cell ha h'.2
      · exact (Memory.cellsOk_cons _ _).2 ⟨h'.1, ih h'.2⟩

/-- A write of an address that exists keeps the canonical form. -/
theorem Memory.wf_put {m : Memory} (h : Memory.wf m = true) {a : Nat} (ha : a < planeSpace) (v : Byte) :
    Memory.wf (m.put a v) = true := by
  rw [Memory.wf_iff] at *
  exact ⟨Memory.rising_put h.1 (by omega) v, Memory.cellsOk_put h.2 ha v⟩

theorem Memory.get_put_rising {lo : Nat} {m : Memory} (h : Memory.rising lo m = true) (a : Nat) (v : Byte) (b : Nat) :
    (m.put a v).get b = if b = a then v else m.get b := by
  induction m generalizing lo with
  | nil => exact Memory.get_cell rfl b
  | cons c m ih =>
    obtain ⟨d, w⟩ := c
    have h' := (Memory.rising_cons _ _ _ _).1 h
    simp only [Memory.put]
    split
    · rw [Memory.get_cell ((Memory.rising_cons _ _ _ _).2 ⟨by omega, h'.2⟩)]
    · split
      · subst_vars
        rw [Memory.get_cell h'.2]
        simp only [Memory.get]
        split
        · rfl
        · rw [if_neg (by omega)]
      · simp only [Memory.get, ih h'.2]
        by_cases hd : d = b
        · rw [if_pos hd, if_pos hd, if_neg (by omega)]
        · rw [if_neg hd, if_neg hd]

/-- Reading after a write: the value written at its address, and every other byte as before. -/
theorem Memory.get_put {m : Memory} (h : Memory.wf m = true) (a : Nat) (v : Byte) (b : Nat) :
    (m.put a v).get b = if b = a then v else m.get b :=
  Memory.get_put_rising ((Memory.wf_iff m).1 h).1 a v b

/-- Two canonical memories that read alike are the same data. -/
theorem Memory.ext {m m' : Memory} (h : Memory.wf m = true) (h' : Memory.wf m' = true)
    (he : ∀ a, m.get a = m'.get a) : m = m' := by
  rw [Memory.wf_iff] at h h'
  obtain ⟨hr, hc⟩ := h
  obtain ⟨hr', hc'⟩ := h'
  generalize 0 = lo at hr hr'
  induction m generalizing m' lo with
  | nil =>
    cases m' with
    | nil => rfl
    | cons c' m' =>
      obtain ⟨b, w⟩ := c'
      have := he b
      simp [Memory.get] at this
      exact absurd this.symm ((Memory.cellsOk_cons _ _).1 hc').1.2
  | cons c m ih =>
    obtain ⟨a, v⟩ := c
    have hcc := (Memory.cellsOk_cons _ _).1 hc
    have hrr := (Memory.rising_cons _ _ _ _).1 hr
    cases m' with
    | nil =>
      have := he a
      simp [Memory.get] at this
      exact absurd this hcc.1.2
    | cons c' m' =>
      obtain ⟨b, w⟩ := c'
      have hcc' := (Memory.cellsOk_cons _ _).1 hc'
      have hrr' := (Memory.rising_cons _ _ _ _).1 hr'
      have hab : a = b := by
        by_contra hne
        rcases Nat.lt_or_gt_of_ne hne with hlt | hgt
        · have h1 := he a
          rw [Memory.get_of_lt (m := (b, w) :: m') ((Memory.rising_cons b _ _ _).2 ⟨le_refl _, hrr'.2⟩) hlt] at h1
          simp [Memory.get] at h1
          exact hcc.1.2 h1
        · have h1 := he b
          rw [Memory.get_of_lt (m := (a, v) :: m) ((Memory.rising_cons a _ _ _).2 ⟨le_refl _, hrr.2⟩) hgt] at h1
          simp [Memory.get] at h1
          exact hcc'.1.2 h1.symm
      subst hab
      have hvw : v = w := by simpa [Memory.get] using he a
      subst hvw
      have htail : m = m' := by
        refine ih (fun x => ?_) hcc.2 hcc'.2 (a + 1) hrr.2 hrr'.2
        have := he x
        simp only [Memory.get] at this
        by_cases hx : a = x
        · subst hx
          rw [Memory.get_of_lt hrr.2 (by omega), Memory.get_of_lt hrr'.2 (by omega)]
        · rwa [if_neg hx, if_neg hx] at this
      rw [htail]

/-- After a clear every byte of the plane space reads as after reset. -/
theorem Memory.get_clear (m : Memory) {a : Nat} (ha : a < planeSpace) : m.clear.get a = Memory.unlisted a := by
  induction m with
  | nil => rfl
  | cons c m ih =>
    obtain ⟨b, v⟩ := c
    simp only [Memory.clear, List.filter_cons] at *
    split
    · simp only [Memory.get]
      rw [if_neg (by simp_all; omega)]
      exact ih
    · exact ih

/-- A canonical memory has no cell left after a clear. -/
theorem Memory.clear_eq_nil {m : Memory} (h : Memory.wf m = true) : m.clear = [] := by
  rw [Memory.wf_iff] at h
  simp only [Memory.clear, List.filter_eq_nil_iff, decide_eq_true_eq, Nat.not_le]
  exact fun c hc => (h.2 c hc).1

theorem Memory.wf_nil : Memory.wf [] = true := rfl

/-- A clear keeps the canonical form. -/
theorem Memory.wf_clear {m : Memory} (h : Memory.wf m = true) : Memory.wf m.clear = true := by
  rw [Memory.clear_eq_nil h]; rfl

theorem Memory.clear_clear (m : Memory) : m.clear.clear = m.clear := by simp [Memory.clear]

theorem memRead_of_lt (s : State) {a : Nat} (ha : a < planeSpace) : memRead s a = some (s.mem.get a) := if_pos ha

theorem memRead_eq_none (s : State) {a : Nat} (ha : planeSpace ≤ a) : memRead s a = none := if_neg (by omega)

theorem memRead_congr {s t : State} (h : s.mem = t.mem) (a : Nat) : memRead s a = memRead t a := by
  simp [memRead, h]

theorem memWrite_of_lt (s : State) {a : Nat} (ha : a < planeSpace) (v : Byte) :
    memWrite s a v = some { s with mem := s.mem.put a v } := if_pos ha

end Sys2Proof.Machine
end

