-- ==== Sys2Proof/Laws/Pixels.lean ====
section
/-! SUPPORT. The pixel operands: the index and its byte and bit, reading and writing one lane, and what the pixel
commands answer. -/

namespace Sys2Proof.Machine

theorem inCanvas_iff (x y : Int) : inCanvas x y = true ↔ (0 ≤ x ∧ x < 400) ∧ 0 ≤ y ∧ y < 300 := by
  have hw : (width : Int) = 400 := rfl
  have hh : (height : Int) = 300 := rfl
  simp only [inCanvas, hw, hh, Bool.and_eq_true, decide_eq_true_eq]
  omega

theorem pixelIndex_lt {x y : Int} (h : inCanvas x y = true) : pixelIndex x y < nPix := by
  rw [inCanvas_iff] at h
  simp only [pixelIndex, width, nPix]
  omega

theorem byteOf_lt {k : Nat} (h : k < nPix) : byteOf k < planeBytes := by
  simp only [byteOf, nPix, planeBytes] at *; omega

/-- The byte of a pixel in either plane exists. -/
theorem lane_exists {k : Nat} (h : k < nPix) (pl : Plane) : pl.base + byteOf k < planeSpace := by
  have := byteOf_lt h
  cases pl <;> simp only [Plane.base, planeBytes, planeSpace] at * <;> omega

theorem bitOf_lt (k : Nat) : bitOf k < 8 := by simp only [bitOf]; omega

/-- Byte and bit together say which pixel. -/
theorem lane_injective {j k : Nat} (hb : byteOf j = byteOf k) (hp : bitOf j = bitOf k) : j = k := by
  simp only [byteOf, bitOf] at *; omega

theorem getLsbD_maskOf (k i : Nat) : (maskOf k).getLsbD i = decide (i = bitOf k) := by
  have hk := bitOf_lt k
  simp only [maskOf, BitVec.getLsbD_shiftLeft, BitVec.getLsbD_one]
  by_cases h : i = bitOf k
  · subst h; simp [hk]
  · simp [h]
    intro _ _ _; omega

theorem getLsbD_withLane (v : Byte) (k : Nat) (b : Level) {i : Nat} (hi : i < 8) :
    (withLane v k b).getLsbD i = if i = bitOf k then b else v.getLsbD i := by
  cases b <;> simp only [withLane, Bool.false_eq_true, if_true, if_false]
  · rw [BitVec.getLsbD_and, BitVec.getLsbD_not, getLsbD_maskOf]
    by_cases h : i = bitOf k <;> simp [h, hi]
  · rw [BitVec.getLsbD_or, getLsbD_maskOf]
    by_cases h : i = bitOf k <;> simp [h]

theorem laneOf_withLane_same (v : Byte) (k : Nat) (b : Level) : laneOf (withLane v k b) k = b := by
  simp [laneOf, getLsbD_withLane v k b (bitOf_lt k)]

theorem laneOf_withLane_of_ne (v : Byte) {j k : Nat} (b : Level) (h : bitOf j ≠ bitOf k) :
    laneOf (withLane v k b) j = laneOf v j := by
  simp [laneOf, getLsbD_withLane v k b (bitOf_lt j), h]

/-- `PixRead` of a pixel: its lane of its byte. -/
theorem pixRead_eq (s : State) (pl : Plane) {k : Nat} (h : k < nPix) :
    pixRead s pl k = some (laneOf (s.mem.get (pl.base + byteOf k)) k) := by
  simp [pixRead, memRead_of_lt s (lane_exists h pl)]

/-- `PixWrite` of a pixel: its byte with its lane replaced, and nothing else. -/
theorem pixWrite_eq (pl : Plane) {k : Nat} (h : k < nPix) (b : Level) (s : State) :
    pixWrite pl k b s = some { s with
      mem := s.mem.put (pl.base + byteOf k) (withLane (s.mem.get (pl.base + byteOf k)) k b) } := by
  simp [pixWrite, memRead_of_lt s (lane_exists h pl), memWrite_of_lt s (lane_exists h pl)]

/-- Plane memory after one `PixWrite` of pixel `k`. -/
def laneMem (m : Memory) (pl : Plane) (k : Nat) (b : Level) : Memory :=
  m.put (pl.base + byteOf k) (withLane (m.get (pl.base + byteOf k)) k b)

/-- Plane memory after SET_PIXEL of pixel `k` with code `c`. -/
def pixelMem (m : Memory) (k : Nat) (c : BitVec 2) : Memory :=
  laneMem (laneMem m .primary k (codePrimary c)) .accent k (codeAccent c)

/-- The two planes' bytes of a pixel are different addresses. -/
theorem lane_bases_ne {j k : Nat} (hj : j < nPix) :
    Plane.primary.base + byteOf j ≠ Plane.accent.base + byteOf k := by
  have := byteOf_lt hj
  simp only [Plane.base, planeBytes] at *; omega

/-- The effect of SET_PIXEL in the canvas. -/
theorem setPixel_inCanvas {s : State} (c : BitVec 2) (h : inCanvas (pixelX s) (pixelY s) = true) :
    setPixel c s = .next { s with mem := pixelMem s.mem (pixelIndex (pixelX s) (pixelY s)) c } := by
  have hk := pixelIndex_lt h
  simp only [setPixel, h, if_true, pixWrite_eq _ hk, Option.bind_some, pixelMem, laneMem]

theorem setPixel_clipped (s : State) (c : BitVec 2) (h : inCanvas (pixelX s) (pixelY s) = false) :
    setPixel c s = .next s := by simp [setPixel, h]

theorem wf_laneMem {m : Memory} (h : Memory.wf m = true) (pl : Plane) {k : Nat} (hk : k < nPix) (b : Level) :
    Memory.wf (laneMem m pl k b) = true := Memory.wf_put h (lane_exists hk pl) _

theorem wf_pixelMem {m : Memory} (h : Memory.wf m = true) {k : Nat} (hk : k < nPix) (c : BitVec 2) :
    Memory.wf (pixelMem m k c) = true := wf_laneMem (wf_laneMem h _ hk _) _ hk _

theorem get_laneMem {m : Memory} (h : Memory.wf m = true) (pl : Plane) (k : Nat) (b : Level) (a : Nat) :
    (laneMem m pl k b).get a = if a = pl.base + byteOf k then withLane (m.get a) k b else m.get a := by
  rw [laneMem, Memory.get_put h]
  split
  · subst_vars; rfl
  · rfl

/-- Every byte of plane memory after SET_PIXEL. -/
theorem get_pixelMem {m : Memory} (h : Memory.wf m = true) {k : Nat} (hk : k < nPix) (c : BitVec 2) (a : Nat) :
    (pixelMem m k c).get a =
      if a = Plane.accent.base + byteOf k then withLane (m.get a) k (codeAccent c)
      else if a = Plane.primary.base + byteOf k then withLane (m.get a) k (codePrimary c)
      else m.get a := by
  rw [pixelMem, get_laneMem (wf_laneMem h _ hk _), get_laneMem h]
  split
  · rw [if_neg (fun e => lane_bases_ne hk (e.symm.trans ‹_›))]
  · rfl

/-- The lane of a pixel in a plane after SET_PIXEL. -/
theorem lane_pixelMem {m : Memory} (h : Memory.wf m = true) {k : Nat} (hk : k < nPix) (c : BitVec 2) (pl : Plane)
    {j : Nat} (hj : j < nPix) :
    laneOf ((pixelMem m k c).get (pl.base + byteOf j)) j =
      if j = k then (match pl with | .primary => codePrimary c | .accent => codeAccent c)
      else laneOf (m.get (pl.base + byteOf j)) j := by
  rw [get_pixelMem h hk]
  cases pl with
  | primary =>
    rw [if_neg (lane_bases_ne hj)]
    by_cases hb : byteOf j = byteOf k
    · rw [if_pos (by rw [hb])]
      by_cases hjk : j = k
      · subst hjk; rw [if_pos rfl]; exact laneOf_withLane_same _ _ _
      · rw [if_neg hjk]; exact laneOf_withLane_of_ne _ _ (fun e => hjk (lane_injective hb e))
    · rw [if_neg (by omega), if_neg (fun e => hb (by rw [e]))]
  | accent =>
    by_cases hb : byteOf j = byteOf k
    · rw [if_pos (by rw [hb])]
      by_cases hjk : j = k
      · subst hjk; rw [if_pos rfl]; exact laneOf_withLane_same _ _ _
      · rw [if_neg hjk]; exact laneOf_withLane_of_ne _ _ (fun e => hjk (lane_injective hb e))
    · rw [if_neg (by omega), if_neg (fun e => lane_bases_ne hk e.symm), if_neg (fun e => hb (by rw [e]))]

/-- A legal colour code is no forbidden pair (30_encoding.md R49). -/
theorem legal_code_pair {c : BitVec 2} (h : c ≠ 0b10#2) : (codePrimary c || !codeAccent c) = true := by
  revert c; decide

/-- SET_PIXEL with a legal code keeps the plane invariant (10_state.md R20). -/
theorem planeInv_pixelMem {m : Memory} (h : Memory.wf m = true) (hp : PlaneInv m) {k : Nat} (hk : k < nPix)
    {c : BitVec 2} (hc : c ≠ 0b10#2) : PlaneInv (pixelMem m k c) := by
  intro j hj
  simp only [pairOk, lane_pixelMem h hk c _ hj]
  by_cases hjk : j = k
  · simp only [hjk, if_true]; exact legal_code_pair hc
  · simp only [if_neg hjk]; exact hp j hj

theorem laneOf_FF (k : Nat) : laneOf 0xFF#8 k = true := by
  have := bitOf_lt k
  simp only [laneOf]
  generalize bitOf k = i at *
  interval_cases i <;> rfl

/-- A plane memory that reads as after reset meets the plane invariant. -/
theorem planeInv_of_unlisted {m : Memory} (h : ∀ a, a < planeSpace → m.get a = Memory.unlisted a) : PlaneInv m := by
  intro k hk
  have := byteOf_lt hk
  simp only [pairOk, h _ (lane_exists hk .primary)]
  have hu : Memory.unlisted (Plane.primary.base + byteOf k) = 0xFF#8 := by
    exact if_pos (by simp only [Plane.base]; omega)
  rw [hu, laneOf_FF]; rfl

theorem planeInv_clear (m : Memory) : PlaneInv m.clear :=
  planeInv_of_unlisted (fun _ ha => Memory.get_clear m ha)

theorem resultOk_pixelResult {p a : Level} (h : (p || !a) = true) : resultOk (pixelResult p a) = true := by
  revert p a; decide

/-- The lane of pixel `k` in a plane. -/
def laneAt (m : Memory) (pl : Plane) (k : Nat) : Level := laneOf (m.get (pl.base + byteOf k)) k

/-- GET_PIXEL in the canvas. -/
theorem execGetPixel_inCanvas (s : State) (h : inCanvas (pixelX s) (pixelY s) = true) :
    execGetPixel s = .next { s with
      result := pixelResult (laneAt s.mem .primary (pixelIndex (pixelX s) (pixelY s)))
        (laneAt s.mem .accent (pixelIndex (pixelX s) (pixelY s))) } := by
  have hk := pixelIndex_lt h
  simp only [execGetPixel, h, if_true, pixRead_eq s _ hk, laneAt]

theorem execGetPixel_clipped (s : State) (h : inCanvas (pixelX s) (pixelY s) = false) :
    execGetPixel s = .next { s with result := clippedResult } := by simp [execGetPixel, h]

end Sys2Proof.Machine
end

