-- ==== Sys2Proof/Laws/Panel.lean ====
section
/-! SUPPORT. What the reference display controller does with the parts of a refresh's link trace: waits, units and plane
bytes. -/

namespace Sys2Proof.Machine

variable (r : PanelReading) (p : PanelCommands)

/-! ### Traces -/

@[simp] theorem panelAfter_nil (q : Panel) : panelAfter r p [] q = q := rfl

@[simp] theorem panelAfter_cons (e : LinkEvent) (l : List LinkEvent) (q : Panel) :
    panelAfter r p (e :: l) q = panelAfter r p l (panelEvent r p q e) := rfl

theorem panelAfter_append (l l' : List LinkEvent) (q : Panel) :
    panelAfter r p (l ++ l') q = panelAfter r p l' (panelAfter r p l q) := List.foldl_append ..

/-- Ticks and samples change nothing but the level last sampled. -/
theorem panelAfter_quiet {l : List LinkEvent} (h : ∀ e ∈ l, e = .tick ∨ ∃ b, e = .sample b) (q : Panel) (v : Bool) :
    { panelAfter r p l q with busy := v } = { q with busy := v } := by
  induction l generalizing q with
  | nil => rfl
  | cons e l ih =>
    rw [panelAfter_cons, ih (fun e he => h e (by simp [he]))]
    rcases h e (by simp) with rfl | ⟨b, rfl⟩ <;> rfl

/-- A busy-wait leaves the panel as it was, with the level of its last sample. -/
theorem panelAfter_wait (c : Cfg) (o : WaitOutcome) (q : Panel) :
    panelAfter r p (o.trace c) q = { q with busy := o.lastLevel } := by
  rw [WaitOutcome.trace, panelAfter_append, panelAfter_cons, panelAfter_nil]
  refine panelAfter_quiet r p (fun e he => ?_) q _
  simp only [List.mem_append, List.mem_replicate, List.mem_flatten] at he
  rcases he with ⟨-, rfl⟩ | ⟨l, ⟨-, rfl⟩, he⟩
  · exact .inl rfl
  · rcases List.mem_cons.1 he with rfl | he
    · exact .inr ⟨_, rfl⟩
    · exact .inl (List.mem_replicate.1 he).2

/-- A busy-wait that completes leaves the panel as it was. -/
theorem panelAfter_completes (c : Cfg) (j : Nat) {q : Panel} (hq : q.busy = false) :
    panelAfter r p ((WaitOutcome.completes j).trace c) q = q := by
  rw [panelAfter_wait, WaitOutcome.lastLevel, ← hq]

/-- The panel after the hardware reset: awake, in no unit and in no open state. -/
def Panel.woken (q : Panel) : Panel :=
  { q with resetLow := false, asleep := false, busy := false, unsure := false, current := none, got := [] }

theorem panelAfter_resetTrace (c : Cfg) (q : Panel) : panelAfter r p (resetTrace c) q = q.woken := by
  have hq : ∀ n (q : Panel), panelAfter r p (List.replicate n .tick) q = q := fun n q => by
    induction n with
    | zero => rfl
    | succ n ih => exact ih
  simp [resetTrace, panelAfter_append, hq, panelEvent, Panel.woken]

/-- The panel takes frames and its answer to them is given. -/
def Panel.listens (q : Panel) : Bool := !(q.unsure || q.busy || q.resetLow) && !q.asleep

/-- What a listening panel does with a frame. -/
theorem panelEvent_listens {q : Panel} (h : q.listens = true) (dc : Level) (b : Byte) :
    panelEvent r p q (.frame dc b) = if dc then panelData r p b q else panelCommand p b q := by
  simp only [Panel.listens, Bool.and_eq_true, Bool.not_eq_true'] at h
  simp only [panelEvent, panelFrame, h, Bool.false_eq_true, if_false]

/-! ### Units -/

/-- With distinct opcodes each unit's opcode begins that unit. -/
theorem decodeSpi_opcode (hd : p.distinct = true) {i : Instr} {opc : Byte} (he : encodeSpi p i = some opc) :
    decodeSpi p false opc = .ok i := by
  replace hd := of_decide_eq_true hd
  simp only [PanelCommands.opcodes, List.nodup_cons, List.mem_cons,
    List.not_mem_nil, or_false, not_or] at hd
  cases i <;> simp only [encodeSpi, Option.some.injEq, reduceCtorEq] at he <;> subst he <;>
    simp [decodeSpi, spiTable, hd]

/-- What a command frame does whose opcode is known, after a unit that is done. -/
theorem panelCommand_known {b : Byte} {i : Instr} {q : Panel} (hu : unitDone p q = true) (hi : decodeSpi p false b = .ok i) :
    panelCommand p b q = if i = .activate then panelActivate { q with current := some i, got := [] }
      else { q with current := some i, got := [] } := by
  rw [panelCommand, hu, hi]

/-- A command frame begins its unit. -/
theorem panelEvent_command (hd : p.distinct = true) (i : Instr) (opc : Byte) (hv : i ≠ .activate)
    (he : encodeSpi p i = some opc) {q : Panel} (hs : q.listens = true) (hu : unitDone p q = true) :
    panelEvent r p q (.frame false opc) = { q with current := some i, got := [] } := by
  rw [panelEvent_listens r p hs, if_neg (by decide), panelCommand_known p hu (decodeSpi_opcode p hd he), if_neg hv]

theorem panelAfter_payload {i : Instr} (hp : i ≠ .wramP) (ha : i ≠ .wramA) {l : List Byte} (hl : l ≠ []) {q : Panel}
    (hc : q.current = some i) (hs : q.listens = true) (hg : q.got ++ l = payloadOf p i) :
    panelAfter r p (l.map (.frame true)) q = payloadEffect r i { q with got := payloadOf p i } := by
  induction l generalizing q with
  | nil => exact absurd rfl hl
  | cons b l ih =>
    have hlen : (payloadOf p i).length = q.got.length + 1 + l.length := by rw [← hg]; simp; omega
    rw [List.map_cons, panelAfter_cons, panelEvent_listens r p hs]
    simp only [panelData, hc, hp, ha, panelPayload, if_true, if_false]
    cases l with
    | nil =>
      rw [if_pos (by simp [hlen]), hg]; rfl
    | cons b' l =>
      rw [if_neg (by simp [hlen]), if_pos (by simp [hlen])]
      exact ih (by simp) rfl hs (by simpa using hg)

/-- A unit with a payload has the effect of the payload. -/
theorem panelAfter_unit (hd : p.distinct = true) (i : Instr) (opc : Byte) (pl : Payload) (hv : i ∉ [.wramP, .wramA, .activate])
    (he : encodeSpi p i = some opc) (hl : payloadOf p i = pl.bytes) {q : Panel} (hs : q.listens = true)
    (hu : unitDone p q = true) :
    panelAfter r p (unitTrace opc pl.bytes) q = payloadEffect r i { q with current := some i, got := pl.bytes } := by
  simp only [List.mem_cons, List.not_mem_nil, or_false, not_or] at hv
  rw [unitTrace, panelAfter_cons, panelEvent_command r p hd i opc hv.2.2 he hs hu, ← hl]
  exact panelAfter_payload r p hv.1 hv.2.1 (by simp [hl, Payload.bytes]) rfl hs (by simp)

/-- A unit whose payload is whole is done. -/
theorem unitDone_whole (q : Panel) {i : Instr} (h : q.current = some i) (hg : q.got = payloadOf p i) :
    unitDone p q = true := by
  simp [unitDone, h, hg]

/-- What the panel is set to by the units before the planes. -/
def Panel.initialised (q : Panel) : Panel :=
  { q with
    current := some .ycnt, got := p.plYcnt.bytes, dual := r.selectsDual p.plDuc.bytes
    incr := r.increments p.plDem.bytes, xWin := r.xWindow p.plXwin.bytes, yWin := r.yWindow p.plYwin.bytes
    cx := r.xCount p.plXcnt.bytes, cy := r.yCount p.plYcnt.bytes }

theorem Panel.initialised_unit (q : Panel) (i : Option Instr) (l : List Byte) :
    Panel.initialised r p { q with current := i, got := l } = q.initialised r p := rfl

theorem panelAfter_initTrace (hd : p.distinct = true) {q : Panel} (hs : q.listens = true) (hu : unitDone p q = true) :
    panelAfter r p (initTrace p) q = q.initialised r p := by
  simp only [initTrace, panelAfter_append]
  rw [panelAfter_unit r p hd .duc p.opcDuc p.plDuc (by decide) rfl rfl hs hu]
  simp only [payloadEffect]
  rw [panelAfter_unit r p hd .border p.opcBorder p.plBorder (by decide) rfl rfl (by exact hs) (by exact unitDone_whole p _ rfl rfl)]
  simp only [payloadEffect]
  rw [panelAfter_unit r p hd .dem p.opcDem p.plDem (by decide) rfl rfl (by exact hs) (by exact unitDone_whole p _ rfl rfl)]
  simp only [payloadEffect]
  rw [panelAfter_unit r p hd .xwin p.opcXwin p.plXwin (by decide) rfl rfl (by exact hs) (by exact unitDone_whole p _ rfl rfl)]
  simp only [payloadEffect]
  rw [panelAfter_unit r p hd .ywin p.opcYwin p.plYwin (by decide) rfl rfl (by exact hs) (by exact unitDone_whole p _ rfl rfl)]
  simp only [payloadEffect]
  rw [panelAfter_unit r p hd .xcnt p.opcXcnt p.plXcnt (by decide) rfl rfl (by exact hs) (by exact unitDone_whole p _ rfl rfl)]
  simp only [payloadEffect]
  rw [panelAfter_unit r p hd .ycnt p.opcYcnt p.plYcnt (by decide) rfl rfl (by exact hs) (by exact unitDone_whole p _ rfl rfl)]
  simp only [payloadEffect, Panel.initialised]

/-! ### Plane bytes -/

/-- The RAM a plane is written to. -/
def Panel.ram (q : Panel) : Plane → Vector Byte 15000
  | .primary => q.rb
  | .accent => q.rr

/-- The unit that writes it. -/
def ramUnit : Plane → Instr
  | .primary => .wramP
  | .accent => .wramA

/-- A plane byte stored and the counters advanced. -/
def panelByte (pl : Plane) (b : Byte) (q : Panel) : Panel :=
  match pl with
  | .primary => panelAdvance { q with rb := q.rb.setIfInBounds (ramAddress q) b }
  | .accent => panelAdvance { q with rr := q.rr.setIfInBounds (ramAddress q) b }

/-- The rest of the panel, which plane bytes leave: everything but both RAMs, the counters and the count of bytes. -/
def Panel.rest (q : Panel) : Panel :=
  { q with rb := Vector.replicate _ 0, rr := Vector.replicate _ 0, cx := 0, cy := 0, written := 0 }

/-- All a plane byte can do in an ordered window: it is stored at the counters, the counters stay in the window, and
nothing else changes. -/
theorem panelByte_inOrder (pl : Plane) (b : Byte) {q : Panel} (h : inOrder q = true) :
    inOrder (panelByte pl b q) = true
      ∧ (panelByte pl b q).ram pl = (q.ram pl).setIfInBounds (q.cy * 50 + q.cx) b
      ∧ (∀ pl', pl' ≠ pl → (panelByte pl b q).ram pl' = q.ram pl')
      ∧ (panelByte pl b q).rest = q.rest
      ∧ (panelByte pl b q).cx = (if q.cx = q.xWin.2 then q.xWin.1 else q.cx + 1)
      ∧ (panelByte pl b q).cy
          = (if q.cx = q.xWin.2 then (if q.cy = q.yWin.2 then q.yWin.1 else q.cy + 1) else q.cy) := by
  have hw := h
  simp only [inOrder, inWindow, Bool.and_eq_true, decide_eq_true_eq] at hw
  obtain ⟨hi, ⟨⟨⟨⟨h1, h2⟩, h3⟩, h4⟩, h5⟩, h6⟩ := hw
  cases pl <;>
    simp only [panelByte, panelAdvance, show ∀ v, inOrder { q with rb := v } = true from fun _ => h,
      show ∀ v, inOrder { q with rr := v } = true from fun _ => h, ramAddress, if_true] <;>
    by_cases hx : q.cx = q.xWin.2 <;> by_cases hy : q.cy = q.yWin.2 <;>
    simp only [hx, hy, if_true, if_false, Panel.ram, Panel.rest, inOrder, inWindow, hi, Bool.true_and, Bool.and_eq_true,
      decide_eq_true_eq, and_true, true_and] <;>
    refine ⟨by omega, ?_⟩ <;> intro pl' hp <;> cases pl' <;> simp_all

/-- A data frame of a plane's unit is a plane byte. -/
theorem panelAfter_planeBytes (pl : Plane) (l : List Byte) {q : Panel} (hc : q.current = some (ramUnit pl))
    (hs : q.listens = true) :
    panelAfter r p (l.map (.frame true)) q = l.foldl (fun q b => panelByte pl b q) q := by
  induction l generalizing q with
  | nil => rfl
  | cons b l ih =>
    have he : panelEvent r p q (.frame true b) = panelByte pl b q := by
      rw [panelEvent_listens r p hs]
      cases pl <;> simp [panelData, hc, ramUnit, panelByte]
    have hk : (panelByte pl b q).current = q.current ∧ (panelByte pl b q).listens = q.listens := by
      cases pl <;> simp only [panelByte, panelAdvance] <;> (repeat' split) <;> exact ⟨rfl, rfl⟩
    rw [List.map_cons, panelAfter_cons, he, List.foldl_cons]
    exact ih (hk.1.trans hc) (hk.2.trans hs)

/-- All plane bytes can do in an ordered window: bytes outside the window, the other RAM and the rest stay. -/
theorem planeBytes_inOrder (pl : Plane) (l : List Byte) {q : Panel} (h : inOrder q = true) :
    inOrder (l.foldl (fun q b => panelByte pl b q) q) = true
      ∧ (∀ pl', pl' ≠ pl → (l.foldl (fun q b => panelByte pl b q) q).ram pl' = q.ram pl')
      ∧ (l.foldl (fun q b => panelByte pl b q) q).rest = q.rest
      ∧ (∀ a, inWindow q.xWin q.yWin (a % 50) (a / 50) = false →
          ((l.foldl (fun q b => panelByte pl b q) q).ram pl)[a]? = (q.ram pl)[a]?) := by
  induction l generalizing q with
  | nil => exact ⟨h, fun _ _ => rfl, rfl, fun _ _ => rfl⟩
  | cons b l ih =>
    obtain ⟨h1, h2, h3, h4, -, -⟩ := panelByte_inOrder pl b h
    obtain ⟨i1, i2, i3, i4⟩ := ih h1
    refine ⟨i1, fun pl' hp => (i2 pl' hp).trans (h3 pl' hp), i3.trans h4, fun a ha => ?_⟩
    have hx : (panelByte pl b q).xWin = q.xWin := by have e := congrArg Panel.xWin h4; exact e
    have hy : (panelByte pl b q).yWin = q.yWin := by have e := congrArg Panel.yWin h4; exact e
    rw [List.foldl_cons, i4 a (by rw [hx, hy]; exact ha), h2, Vector.getElem?_setIfInBounds]
    rw [if_neg]
    rintro rfl
    have hw := h
    simp only [inOrder, inWindow, Bool.and_eq_true, decide_eq_true_eq] at hw
    rw [show (q.cy * 50 + q.cx) % 50 = q.cx by omega, show (q.cy * 50 + q.cx) / 50 = q.cy by omega] at ha
    simp [inWindow, hw] at ha

/-- In a window of the whole RAM a plane's bytes land one after the other from the counters on, around the end of the
RAM. -/
theorem planeBytes_wholeRam (pl : Plane) (l : List Byte) (hn : l.length ≤ 15000) {q : Panel} (h : inOrder q = true)
    (hx : q.xWin = (0, 49)) (hy : q.yWin = (0, 299)) :
    ((l.foldl (fun q b => panelByte pl b q) q).cy * 50 + (l.foldl (fun q b => panelByte pl b q) q).cx
        = (q.cy * 50 + q.cx + l.length) % 15000)
      ∧ ∀ i, i < 15000 → ((l.foldl (fun q b => panelByte pl b q) q).ram pl)[(q.cy * 50 + q.cx + i) % 15000]?
          = if i < l.length then l[i]? else (q.ram pl)[(q.cy * 50 + q.cx + i) % 15000]? := by
  have hb : ∀ {q : Panel}, inOrder q = true → q.xWin = (0, 49) → q.yWin = (0, 299) → q.cx ≤ 49 ∧ q.cy ≤ 299 := by
    intro q h hx hy
    simp only [inOrder, inWindow, Bool.and_eq_true, decide_eq_true_eq, hx, hy] at h
    omega
  induction l generalizing q with
  | nil => obtain ⟨h1, h2⟩ := hb h hx hy; exact ⟨by simp; omega, fun i _ => by simp⟩
  | cons b l ih =>
    obtain ⟨h1, h2, -, h4, hcx, hcy⟩ := panelByte_inOrder pl b h
    have hx' : (panelByte pl b q).xWin = (0, 49) := by
      have e := congrArg Panel.xWin h4; exact e.trans hx
    have hy' : (panelByte pl b q).yWin = (0, 299) := by
      have e := congrArg Panel.yWin h4; exact e.trans hy
    simp only [List.length_cons] at hn
    obtain ⟨i1, i2⟩ := ih (by omega) h1 hx' hy'
    obtain ⟨b1, b2⟩ := hb h hx hy
    have hpos : (panelByte pl b q).cy * 50 + (panelByte pl b q).cx = (q.cy * 50 + q.cx + 1) % 15000 := by
      rw [hcx, hcy, hx, hy]; simp only; split <;> (try split) <;> omega
    rw [List.foldl_cons]
    refine ⟨by rw [i1, hpos, List.length_cons]; omega, fun i hi => ?_⟩
    cases i with
    | zero =>
      have := i2 14999 (by omega)
      rw [hpos, if_neg (by omega), show ((q.cy * 50 + q.cx + 1) % 15000 + 14999) % 15000 = q.cy * 50 + q.cx by omega, h2,
        Vector.getElem?_setIfInBounds_self_of_lt (by omega)] at this
      simpa [show (q.cy * 50 + q.cx) % 15000 = q.cy * 50 + q.cx by omega] using this
    | succ i =>
      have := i2 i (by omega)
      rw [hpos, show ((q.cy * 50 + q.cx + 1) % 15000 + i) % 15000 = (q.cy * 50 + q.cx + (i + 1)) % 15000 by omega, h2,
        Vector.getElem?_setIfInBounds_ne (by omega)] at this
      simpa using this

/-! ### A whole refresh -/

/-- A panel that begins plane `pl`'s unit and takes its bytes. -/
def Panel.takes (q : Panel) (pl : Plane) (l : List Byte) : Panel :=
  l.foldl (fun q b => panelByte pl b q) { q with current := some (ramUnit pl), got := [] }

/-- The panel at the activation of a refresh. -/
def Panel.filled (q : Panel) (m : Memory) : Panel :=
  ((Panel.initialised r p q.woken).takes .primary (planeData m .primary)).takes
    .accent (planeData m .accent)

theorem planeData_length (m : Memory) (pl : Plane) : (planeData m pl).length = 15000 := by
  simp only [planeData, List.length_map, List.length_range, planeBytes]

theorem getElem?_planeData (m : Memory) (pl : Plane) {i : Nat} (hi : i < 15000) :
    (planeData m pl)[i]? = some (m.get (pl.base + i)) := by
  simp only [planeData, List.getElem?_map, planeBytes, List.getElem?_range hi, Option.map_some]

theorem takes_listens (q : Panel) (pl : Plane) (l : List Byte) : (q.takes pl l).listens = q.listens := by
  have hb : ∀ (q : Panel) (b : Byte), (panelByte pl b q).listens = q.listens := fun q b => by
    cases pl <;> simp only [panelByte, panelAdvance] <;> (repeat' split) <;> rfl
  suffices h : ∀ q : Panel, (l.foldl (fun q b => panelByte pl b q) q).listens = q.listens from h _
  induction l with
  | nil => exact fun _ => rfl
  | cons b l ih => exact fun q => (ih _).trans (hb q b)

/-- All a plane's unit can do in an ordered window. -/
theorem takes_inOrder (pl : Plane) (l : List Byte) {q : Panel} (h : inOrder q = true) :
    inOrder (q.takes pl l) = true ∧ (q.takes pl l).xWin = q.xWin ∧ (q.takes pl l).yWin = q.yWin
      ∧ (q.takes pl l).dual = q.dual ∧ (∀ pl', pl' ≠ pl → (q.takes pl l).ram pl' = q.ram pl')
      ∧ (∀ a, inWindow q.xWin q.yWin (a % 50) (a / 50) = false → ((q.takes pl l).ram pl)[a]? = (q.ram pl)[a]?) := by
  obtain ⟨h1, h2, h3, h4⟩ :=
    planeBytes_inOrder pl l (q := { q with current := some (ramUnit pl), got := [] }) h
  refine ⟨h1, ?_, ?_, ?_, fun pl' hp => (h2 pl' hp).trans ?_, fun a ha => (h4 a ha).trans ?_⟩
  · have e := congrArg Panel.xWin h3; exact e
  · have e := congrArg Panel.yWin h3; exact e
  · have e := congrArg Panel.dual h3; exact e
  · cases pl' <;> rfl
  · cases pl <;> rfl

/-- Where a plane's unit puts its bytes in a window of the whole RAM. -/
theorem takes_wholeRam (pl : Plane) (l : List Byte) (hn : l.length = 15000) {q : Panel} (h : inOrder q = true)
    (hx : q.xWin = (0, 49)) (hy : q.yWin = (0, 299)) :
    (q.takes pl l).cy * 50 + (q.takes pl l).cx = (q.cy * 50 + q.cx) % 15000
      ∧ ∀ i, i < 15000 → ((q.takes pl l).ram pl)[(q.cy * 50 + q.cx + i) % 15000]? = l[i]? := by
  obtain ⟨h1, h2⟩ := planeBytes_wholeRam pl l (by omega)
    (q := { q with current := some (ramUnit pl), got := [] }) h hx hy
  refine ⟨h1.trans (by rw [hn]; simp only; omega), fun i hi => (h2 i hi).trans ?_⟩
  rw [if_pos (by omega)]

theorem panelAfter_stream (hd : p.distinct = true) (pl : Plane) (opc : Byte) (l : List Byte)
    (he : encodeSpi p (ramUnit pl) = some opc) {q : Panel} (hs : q.listens = true) (hu : unitDone p q = true) :
    panelAfter r p (unitTrace opc l) q = q.takes pl l := by
  rw [unitTrace, panelAfter_cons, panelEvent_command r p hd (ramUnit pl) opc (by cases pl <;> decide) he hs hu]
  exact panelAfter_planeBytes r p pl l rfl hs

/-- A plane's unit is done whatever bytes it took. -/
theorem unitDone_takes (q : Panel) (pl : Plane) (l : List Byte) : unitDone p (q.takes pl l) = true := by
  have hb : ∀ (q : Panel) (b : Byte), (panelByte pl b q).current = q.current := fun q b => by
    cases pl <;> simp only [panelByte, panelAdvance] <;> (repeat' split) <;> rfl
  have hc : (q.takes pl l).current = some (ramUnit pl) := by
    suffices h : ∀ q : Panel, (l.foldl (fun q b => panelByte pl b q) q).current = q.current from h _
    induction l with
    | nil => exact fun _ => rfl
    | cons b l ih => exact fun q => (ih _).trans (hb q b)
  cases pl <;> simp [unitDone, hc, ramUnit]

/-- Both planes in a window of the whole RAM: each byte stands as far on as the counters were set. -/
theorem takesBoth_wholeRam {q : Panel} (l l' : List Byte) (hl : l.length = 15000) (hl' : l'.length = 15000)
    (h : inOrder q = true) (hx : q.xWin = (0, 49)) (hy : q.yWin = (0, 299)) {a i : Nat} (hi : i < 15000)
    (ha : a = (i + q.cy * 50 + q.cx) % 15000) :
    ((q.takes .primary l).takes .accent l').rb[a]? = l[i]? ∧ ((q.takes .primary l).takes .accent l').rr[a]? = l'[i]?
      ∧ ((q.takes .primary l).takes .accent l').dual = q.dual := by
  obtain ⟨o1, x1, y1, d1, -, -⟩ := takes_inOrder .primary l h
  obtain ⟨p1, b1⟩ := takes_wholeRam .primary l hl h hx hy
  obtain ⟨-, -, -, d2, e2, -⟩ := takes_inOrder .accent l' o1
  obtain ⟨-, b2⟩ := takes_wholeRam .accent l' hl' o1 (x1.trans hx) (y1.trans hy)
  have z1 := b1 i hi
  have z2 := b2 i hi
  rw [show (q.cy * 50 + q.cx + i) % 15000 = a by omega, ← e2 .primary (by decide)] at z1
  rw [p1, show ((q.cy * 50 + q.cx) % 15000 + i) % 15000 = a by omega] at z2
  exact ⟨z1, z2, d2.trans d1⟩

/-- Both planes in a window: the RAM bytes outside it keep what they held. -/
theorem takesBoth_outside {q : Panel} (l l' : List Byte) (h : inOrder q = true) {a : Nat}
    (ha : inWindow q.xWin q.yWin (a % 50) (a / 50) = false) :
    ((q.takes .primary l).takes .accent l').rb[a]? = q.rb[a]?
      ∧ ((q.takes .primary l).takes .accent l').rr[a]? = q.rr[a]? := by
  obtain ⟨o1, x1, y1, -, e1, u1⟩ := takes_inOrder .primary l h
  obtain ⟨-, -, -, -, e2, u2⟩ := takes_inOrder .accent l' o1
  have z1 := u1 a ha
  have z2 := u2 a (by rw [x1, y1]; exact ha)
  rw [← e2 .primary (by decide)] at z1
  rw [e1 .accent (by decide)] at z2
  exact ⟨z1, z2⟩

/-- The RAMs at the activation, in a window of the whole RAM. -/
theorem filled_wholeRam (m : Memory) (q : Panel) (hc : r.coversRam p = true) (hx : r.xCount p.plXcnt.bytes < 50)
    (hy : r.yCount p.plYcnt.bytes < 300) {a i : Nat} (hi : i < 15000)
    (ha : a = (i + r.yCount p.plYcnt.bytes * 50 + r.xCount p.plXcnt.bytes) % 15000) :
    (q.filled r p m).rb[a]? = some (m.get i) ∧ (q.filled r p m).rr[a]? = some (m.get (15000 + i))
      ∧ (q.filled r p m).dual = r.selectsDual p.plDuc.bytes := by
  simp only [PanelReading.coversRam, Bool.and_eq_true, beq_iff_eq] at hc
  have ho : inOrder (Panel.initialised r p q.woken) = true := by
    simp only [inOrder, inWindow, Panel.initialised, hc.1.1, hc.1.2, hc.2, Bool.and_eq_true, decide_eq_true_eq,
      true_and]
    refine ⟨⟨⟨⟨⟨?_, ?_⟩, ?_⟩, ?_⟩, ?_⟩, ?_⟩ <;> omega
  have h := takesBoth_wholeRam (planeData m .primary) (planeData m .accent) (planeData_length _ _) (planeData_length _ _)
    ho hc.1.2 hc.2 hi ha
  rw [getElem?_planeData m _ hi, getElem?_planeData m _ hi, Plane.base, Plane.base, Nat.zero_add] at h
  rw [Panel.filled]
  exact h

/-- The RAM bytes outside the window at the activation. -/
theorem filled_outside (m : Memory) (q : Panel) (hi : r.increments p.plDem.bytes = true)
    (hw : inWindow (r.xWindow p.plXwin.bytes) (r.yWindow p.plYwin.bytes) (r.xCount p.plXcnt.bytes)
      (r.yCount p.plYcnt.bytes) = true) {a : Nat}
    (ha : inWindow (r.xWindow p.plXwin.bytes) (r.yWindow p.plYwin.bytes) (a % 50) (a / 50) = false) :
    (q.filled r p m).rb[a]? = q.rb[a]? ∧ (q.filled r p m).rr[a]? = q.rr[a]? := by
  rw [Panel.filled]
  exact takesBoth_outside (q := Panel.initialised r p q.woken) _ _
    (by rw [inOrder, Bool.and_eq_true]; exact ⟨hi, hw⟩) ha

/-- What the panel is set to between the reset and the planes. -/
theorem panelAfter_setup (c : Cfg) (j j' : Nat) (hd : c.cmds.distinct = true) (q : Panel) :
    panelAfter r c.cmds (resetTrace c ++ (WaitOutcome.completes j).trace c ++ unitTrace c.cmds.opcSwreset []
        ++ (WaitOutcome.completes j').trace c ++ initTrace c.cmds) q
      = Panel.initialised r c.cmds q.woken := by
  have hu : unitDone c.cmds { q.woken with current := some .swreset, got := [] } = true := unitDone_whole _ _ rfl rfl
  simp only [panelAfter_append, panelAfter_resetTrace]
  rw [panelAfter_completes r c.cmds c j rfl, unitTrace, List.map_nil, panelAfter_cons, panelAfter_nil,
    panelEvent_command r c.cmds hd .swreset _ (by decide) rfl rfl rfl, panelAfter_completes r c.cmds c j' rfl,
    panelAfter_initTrace r c.cmds hd rfl hu]
  rfl

/-- The colours depend on the RAMs, the dual-plane flag and the count of activations only. -/
theorem panelColour_unit (q : Panel) (i : Option Instr) (g : List Byte) :
    panelColour { q with current := i, got := g } = panelColour q := by
  funext k; simp only [panelColour]

/-- An activation sets the image and nothing else, whatever unit the panel is in. -/
theorem panelActivate_unit (q : Panel) (i : Option Instr) (g : List Byte) :
    panelActivate { q with current := i, got := g } = { panelActivate q with current := i, got := g } := by
  have h : ∀ (v w : Vector Colour 120000) (n : Nat), v = w →
      ({ { q with current := i, got := g } with image := v, updates := n } : Panel)
        = { { q with image := w, updates := n } with current := i, got := g } := fun _ _ _ h => h ▸ rfl
  exact h _ _ _ (by rw [panelColour_unit])

theorem panelActivate_listens (q : Panel) : (panelActivate q).listens = q.listens := by
  have h : ∀ (v : Vector Colour 120000) (n : Nat), ({ q with image := v, updates := n } : Panel).listens = q.listens :=
    fun _ _ => rfl
  exact h _ _

/-- What the wait for the activation and deep sleep do. -/
theorem panelAfter_sleep (c : Cfg) (j : Nat) (hd : c.cmds.distinct = true) {q : Panel} (hs : q.listens = true)
    (hu : unitDone c.cmds q = true) :
    panelAfter r c.cmds ((WaitOutcome.completes j).trace c ++ unitTrace c.cmds.opcDsleep [c.cmds.plDsleep]) q
      = { q with current := some .dsleep, got := [c.cmds.plDsleep], asleep := true } := by
  have hb : q.busy = false := by
    simp only [Panel.listens, Bool.and_eq_true, Bool.not_eq_true', Bool.or_eq_false_iff] at hs
    exact hs.1.1.2
  rw [panelAfter_append, panelAfter_completes r c.cmds c j hb,
    show [c.cmds.plDsleep] = (Payload.mk c.cmds.plDsleep []).bytes from rfl,
    panelAfter_unit r c.cmds hd .dsleep c.cmds.opcDsleep _ (by decide) rfl rfl hs hu, payloadEffect]

/-- The activation command sets the image of the RAMs. -/
theorem panelEvent_activate (hd : p.distinct = true) {q : Panel} (hs : q.listens = true) (hu : unitDone p q = true) :
    panelEvent r p q (.frame false p.opcActivate) = { panelActivate q with current := some .activate, got := [] } := by
  rw [panelEvent_listens r p hs, if_neg (by decide), panelCommand_known p hu (decodeSpi_opcode p hd (i := .activate) rfl),
    if_pos rfl, panelActivate_unit]

/-- What follows the planes, `t` being the panel the activation leaves. -/
theorem panelAfter_tail (c : Cfg) (j : Nat) (hd : c.cmds.distinct = true) {q t : Panel} (hs : t.listens = true)
    (h2 : panelEvent r c.cmds q (.frame false c.cmds.opcActivate) = { t with current := some .activate, got := [] }) :
    panelAfter r c.cmds (unitTrace c.cmds.opcActivate [] ++ ((WaitOutcome.completes j).trace c
        ++ unitTrace c.cmds.opcDsleep [c.cmds.plDsleep])) q
      = { t with current := some .dsleep, got := [c.cmds.plDsleep], asleep := true } := by
  rw [panelAfter_append, show unitTrace c.cmds.opcActivate [] = [.frame false c.cmds.opcActivate] from rfl,
    panelAfter_cons, panelAfter_nil, h2]
  exact panelAfter_sleep r c j hd hs (unitDone_whole _ _ rfl rfl)

/-- What activation, its wait and deep sleep do: the image is that of the RAMs, which stay. -/
theorem panelAfter_finish (c : Cfg) (j : Nat) (hd : c.cmds.distinct = true) {q : Panel} (hs : q.listens = true)
    (hu : unitDone c.cmds q = true) :
    panelAfter r c.cmds (unitTrace c.cmds.opcActivate [] ++ ((WaitOutcome.completes j).trace c
        ++ unitTrace c.cmds.opcDsleep [c.cmds.plDsleep])) q
      = { panelActivate q with current := some .dsleep, got := [c.cmds.plDsleep], asleep := true } :=
  panelAfter_tail r c j hd ((panelActivate_listens q).trans hs) (panelEvent_activate r c.cmds hd hs hu)

/-- What a refresh leaves whose opcodes differ and whose busy-waits complete: both RAMs as filled, and their image. -/
theorem panelAfter_refresh (c : Cfg) (m : Memory) (j j' j'' : Nat) (hd : c.cmds.distinct = true) (q : Panel) :
    panelAfter r c.cmds (refreshTrace c m (.completes j) (.completes j') (.completes j'')) q
      = { panelActivate (q.filled r c.cmds m) with
          current := some .dsleep, got := [c.cmds.plDsleep], asleep := true } := by
  have hi : (Panel.initialised r c.cmds q.woken).listens = true := rfl
  have hu : unitDone c.cmds (Panel.initialised r c.cmds q.woken) = true := unitDone_whole _ _ rfl rfl
  have hf : (q.filled r c.cmds m).listens = true := by rw [Panel.filled, takes_listens, takes_listens, hi]
  have hfu : unitDone c.cmds (q.filled r c.cmds m) = true := by rw [Panel.filled, unitDone_takes]
  have hsplit : refreshTrace c m (.completes j) (.completes j') (.completes j'')
      = (resetTrace c ++ (WaitOutcome.completes j).trace c ++ unitTrace c.cmds.opcSwreset []
          ++ (WaitOutcome.completes j').trace c ++ initTrace c.cmds)
        ++ (unitTrace c.cmds.opcWramP (planeData m .primary)
        ++ (unitTrace c.cmds.opcWramA (planeData m .accent)
        ++ (unitTrace c.cmds.opcActivate [] ++ ((WaitOutcome.completes j'').trace c
          ++ unitTrace c.cmds.opcDsleep [c.cmds.plDsleep])))) := by
    simp only [refreshTrace, transferTrace, List.append_assoc]
  rw [← panelAfter_finish r c j'' hd hf hfu, hsplit, panelAfter_append, panelAfter_setup r c j j' hd, panelAfter_append,
    panelAfter_stream r c.cmds hd .primary _ _ rfl hi hu, panelAfter_append,
    panelAfter_stream r c.cmds hd .accent _ _ rfl (by rw [takes_listens, hi]) (unitDone_takes _ _ _ _), Panel.filled]

/-- The fields of a panel with another image. Stated for any image, so that no check compares 120000 colours. -/
theorem panel_withImage (q : Panel) (v : Vector Colour 120000) (n : Nat) (i : Option Instr) (g : List Byte) (b : Bool) :
    ({ ({ q with image := v, updates := n } : Panel) with current := i, got := g, asleep := b } : Panel).rb = q.rb
      ∧ ({ ({ q with image := v, updates := n } : Panel) with current := i, got := g, asleep := b } : Panel).rr = q.rr
      ∧ ({ ({ q with image := v, updates := n } : Panel) with current := i, got := g, asleep := b } : Panel).image = v :=
  ⟨rfl, rfl, rfl⟩

/-- The same by fields: both RAMs stay as filled, and the image is theirs. -/
theorem panelAfter_refresh_fields (c : Cfg) (m : Memory) (j j' j'' : Nat) (hd : c.cmds.distinct = true)
    (q : Panel) :
    (panelAfter r c.cmds (refreshTrace c m (.completes j) (.completes j') (.completes j'')) q).rb = (q.filled r c.cmds m).rb
      ∧ (panelAfter r c.cmds (refreshTrace c m (.completes j) (.completes j') (.completes j'')) q).rr = (q.filled r c.cmds m).rr
      ∧ ∀ k, k < 120000 → (panelAfter r c.cmds (refreshTrace c m (.completes j) (.completes j') (.completes j'')) q).image[k]?
          = some (panelColour (q.filled r c.cmds m) k) := by
  have key : ∀ (t u : Panel) (v : Vector Colour 120000), u.rb = t.rb ∧ u.rr = t.rr ∧ u.image = v →
      (∀ k, k < 120000 → v[k]? = some (panelColour t k)) →
      u.rb = t.rb ∧ u.rr = t.rr ∧ ∀ k, k < 120000 → u.image[k]? = some (panelColour t k) := by
    rintro t u v ⟨h1, h2, rfl⟩ h
    exact ⟨h1, h2, h⟩
  refine key _ _ (Vector.ofFn (fun k : Fin 120000 => panelColour (q.filled r c.cmds m) k.val)) ?_ fun k hk => ?_
  · rw [panelAfter_refresh r c m j j' j'' hd]
    exact panel_withImage _ _ _ _ _ _
  · rw [Vector.getElem?_eq_getElem hk, Vector.getElem_ofFn]

end Sys2Proof.Machine
end

