-- ==== Sys2Proof/Laws/PerInstr.lean ====
section
/-! SUPPORT. Statements made per instruction, as syntax. -/

namespace Sys2Proof.Laws.EncodeLength

/-- The fixed length in bytes of an instruction of a format (30_encoding.md R54; DESIGN CHOICE, log entry 11). -/
def bytesOfFormat : Format → Nat
  | .cmd => 4
  | .port => 5
  | .spi => 2

/-- An instruction is as many bytes as its format fixes, whatever its operands and the configuration. -/
def Statement (i : Instr) : Prop := ∀ p : PanelCommands, (encode p i).length = bytesOfFormat i.format

theorem nop : Statement .nop := fun _ => rfl
theorem setPixel (c : BitVec 2) : Statement (.setPixel c) := fun _ => rfl
theorem getPixel : Statement .getPixel := fun _ => rfl
theorem clear : Statement .clear := fun _ => rfl
theorem refresh : Statement .refresh := fun _ => rfl
theorem rdCmd : Statement .rdCmd := fun _ => rfl
theorem wrCmd (v : Word) : Statement (.wrCmd v) := fun _ => rfl
theorem rdArgX : Statement .rdArgX := fun _ => rfl
theorem wrArgX (v : Word) : Statement (.wrArgX v) := fun _ => rfl
theorem rdArgY : Statement .rdArgY := fun _ => rfl
theorem wrArgY (v : Word) : Statement (.wrArgY v) := fun _ => rfl
theorem rdResult : Statement .rdResult := fun _ => rfl
theorem wrResult (v : Word) : Statement (.wrResult v) := fun _ => rfl
theorem rdStatus : Statement .rdStatus := fun _ => rfl
theorem wrStatus (v : Word) : Statement (.wrStatus v) := fun _ => rfl
theorem rdRsvd5 : Statement .rdRsvd5 := fun _ => rfl
theorem wrRsvd5 (v : Word) : Statement (.wrRsvd5 v) := fun _ => rfl
theorem rdRsvd6 : Statement .rdRsvd6 := fun _ => rfl
theorem wrRsvd6 (v : Word) : Statement (.wrRsvd6 v) := fun _ => rfl
theorem rdRsvd7 : Statement .rdRsvd7 := fun _ => rfl
theorem wrRsvd7 (v : Word) : Statement (.wrRsvd7 v) := fun _ => rfl
theorem swreset : Statement .swreset := fun _ => rfl
theorem duc : Statement .duc := fun _ => rfl
theorem border : Statement .border := fun _ => rfl
theorem dem : Statement .dem := fun _ => rfl
theorem xwin : Statement .xwin := fun _ => rfl
theorem ywin : Statement .ywin := fun _ => rfl
theorem xcnt : Statement .xcnt := fun _ => rfl
theorem ycnt : Statement .ycnt := fun _ => rfl
theorem wramP : Statement .wramP := fun _ => rfl
theorem wramA : Statement .wramA := fun _ => rfl
theorem activate : Statement .activate := fun _ => rfl
theorem dsleep : Statement .dsleep := fun _ => rfl

end Sys2Proof.Laws.EncodeLength
end

