-- ==== Sys2Proof/Laws/Steps.lean ====
section
/-! SUPPORT. What each shared operation and one step can do, said once (the lemmas later proofs cite in place of
unfolding the step). -/

namespace Sys2Proof.Machine

/-! ### The micro-program -/

/-- Every SPI instruction stands in the micro-program at its own entry, and nothing else is a `unit` entry. -/
theorem entryOf_unitEntry {i : Instr} {e : Fin 21} (h : unitEntry i = some e) : entryOf e = .unit i := by
  cases i <;> simp only [unitEntry, Option.some.injEq, reduceCtorEq] at h <;> subst h <;> rfl

theorem unitEntry_of_entryOf {i : Instr} {e : Fin 21} (h : entryOf e = .unit i) : unitEntry i = some e := by
  revert h
  fin_cases e <;> intro h <;>
    simp only [entryOf, microRow, microProgram, List.getD, reduceCtorEq, List.getElem?_cons_zero,
      List.getElem?_cons_succ, Option.getD_some, Entry.unit.injEq] at h <;>
    (subst h; rfl)

theorem format_of_entryOf {i : Instr} {e : Fin 21} (h : entryOf e = .unit i) : i.format = .spi := by
  have := unitEntry_of_entryOf h
  cases i <;> simp_all [unitEntry, Instr.format]

theorem entryOf_eq_fin_iff (e : Fin 21) : entryOf e = .fin ↔ e = 20 := by
  revert e; decide

theorem nextEntry_val {e : Fin 21} (h : e ≠ 20) : (nextEntry e).val = e.val + 1 := by
  have : e.val ≠ 20 := fun he => h (Fin.ext he)
  simp only [nextEntry]; omega

/-! ### The `BUSY` input -/

/-- A draw of `BUSY`: the next level of the schedule, or a free value. -/
theorem sampleBusy_cases (s : State) :
    (∃ b rest, s.busyIn = b :: rest ∧ sampleBusy s = (b, { s with busyIn := rest })) ∨
      (s.busyIn = [] ∧ sampleBusy s = (Config.busyLevel s.draws, { s with draws := s.draws + 1 })) := by
  unfold sampleBusy
  split
  · exact .inl ⟨_, _, ‹_›, rfl⟩
  · exact .inr ⟨‹_›, rfl⟩

/-- A draw changes nothing but the schedule and the count of draws. -/
theorem sampleBusy_frame (s : State) : ∃ l n, (sampleBusy s).2 = { s with busyIn := l, draws := n } := by
  rcases sampleBusy_cases s with ⟨b, rest, _, e⟩ | ⟨_, e⟩ <;> rw [e]
  · exact ⟨rest, s.draws, rfl⟩
  · exact ⟨s.busyIn, s.draws + 1, rfl⟩

theorem sampleBusy_cons {s : State} {b : Level} {rest : List Level} (h : s.busyIn = b :: rest) :
    sampleBusy s = (b, { s with busyIn := rest }) := by simp [sampleBusy, h]

/-! ### The guard -/

theorem guarded_running {s : State} (h : s.run = true) (act : State → Result) :
    guarded s act = .next { s with rejected := true } := by simp [guarded, h, setFlag]

theorem guarded_idle {s : State} (h : s.run = false) (act : State → Result) : guarded s act = act s := by
  simp [guarded, h]

/-! ### Units and streams -/

/-- The byte of a unit at position `n`: the opcode, then the payload. -/
def unitByte (opc : Byte) (payload : List Byte) (n : Nat) : Byte := (opc :: payload).getD n 0

theorem unitFrame_of_le {payload : List Byte} {n : Nat} (h : n ≤ payload.length) (opc : Byte) :
    unitFrame opc payload n = some (decide (n ≠ 0), unitByte opc payload n) := by
  cases n with
  | zero => rfl
  | succ j =>
    have hj : payload[j]? = some payload[j] := List.getElem?_eq_getElem (by omega)
    simp [unitFrame, unitByte, hj]

theorem unitFrame_eq_none {payload : List Byte} {n : Nat} (h : payload.length < n) (opc : Byte) :
    unitFrame opc payload n = none := by
  cases n with
  | zero => omega
  | succ j => simp [unitFrame]; omega

/-- A step of a unit at a position it has: one frame, then the count. -/
theorem stepUnit_eq {payload : List Byte} {s : State} (h : s.sub ≤ payload.length) (opc : Byte) :
    stepUnit opc payload s = .next (countTo (payload.length + 1)
      (emit (decide (s.sub ≠ 0)) (unitByte opc payload s.sub) (decide (s.sub < payload.length)) s)) := by
  simp only [stepUnit, unitFrame_of_le h]

/-- The byte of a stream at position `n`: the opcode, then the plane. -/
def streamByte (opc : Byte) (m : Memory) (pl : Plane) (n : Nat) : Byte :=
  match n with
  | 0 => opc
  | j + 1 => m.get (pl.base + j)

/-- A step of a stream at a position it has. -/
theorem stepStream_eq {s : State} (h : s.sub ≤ planeBytes) (opc : Byte) (pl : Plane) :
    stepStream opc pl s = .next (countTo (planeBytes + 1)
      (emit (decide (s.sub ≠ 0)) (streamByte opc s.mem pl s.sub) (decide (s.sub < planeBytes)) s)) := by
  unfold stepStream
  split
  · rename_i h0; simp [h0, streamByte, planeBytes]
  · rename_i j hj
    rw [hj] at h
    rw [if_neg (by omega), memRead_of_lt s (by cases pl <;> simp only [Plane.base, planeBytes, planeSpace] at * <;> omega), hj]
    simp [streamByte]

/-- What an SPI instruction answers as a next state: one frame, at a position the unit has, and the count. -/
theorem exec_spi_cases {i : Instr} (hi : i.format = .spi) {s t : State} (h : exec i s = .next t) :
    s.sub ≤ lastPosition s.cfg.cmds i ∧ ∃ b, t = countTo (lastPosition s.cfg.cmds i + 1)
      (emit (decide (s.sub ≠ 0)) b (decide (s.sub < lastPosition s.cfg.cmds i)) s) := by
  have unit_case : ∀ opc payload, stepUnit opc payload s = .next t → s.sub ≤ payload.length ∧ ∃ b,
      t = countTo (payload.length + 1) (emit (decide (s.sub ≠ 0)) b (decide (s.sub < payload.length)) s) := by
    intro opc payload hs
    by_cases hle : s.sub ≤ payload.length
    · rw [stepUnit_eq hle] at hs; injection hs with hs; exact ⟨hle, _, hs.symm⟩
    · simp only [stepUnit, unitFrame_eq_none (Nat.lt_of_not_le hle), reduceCtorEq] at hs
  have stream_case : ∀ opc pl, stepStream opc pl s = .next t → s.sub ≤ planeBytes ∧ ∃ b,
      t = countTo (planeBytes + 1) (emit (decide (s.sub ≠ 0)) b (decide (s.sub < planeBytes)) s) := by
    intro opc pl hs
    by_cases hle : s.sub ≤ planeBytes
    · rw [stepStream_eq hle] at hs; injection hs with hs; exact ⟨hle, _, hs.symm⟩
    · obtain ⟨j, hj⟩ : ∃ j, s.sub = j + 1 := ⟨s.sub - 1, by omega⟩
      simp only [stepStream, hj] at hs
      rw [if_pos (by omega)] at hs
      cases hs
  cases i <;> simp only [Instr.format, reduceCtorEq] at hi <;>
    first
      | exact unit_case _ _ h
      | exact stream_case _ _ h

/-! ### Host accesses -/

/-- The state after an accepted REFRESH. -/
def accepted (s : State) : State := enter 0 (clearTimeouts { s with run := true })

/-- What a command answers: everything it can do. -/
inductive CommandEffect (c : Command) (s : State) : State → Prop where
  /-- Nothing changes: NOP, or a clipped SET_PIXEL. -/
  | nothing : CommandEffect c s s
  /-- An illegal code: only ILLEGAL is set. -/
  | illegal : CommandEffect c s { s with illegal := true }
  /-- Refused by the guard: only REJECTED is set. -/
  | rejected : s.run = true → CommandEffect c s { s with rejected := true }
  /-- GET_PIXEL, clipped. -/
  | clipped : CommandEffect c s { s with result := clippedResult }
  /-- GET_PIXEL of pixel `k`. -/
  | read (k : Nat) : k < nPix →
      CommandEffect c s { s with result := pixelResult (laneAt s.mem .primary k) (laneAt s.mem .accent k) }
  /-- SET_PIXEL of pixel `k`. -/
  | write (k : Nat) (code : BitVec 2) : s.run = false → k < nPix → code ≠ 0b10#2 →
      CommandEffect c s { s with mem := pixelMem s.mem k code }
  /-- CLEAR. -/
  | clear : s.run = false → CommandEffect c s { s with mem := s.mem.clear }
  /-- REFRESH. -/
  | refresh : s.run = false → c = .refresh → CommandEffect c s (accepted s)

theorem runCommand_cases {c : Command} {s t : State} (h : runCommand c s = .next t) : CommandEffect c s t := by
  have hrun := Bool.eq_false_or_eq_true s.run
  have hin := Bool.eq_false_or_eq_true (inCanvas (pixelX s) (pixelY s))
  cases c with
  | nop => injection h with h; subst h; exact .nothing
  | setPixel c =>
    simp only [runCommand, execSetPixel] at h
    split at h
    · injection h with h; subst h; exact .illegal
    · rcases hrun with hr | hr
      · rw [guarded_running hr] at h; injection h with h; subst h; exact .rejected hr
      · rw [guarded_idle hr] at h
        rcases hin with hin | hin
        · rw [setPixel_inCanvas c hin] at h; injection h with h; subst h
          exact .write _ _ hr (pixelIndex_lt hin) ‹_›
        · rw [setPixel_clipped s c hin] at h; injection h with h; subst h; exact .nothing
  | getPixel =>
    simp only [runCommand] at h
    rcases hin with hin | hin
    · rw [execGetPixel_inCanvas s hin] at h; injection h with h; subst h; exact .read _ (pixelIndex_lt hin)
    · rw [execGetPixel_clipped s hin] at h; injection h with h; subst h; exact .clipped
  | clear =>
    simp only [runCommand, execClear] at h
    rcases hrun with hr | hr
    · rw [guarded_running hr] at h; injection h with h; subst h; exact .rejected hr
    · rw [guarded_idle hr] at h; injection h with h; subst h; exact .clear hr
  | refresh =>
    simp only [runCommand, execRefresh] at h
    rcases hrun with hr | hr
    · rw [guarded_running hr] at h; injection h with h; subst h; exact .rejected hr
    · rw [guarded_idle hr] at h; injection h with h; subst h; exact .refresh hr rfl

/-- A command answers a next state, always. -/
theorem runCommand_next (c : Command) (s : State) : ∃ t, runCommand c s = .next t := by
  have hrun := Bool.eq_false_or_eq_true s.run
  have hin := Bool.eq_false_or_eq_true (inCanvas (pixelX s) (pixelY s))
  cases c with
  | nop => exact ⟨_, rfl⟩
  | setPixel c =>
    simp only [runCommand, execSetPixel]
    split
    · exact ⟨_, rfl⟩
    · rcases hrun with hr | hr
      · exact ⟨_, guarded_running hr _⟩
      · rw [guarded_idle hr]
        rcases hin with hin | hin
        · exact ⟨_, setPixel_inCanvas c hin⟩
        · exact ⟨_, setPixel_clipped s c hin⟩
  | getPixel =>
    rcases hin with hin | hin
    · exact ⟨_, execGetPixel_inCanvas s hin⟩
    · exact ⟨_, execGetPixel_clipped s hin⟩
  | clear =>
    simp only [runCommand, execClear]
    rcases hrun with hr | hr
    · exact ⟨_, guarded_running hr _⟩
    · exact ⟨_, guarded_idle hr _⟩
  | refresh =>
    simp only [runCommand, execRefresh]
    rcases hrun with hr | hr
    · exact ⟨_, guarded_running hr _⟩
    · exact ⟨_, guarded_idle hr _⟩

/-- What a host access answers: everything it can do, the command it launches among it. -/
inductive HostEffect (i : Instr) (s : State) : State → Prop where
  /-- A command, by its own instruction or launched by `WR CMD`. -/
  | command (c : Command) (t : State) : (i = c.toInstr ∨ ∃ w, i = .wrCmd w ∧ decodeCmd w = .ok c) →
      CommandEffect c s t → HostEffect i s t
  /-- An illegal word. -/
  | illegal (w : Word) : i = .wrCmd w → HostEffect i s { s with illegal := true }
  /-- An ignored write. -/
  | nothing : HostEffect i s s
  /-- A read that draws no level. -/
  | read (v : Word) : HostEffect i s { s with readData := v }
  /-- A read of `STATUS`. -/
  | status : i = .rdStatus → HostEffect i s { (sampleBusy s).2 with readData := statusWord (sampleBusy s).1 s }
  | argX (v : Word) : i = .wrArgX v → HostEffect i s { s with argX := v }
  | argY (v : Word) : i = .wrArgY v → HostEffect i s { s with argY := v }
  /-- A write of `STATUS`. -/
  | sticky (v : Word) : i = .wrStatus v → HostEffect i s (clearSticky v s)

theorem exec_host_cases {i : Instr} (hi : i.format ≠ .spi) {s t : State} (h : exec i s = .next t) : HostEffect i s t := by
  cases i <;> simp only [Instr.format, ne_eq, reduceCtorEq, not_false_eq_true, not_true_eq_false] at hi
  case nop => exact .command .nop _ (.inl rfl) (runCommand_cases (c := .nop) h)
  case setPixel c => exact .command (.setPixel c) _ (.inl rfl) (runCommand_cases (c := .setPixel c) h)
  case getPixel => exact .command .getPixel _ (.inl rfl) (runCommand_cases (c := .getPixel) h)
  case clear => exact .command .clear _ (.inl rfl) (runCommand_cases (c := .clear) h)
  case refresh => exact .command .refresh _ (.inl rfl) (runCommand_cases (c := .refresh) h)
  case wrCmd w =>
    simp only [exec, execWrCmd] at h
    split at h
    · exact .command _ _ (.inr ⟨w, rfl, ‹_›⟩) (runCommand_cases h)
    · injection h with h; subst h; exact .illegal w rfl
  all_goals injection h with h; subst h
  case rdStatus => exact .status rfl
  case wrArgX v => exact .argX v rfl
  case wrArgY v => exact .argY v rfl
  case wrStatus v => exact .sticky v rfl
  all_goals first
    | exact .nothing
    | exact .read _

/-- A host access answers a next state, always. -/
theorem exec_host_next {i : Instr} (hi : i.format ≠ .spi) (s : State) : ∃ t, exec i s = .next t := by
  cases i <;> simp only [Instr.format, ne_eq, reduceCtorEq, not_false_eq_true, not_true_eq_false] at hi
  case nop => exact runCommand_next .nop s
  case setPixel c => exact runCommand_next (.setPixel c) s
  case getPixel => exact runCommand_next .getPixel s
  case clear => exact runCommand_next .clear s
  case refresh => exact runCommand_next .refresh s
  case wrCmd w =>
    simp only [exec, execWrCmd]
    split
    · exact runCommand_next _ s
    · exact ⟨_, rfl⟩
  all_goals exact ⟨_, rfl⟩

/-! ### The sequencer and one step -/

/-- What a step of the machine is, on the state left when its turn is used up. -/
inductive StepKind (s : State) : State → Prop where
  /-- A host access. -/
  | host (i : Instr) (s' t : State) : i.format = .port → s' = { s with turns := s.turns.tail } →
      (∃ ctrl data rest, s.turns = .host ctrl data :: rest ∧ i = decodePort ctrl data) →
      exec i s' = .next t → StepKind s t
  /-- A frame of an SPI unit. -/
  | unit (i : Instr) (s' t : State) : s.run = true → entryOf s.pc = .unit i →
      s' = { s with turns := s.turns.tail } → exec i s' = .next t → StepKind s t
  /-- A step of another entry. -/
  | micro (e : Entry) (s' t : State) : s.run = true → entryOf s.pc = e → (∀ i, e ≠ .unit i) →
      s' = { s with turns := s.turns.tail } → stepMicro e s' = .next t → StepKind s t
  /-- No enabled step. -/
  | idle : StepKind s { s with turns := s.turns.tail }

theorem decodePort_format (ctrl : BitVec 4) (data : Word) : (decodePort ctrl data).format = .port := by
  unfold decodePort; split <;> rfl

theorem step_cases {s t : State} (h : step s = .next t) : StepKind s t := by
  have entry : ∀ s', s' = { s with turns := s.turns.tail } → s.run = true →
      (match fetchEntry s' with
        | .instr i t => exec i t
        | .micro e t => stepMicro e t
        | .idle t => .next t) = .next t → StepKind s t := by
    intro s' hs' hr hm
    have hpc : s'.pc = s.pc := by rw [hs']
    unfold fetchEntry at hm
    split at hm
    · rename_i heq
      split at heq
      · injection heq with h1 h2; subst h1; subst h2
        exact .unit _ s' t hr (by rw [← hpc]; assumption) hs' hm
      · cases heq
    · rename_i heq
      split at heq
      · cases heq
      · injection heq with h1 h2; subst h2
        refine .micro _ s' t hr ?_ ?_ hs' hm
        · rw [← h1, hpc]
        · intro i hi; subst h1; simp_all
    · rename_i heq
      split at heq <;> cases heq
  unfold step fetch at h
  cases hT : s.turns with
  | nil =>
    simp only [hT] at h
    have hs : s = { s with turns := s.turns.tail } := by rw [hT]; simp only [List.tail_nil]; rw [← hT]
    rcases Bool.eq_false_or_eq_true s.run with hr | hr
    · simp only [hr, if_true] at h; exact entry s hs hr h
    · simp only [hr, Bool.false_eq_true, if_false] at h
      injection h with h; subst h; exact (congrArg (StepKind s) hs).mpr .idle
  | cons turn rest =>
    have hs : ({ s with turns := rest } : State) = { s with turns := s.turns.tail } := by rw [hT]; rfl
    have seq : ∀ tick, (match sequencerTurn tick { s with turns := rest } with
        | .instr i t => exec i t
        | .micro e t => stepMicro e t
        | .idle t => .next t) = .next t → StepKind s t := by
      intro tick hm
      unfold sequencerTurn at hm
      by_cases hc : (({ s with turns := rest } : State).run && (waitsForTick { s with turns := rest } == tick)) = true
      · rw [if_pos hc] at hm
        exact entry _ hs (by simp only [Bool.and_eq_true] at hc; exact hc.1) hm
      · rw [if_neg hc] at hm; injection hm with hm; rw [← hm, hs]; exact .idle
    cases turn with
    | host ctrl data =>
      simp only [hT] at h
      exact .host _ _ t (decodePort_format ctrl data) hs ⟨ctrl, data, rest, hT, rfl⟩ h
    | sequencer => simp only [hT] at h; exact seq false h
    | tick => simp only [hT] at h; exact seq true h

/-- A micro-program step that answers a next state is one of the four kinds that have a step. -/
theorem stepMicro_cases {e : Entry} {s t : State} (h : stepMicro e s = .next t) :
    (∃ v, e = .pin v ∧ t = stepPin v s) ∨ (∃ d, e = .delay d ∧ t = stepDelay d s) ∨
      (∃ k, e = .busyWait k ∧ t = stepBusyWait k s) ∨ (e = .pass ∧ t = stepPass s) := by
  cases e <;> simp only [stepMicro, reduceCtorEq] at h <;> injection h with h <;> subst h
  · exact .inl ⟨_, rfl, rfl⟩
  · exact .inr (.inl ⟨_, rfl, rfl⟩)
  · exact .inr (.inr (.inl ⟨_, rfl, rfl⟩))
  · exact .inr (.inr (.inr ⟨rfl, rfl⟩))

theorem countTo_of_eq {n : Nat} {s : State} (h : s.sub + 1 = n) : countTo n s = complete s := by
  unfold countTo; rw [if_pos h]; rfl

theorem countTo_of_ne {n : Nat} {s : State} (h : s.sub + 1 ≠ n) : countTo n s = { s with sub := s.sub + 1 } := by
  unfold countTo; rw [if_neg h]

/-- The count either moves on inside the entry or completes it. -/
theorem countTo_cases (n : Nat) (s : State) :
    (s.sub + 1 = n ∧ countTo n s = complete s) ∨ (s.sub + 1 ≠ n ∧ countTo n s = { s with sub := s.sub + 1 }) := by
  by_cases h : s.sub + 1 = n
  · exact .inl ⟨h, countTo_of_eq h⟩
  · exact .inr ⟨h, countTo_of_ne h⟩

/-! ### Runs -/

theorem runSteps_succ (n : Nat) (s : State) : runSteps (n + 1) s = (match step s with
    | .next t => runSteps n t
    | .fault f => .fault f
    | .refused r => .refused r) := by
  have hs : Sys2Proof.core.step s = step s := rfl
  simp only [runSteps, Host.Core.run, hs]
  cases step s <;> rfl

/-- A run of one step more, whose first step answers. -/
theorem runSteps_next {n : Nat} {s t : State} (h : step s = .next t) : runSteps (n + 1) s = runSteps n t := by
  rw [runSteps_succ, h]

/-- Two runs one after the other. -/
theorem runSteps_add {m n : Nat} {s t : State} (h : runSteps m s = .next t) : runSteps (m + n) s = runSteps n t := by
  induction m generalizing s with
  | zero => injection h with h; subst h; rw [Nat.zero_add]
  | succ m ih =>
    rw [runSteps_succ] at h
    rw [Nat.add_right_comm, runSteps_succ]
    split at h
    · exact ih h
    · cases h
    · cases h

/-- Completing an entry before the last leaves the next one fresh. -/
theorem freshEntry_complete {s : State} (hr : s.run = true) (hT : s.turns = []) (hn : entryOf (nextEntry s.pc) ≠ .fin) :
    freshEntry (complete s) :=
  ⟨by rw [complete_run, if_neg hn]; exact hr, rfl, rfl, rfl, hT⟩

end Sys2Proof.Machine
end

