-- ==== Sys2Proof/Tests/Slice0.lean ====
section
/-! SUPPORT. The model's own tests. Expected values come from 95_test_vectors.md (named V-...) and from the rules
named; each test is one step on a small state. The last section gives, for each statement with hypotheses, states and
operands that meet them (the statements that have none are not listed there). -/

namespace Sys2Proof.Machine

/-! ### Small states -/

/-- The engine after reset, configured as `CFG_EX`. -/
def atRest : State := { State.reset with cfg := exampleCfg }

/-- A refresh just arrived at entry `e`. -/
def running (e : Fin 21) : State := enter e { atRest with run := true }

/-- At rest with the coordinates of a pixel command. -/
def atPixel (x y : Word) : State := { atRest with argX := x, argY := y }

/-- A field of the next state. -/
def field {α : Type} (f : State → α) : Result → Option α
  | .next t => some (f t)
  | .fault _ | .refused _ => none

/-- The bytes of a pixel's address in both planes, after a step. -/
def bytesAt (k : Nat) (s : State) : Byte × Byte := (s.mem.get (k / 8), s.mem.get (15000 + k / 8))

/-! ### Well-formedness -/

/-- 30_encoding.md R49: code 0b10 is no colour. -/
theorem test_wf_instr : Instr.wf (.setPixel 0b10) = false ∧ Instr.wf (.setPixel 0b11) = true
    ∧ Command.wf (.setPixel 0b10) = false ∧ Command.wf .refresh = true := by decide

/-- 00_scope.md R6: each parameter below or above its constraint is refused. -/
theorem test_wf_cfg : exampleCfg.wf = true ∧ Cfg.wf { exampleCfg with tRstLow := 19 } = false
    ∧ Cfg.wf { exampleCfg with tBoot := 199 } = false ∧ Cfg.wf { exampleCfg with tBusyMax := 9999 } = false
    ∧ Cfg.wf { exampleCfg with tPoll := 0 } = false ∧ Cfg.wf { exampleCfg with fSclk := 0 } = false
    ∧ Cfg.wf { exampleCfg with fSclk := 4000001 } = false := by decide

/-- Two equal opcodes are refused. -/
theorem test_wf_distinct : exampleCommands.distinct = true
    ∧ PanelCommands.distinct { exampleCommands with opcDuc := 0x12 } = false := by decide

/-- The canonical form refuses a repeated address, a cell at its reset value and an address that does not exist. -/
theorem test_wf_memory : Memory.wf [(0, 0x7F#8), (15000, 0x40#8)] = true ∧ Memory.wf [(3, 0x01#8), (3, 0x02#8)] = false
    ∧ Memory.wf [(0, 0xFF#8)] = false ∧ Memory.wf [(30000, 0x01#8)] = false := by decide

/-! ### Decoding -/

/-- V-DEC: the seven legal words. -/
theorem test_decode_cmd : decodeTableWord 32 0x00000000 = some .nop
    ∧ decodeTableWord 32 0x00000001 = some (.setPixel 0b00) ∧ decodeTableWord 32 0x00000011 = some (.setPixel 0b01)
    ∧ decodeTableWord 32 0x00000031 = some (.setPixel 0b11) ∧ decodeTableWord 32 0x00000002 = some .getPixel
    ∧ decodeTableWord 32 0x00000003 = some .clear ∧ decodeTableWord 32 0x00000004 = some .refresh := by decide

/-- V-DEC: illegal words. -/
theorem test_decode_cmd_illegal : [0x00000021, 0x00000041, 0x00000012, 0x00000005, 0x0000000F, 0x00000010, 0x80000003,
    0xFFFFFFFF].map (decodeTableWord 32) = List.replicate 8 none := by decide

/-- 30_encoding.md R45: control bits `{WE, IDX}` of the reads. -/
theorem test_decode_port_read : [0b0000, 0b0001, 0b0010, 0b0011, 0b0100, 0b0101, 0b0110, 0b0111].map (decodeTableWord 8)
    = [some .rdCmd, some .rdArgX, some .rdArgY, some .rdResult, some .rdStatus, some .rdRsvd5, some .rdRsvd6,
       some .rdRsvd7] := by decide

/-- 30_encoding.md R45: control bits of the writes. -/
theorem test_decode_port_write : [0b1000, 0b1001, 0b1010, 0b1011, 0b1100, 0b1101, 0b1110, 0b1111].map (decodeTableWord 8)
    = [some (.wrCmd 0), some (.wrArgX 0), some (.wrArgY 0), some (.wrResult 0), some (.wrStatus 0), some (.wrRsvd5 0),
       some (.wrRsvd6 0), some (.wrRsvd7 0)] := by decide

/-- `DATA` above the control byte, least significant byte first; bits 7 to 4 of the control byte do not exist. -/
theorem test_decode_port_data : decodeTableWord 40 0x1234567809 = some (.wrArgX 0x12345678)
    ∧ decodeTableWord 40 0x0000000319 = none := by decide

/-- 30_encoding.md R56: the opcodes of `CFG_EX`. -/
theorem test_decode_spi : [0x12, 0x21, 0x3C, 0x11, 0x44, 0x45, 0x4E, 0x4F, 0x24, 0x26, 0x20, 0x10].map (decodeTableWord 8)
    = [some .swreset, some .duc, some .border, some .dem, some .xwin, some .ywin, some .xcnt, some .ycnt, some .wramP,
       some .wramA, some .activate, some .dsleep] := by decide

/-- 30_encoding.md R48: a frame with tag 1 is data; a byte that is no opcode is no command. -/
theorem test_decode_spi_reject : (decodeSpi exampleCommands true 0x12 = .error (.dataByte 0x12))
    ∧ decodeSpi exampleCommands false 0x13 = .error (.unknownOpcode 0x13)
    ∧ decode exampleCommands .spi [0x12#8] = .error .truncated := ⟨rfl, rfl, rfl⟩

/-! ### Commands -/

/-- V-IDX-7, V-IDX-11: byte, bit and mask. -/
theorem test_index : (pixelIndex 5 5, byteOf 2005, bitOf 2005, maskOf 2005) = (2005, 250, 2, 0x04#8)
    ∧ (pixelIndex 399 299, byteOf 119999, bitOf 119999, maskOf 119999) = (119999, 14999, 0, 0x01#8) := by decide

/-- V-SET-3 and V-SET-4: the last pixel BLACK, and RED from reset. -/
theorem test_setPixel : field (bytesAt 119999) (exec (.setPixel 0b00) (atPixel 399 299)) = some (0xFE, 0x00)
    ∧ field (bytesAt 1) (exec (.setPixel 0b11) (atPixel 1 0)) = some (0xFF, 0x40) := by decide

/-- V-CLIP-1, V-CLIP-2, V-CLIP-3: no plane byte changes. -/
theorem test_setPixel_clips : [(0xFFFFFFFF, 0), (0x190, 0), (0, 0x12C)].map
    (fun p => field State.mem (exec (.setPixel 0b11) (atPixel p.1 p.2))) = [some [], some [], some []] := by decide

/-- V-GET-1, V-GET-2, V-GET-3. -/
theorem test_getPixel : field State.result (exec .getPixel (atPixel 0xFFFFFFFF 0)) = some 0x10
    ∧ field State.result (exec .getPixel atRest) = some 0x05
    ∧ field State.result (exec .getPixel { atRest with mem := [(0, 0x7F#8), (15000, 0x80#8)] }) = some 0x0A := by decide

/-- V-CLR-1, V-CLR-3. -/
theorem test_clear : field State.mem (exec .clear { atRest with mem := [(0, 0x7F#8), (17265, 0x10#8)] }) = some []
    ∧ field (fun t => (t.mem, t.rejected)) (exec .clear { running 4 with mem := [(0, 0x7F#8)] })
      = some ([(0, 0x7F#8)], true) := by decide

/-- V-NOP-1, with `RUN` = 1. -/
theorem test_nop : field id (exec .nop (running 4)) = some (running 4) := by decide

/-- V-DEC-10, V-ST-11: the flags of the last refresh are cleared. -/
theorem test_refresh : field (statusWord false) (exec .refresh { atRest with toHwrst := true, toSwrst := true, toAct := true, state := .sleeping, pc := 20 })
    = some 0x11 := by decide

/-- V-GRD-3: the running refresh is unchanged. -/
theorem test_refresh_refused : field id (exec .refresh (running 18)) = some { running 18 with rejected := true } := by decide

/-! ### Port accesses -/

/-- V-DEC-4, V-GRD-6: the illegal check comes first. -/
theorem test_wrCmd : field (fun t => (t.illegal, t.rejected)) (exec (.wrCmd 0x21) atRest) = some (true, false)
    ∧ field (fun t => (t.illegal, t.rejected)) (exec (.wrCmd 0x12) (running 4)) = some (true, false) := by decide

/-- V-PORT-1: the command register reads 0. -/
theorem test_rdCmd : field State.readData (exec .rdCmd { atRest with readData := 5 }) = some 0 := by decide

/-- V-PORT-2. -/
theorem test_argX : field State.argX (exec (.wrArgX 0xFFFFFFFF) (running 4)) = some 0xFFFFFFFF
    ∧ field State.readData (exec .rdArgX (atPixel 0xFFFFFFFF 7)) = some 0xFFFFFFFF := by decide

/-- V-PORT-3. -/
theorem test_argY : field State.argY (exec (.wrArgY 0x12B) atRest) = some 0x12B
    ∧ field State.readData (exec .rdArgY (atPixel 7 0x12B)) = some 0x12B := by decide

/-- V-PORT-4: the write is ignored; 43_host_port.md R111. -/
theorem test_result : field State.result (exec (.wrResult 0x12345678) atRest) = some 0
    ∧ field State.readData (exec .rdResult { atRest with result := 0x0F }) = some 0x0F := by decide

/-- V-PORT-5, for the three reserved indices. -/
theorem test_reserved : [.rdRsvd5, .rdRsvd6, .rdRsvd7].map (fun i => field State.readData (exec i { atRest with readData := 9 }))
      = [some 0, some 0, some 0]
    ∧ [.wrRsvd5 0x12345678, .wrRsvd6 0x12345678, .wrRsvd7 0x12345678].map (fun i => field id (exec i atRest))
      = [some atRest, some atRest, some atRest] := by decide

/-- V-ST-9, and the live level of `BUSY` without an event. -/
theorem test_rdStatus : field (fun t => (t.readData, t.trace)) (exec .rdStatus { atRest with state := .sleeping, toAct := true, busyIn := [true] })
    = some (0x487, []) := by decide

/-- V-PORT-6, V-PORT-7, V-PORT-8, V-PORT-9. -/
theorem test_wrStatus : [0x000000FF, 0x00000100, 0x00000300, 0xFFFFFFFF].map
    (fun v => field (fun t => (t.rejected, t.illegal, t.toAct))
      (exec (.wrStatus v) { atRest with rejected := true, illegal := true, toAct := true }))
    = [some (true, true, true), some (false, true, true), some (false, false, true), some (false, false, true)] := by decide

/-- V-ST-2 to V-ST-8: STATUS along a refresh. -/
theorem test_status_words : (List.finRange 21).map (fun e => statusWord false (running e))
    = [0x11, 0x11, 0x11, 0x11, 0x11, 0x12, 0x12, 0x12, 0x12, 0x12, 0x12, 0x12, 0x12, 0x12, 0x13, 0x14, 0x15, 0x16, 0x16,
       0x16, 0x07] := by decide

/-! ### The SPI link -/

/-- V-SPI-1, V-SPI-2: `DIN` at the rising edges, and the pins after. -/
theorem test_frame : dinAtRisingEdges true (frameDrives false 0x12 false) = [false, false, false, true, false, false, true, false]
    ∧ (fun t => (t.csN, t.sclk, t.dc, t.din)) (emit true 0xA5 false atRest) = (true, false, true, true) := by decide

/-- 41_spi_protocol.md R69: with `BATCH_DATA` chip-select stays low between data bytes, and only there. -/
theorem test_batch : [(false, true), (true, true), (true, false)].map
    (fun p => (emit p.1 0x00 p.2 { atRest with cfg := { exampleCfg with batchData := true } }).csN) = [true, false, true] := by decide

/-- V-TRACE-1, frames 0 to 20 and the command frames after: the opcode of each unit, then the position. -/
theorem test_unit_opcodes : [(Instr.swreset, (5 : Fin 21)), (.duc, 7), (.border, 8), (.dem, 9), (.xwin, 10), (.ywin, 11), (.xcnt, 12),
      (.ycnt, 13), (.wramP, 15), (.wramA, 16), (.activate, 17), (.dsleep, 19)].map
      (fun p => field (fun t => (t.trace, t.pc, t.sub)) (exec p.1 (running p.2)))
    = [some ([.frame false 0x12], 6, 0), some ([.frame false 0x21], 7, 1), some ([.frame false 0x3C], 8, 1),
       some ([.frame false 0x11], 9, 1), some ([.frame false 0x44], 10, 1), some ([.frame false 0x45], 11, 1),
       some ([.frame false 0x4E], 12, 1), some ([.frame false 0x4F], 13, 1), some ([.frame false 0x24], 15, 1),
       some ([.frame false 0x26], 16, 1), some ([.frame false 0x20], 18, 0), some ([.frame false 0x10], 19, 1)] := by decide

/-- V-TRACE-1: the last frame of each unit with a payload, and the first data byte of each stream (of planes that
differ from reset). -/
theorem test_unit_data : [(Instr.duc, (7 : Fin 21), 2), (.border, 8, 1), (.dem, 9, 1), (.xwin, 10, 2), (.ywin, 11, 4), (.xcnt, 12, 1),
      (.ycnt, 13, 2), (.wramP, 15, 1), (.wramA, 16, 15000), (.dsleep, 19, 1)].map
      (fun p => field (fun t => (t.trace, t.pc)) (exec p.1 { running p.2.1 with sub := p.2.2, mem := [(0, 0x7F#8), (29999, 0x01#8)] }))
    = [some ([.frame true 0x00], 8), some ([.frame true 0x05], 9), some ([.frame true 0x03], 10), some ([.frame true 0x31], 11),
       some ([.frame true 0x01], 12), some ([.frame true 0x00], 13), some ([.frame true 0x00], 14), some ([.frame true 0x7F], 15),
       some ([.frame true 0x01], 17), some ([.frame true 0x01], 20)] := by decide

/-- V-TRACE-1, frames 1 to 20. -/
theorem test_init_frames : framesOf (initTrace exampleCommands)
    = [(false, 0x21), (true, 0x00), (true, 0x00), (false, 0x3C), (true, 0x05), (false, 0x11), (true, 0x03), (false, 0x44),
       (true, 0x00), (true, 0x31), (false, 0x45), (true, 0x00), (true, 0x00), (true, 0x2B), (true, 0x01), (false, 0x4E),
       (true, 0x00), (false, 0x4F), (true, 0x00), (true, 0x00)] := by decide

/-! ### The sequencer -/

/-- V-BW-1, V-BW-2: the sample decides between the next entry and the poll. -/
theorem test_busyWait_sample : field (fun t => (t.pc, t.bw, t.trace)) (step { running 4 with busyIn := [false] })
      = some (5, .sample, [.sample false])
    ∧ field (fun t => (t.pc, t.bw, t.trace)) (step { running 4 with busyIn := [true] })
      = some (4, .poll, [.sample true]) := by decide

/-- V-BW-4, V-BW-5: at the ceiling a low sample sets no flag, a high one sets the flag of its wait. -/
theorem test_busyWait_ceiling : field (fun t => (t.pc, t.toAct)) (step { running 18 with wait := 10000, busyIn := [false] })
      = some (19, false)
    ∧ field (fun t => (t.pc, t.toHwrst, t.toSwrst, t.toAct)) (step { running 18 with wait := 10000, busyIn := [true] })
      = some (19, false, false, true) := by decide

/-- V-BW-6: with `T_POLL` = 3 the third tick ends the poll. -/
theorem test_busyWait_poll : field (fun t => (t.bw, t.wait, t.sub))
      (step { running 4 with cfg := { exampleCfg with tPoll := 3 }, bw := .poll, sub := 2, wait := 2 }) = some (.sample, 3, 3)
    ∧ field (fun t => (t.bw, t.wait, t.sub))
      (step { running 4 with cfg := { exampleCfg with tPoll := 3 }, bw := .poll, sub := 1, wait := 1 }) = some (.poll, 2, 2) := by decide

/-- V-BW-7: the settle time comes first. -/
theorem test_busyWait_settle : (enter 4 { atRest with cfg := { exampleCfg with tBusySettle := 5 } }).bw = .settle
    ∧ field (fun t => (t.bw, t.sub)) (step { running 4 with cfg := { exampleCfg with tBusySettle := 5 }, bw := .settle, sub := 4 })
      = some (.sample, 0) := by decide

/-- 42_refresh_sequencer.md R88: the reset pulse. -/
theorem test_pin : field (fun t => (t.pc, t.rstN, t.trace)) (step (running 0)) = some (1, false, [.rst false])
    ∧ field (fun t => (t.pc, t.rstN, t.trace)) (step { running 2 with rstN := false }) = some (3, true, [.rst true]) := by decide

/-- 42_refresh_sequencer.md R89: the twentieth tick ends the reset pulse, and a turn without a tick changes nothing. -/
theorem test_delay : field (fun t => (t.pc, t.sub)) (step { running 1 with sub := 19, turns := [.tick] }) = some (2, 0)
    ∧ field (fun t => (t.pc, t.sub, t.trace)) (step { running 1 with sub := 19, turns := [.sequencer] }) = some (1, 19, []) := by decide

/-- 42_refresh_sequencer.md R92, R93: `READY` is passed, `SLEEPING` ends the refresh. -/
theorem test_pass_end : field (fun t => (t.pc, t.state)) (step (running 14)) = some (15, .transferringBlack)
    ∧ field (fun t => (t.pc, t.state, t.run)) (step { running 19 with sub := 1 }) = some (20, .sleeping, false) := by decide

/-- 70_reset_and_hazards.md R130: after reset, with nothing placed, the engine rests. -/
theorem test_rest : step State.reset = .next State.reset := rfl

/-- 60_exceptions.md R129: the RAM address wraps from the last byte to (0, 0), and a sleeping panel ignores frames. -/
theorem test_panel : ∀ q : Panel,
    (panelAdvance { q with cx := 49, cy := 299, xWin := (0, 49), yWin := (0, 299), incr := true }).cx = 0
    ∧ (panelAdvance { q with cx := 49, cy := 299, xWin := (0, 49), yWin := (0, 299), incr := true }).cy = 0
    ∧ panelFrame exampleReading exampleCommands false 0x20
        { q with asleep := true, unsure := false, busy := false, resetLow := false }
      = { q with asleep := true, unsure := false, busy := false, resetLow := false } :=
  fun _ => ⟨rfl, rfl, rfl⟩

/-- U6 and R137: a frame after a high sample leaves an open state, until the pulse of `RST_N`; N9: so does a data byte
outside every unit. -/
theorem test_panel_lost : ∀ q : Panel,
    (panelAfter exampleReading exampleCommands [.sample true, .frame false 0x12] q).unsure = true
    ∧ (panelAfter exampleReading exampleCommands [.sample true, .frame false 0x12, .rst false, .rst true] q).unsure = false
    ∧ panelAfter exampleReading exampleCommands [.rst false, .rst true, .sample false, .frame true 0x00] q
      = panelLost q.woken := by
  intro q
  cases h : q.unsure <;> simp [panelEvent, panelFrame, panelLost, panelData, Panel.woken, h]

/-- R56, R76 to R80 and R140: how `CFG_EX` reads, and payloads that do not place the planes. -/
theorem test_reading : exampleReading.selectsDual exampleCommands.plDuc.bytes = true
    ∧ exampleReading.selectsDual [0x40, 0x00] = false ∧ exampleReading.placesPlanes exampleCommands = true
    ∧ exampleReading.placesPlanes { exampleCommands with plXcnt := ⟨0x05, []⟩ } = false
    ∧ exampleReading.coversRam { exampleCommands with plYwin := ⟨0x00, [0x00, 0x2B, 0x00]⟩ } = false
    ∧ exampleReading.coversRam { exampleCommands with plDem := ⟨0x02, []⟩ } = false := by decide

/-! ### Placed words run as the first instruction after reset -/

theorem test_fetch_cmd : field (statusWord false) (step (State.reset.withFetchWord 32 0x00000004)) = some 0x11 := by decide

theorem test_fetch_port : field State.argX (step (State.reset.withFetchWord 40 0x0000019009)) = some 0x190 := by decide

theorem test_fetch_spi : field (fun t => (t.pc, t.sub)) (step (State.reset.withFetchWord 8 0x3C)) = some (8, 1) := by decide

/-! ### States and operands that meet the hypotheses of the statements -/

/-- The invariant, of a state whose planes are those of reset. -/
theorem inv_of_checks {s : State} (hm : s.mem = [])
    (h : (s.cfg.wf && resultOk s.result && phaseOk s && (!s.run || positionOk s) && pinsOk s) = true) : EngineInv s := by
  simp only [Bool.and_eq_true] at h
  obtain ⟨⟨⟨⟨h1, h2⟩, h3⟩, h4⟩, h5⟩ := h
  refine ⟨h1, by rw [hm]; rfl, by rw [hm]; exact planeInv_of_unlisted (fun _ _ => rfl), h2, h3, fun hr => ?_, h5⟩
  rw [hr] at h4; exact h4

/-- An operand of each format. -/
theorem test_meets_DecodeEncodeAgree : Instr.wf (.setPixel 0b11) = true ∧ Instr.wf (.wrArgX 5) = true
    ∧ Instr.wf .ywin = true ∧ Instr.ywin.format = .spi ∧ exampleCommands.distinct = true := by decide

/-- A host transaction; a unit with no turn listed, and with the sequencer's turn. -/
theorem test_meets_StepRunsTheNextInstruction : (∃ rest, { atRest with turns := [.host 0b1001#4 7] }.turns = .host 0b1001#4 7 :: rest)
    ∧ decode exampleCommands .port ((0#4 ++ 0b1001#4 : BitVec 8) :: bytesOfWord 7) = .ok (.wrArgX 7, [])
    ∧ (running 8).run = true ∧ entryOf (running 8).pc = .unit .border ∧ (running 8).turns = []
    ∧ { running 8 with turns := [.sequencer] }.turns = .sequencer :: [] := ⟨⟨[], rfl⟩, rfl, rfl, rfl, rfl, rfl⟩

/-- An entry with no turn listed, one without a tick and one with a tick. -/
theorem test_meets_StepRunsTheNextEntry : (running 2).run = true ∧ entryOf (running 2).pc = .pin true ∧ (running 2).turns = []
    ∧ waitsForTick { running 2 with turns := [.sequencer] } = false ∧ entryOf (running 3).pc = .delay .boot
    ∧ waitsForTick { running 3 with turns := [.tick] } = true := by decide

/-- No refresh; a refresh that waits for a tick; a tick nobody waits for. -/
theorem test_meets_StepWithoutEnabledAgent : atRest.run = false ∧ atRest.turns = []
    ∧ waitsForTick { running 1 with turns := [.sequencer] } = true
    ∧ waitsForTick { running 0 with turns := [.tick] } = false := by decide

/-- The corners of the canvas, and the two coordinates just outside it. -/
theorem test_meets_PixelAddressing : inCanvas 0 0 = true ∧ inCanvas 399 299 = true ∧ inCanvas 400 0 = false
    ∧ inCanvas 0 (-1) = false := by decide

/-- Two corners with their own bytes, and the last lane. -/
theorem test_meets_LanesAndCoordinatesMatch : inCanvas 399 299 = true ∧ byteOf (pixelIndex 399 299) = 14999
    ∧ bitOf (pixelIndex 399 299) = 0 := by decide

/-- Each clause: the illegal code, a refresh running, a clipped pixel, a pixel at the last corner. -/
theorem test_meets_SetPixelEffect : (0b11#2 ≠ 0b10#2) ∧ (running 4).run = true ∧ atRest.run = false
    ∧ inCanvas (atPixel 400 0).argX.toInt (atPixel 400 0).argY.toInt = false
    ∧ (atPixel 399 299).mem.wf = true
    ∧ inCanvas (atPixel 399 299).argX.toInt (atPixel 399 299).argY.toInt = true := by decide

/-- A clipped coordinate and one in the canvas. -/
theorem test_meets_GetPixelEffect : inCanvas (atPixel 0 0xFFFFFFFF).argX.toInt (atPixel 0 0xFFFFFFFF).argY.toInt = false
    ∧ inCanvas (atPixel 399 299).argX.toInt (atPixel 399 299).argY.toInt = true := by decide

/-- RED at a corner of canonical planes. -/
theorem test_meets_SetPixelThenGetPixel : (atPixel 399 299).run = false ∧ (atPixel 399 299).mem.wf = true
    ∧ (0b11#2 ≠ 0b10#2) ∧ inCanvas (atPixel 399 299).argX.toInt (atPixel 399 299).argY.toInt = true := by decide

/-- Both clauses, and a coordinate of the canvas for the pixels read back. -/
theorem test_meets_ClearEffect : (running 4).run = true ∧ atRest.run = false
    ∧ inCanvas (BitVec.toInt 0#32) (BitVec.toInt 299#32) = true := by decide

/-- A canonical memory with a cell of each plane. -/
theorem test_meets_ClearIsTheByteLoop : Memory.wf [(0, 0x7F#8), (29999, 0x01#8)] = true := by decide

/-- Both clauses. -/
theorem test_meets_RefreshEffect : (running 18).run = true ∧ atRest.run = false := by decide

/-- A running refresh, and the answer of GET_PIXEL there. -/
theorem test_meets_GuardDuringRefresh : (running 18).run = true
    ∧ ∃ t, exec (.wrCmd 0x00000002#32) { running 18 with run := false } = .next t := ⟨rfl, _, rfl⟩

/-- A scheduled level and an empty schedule. -/
theorem test_meets_StatusRead : { atRest with busyIn := [true, false] }.busyIn = true :: [false] ∧ atRest.busyIn = [] := by decide

/-- A word with a set bit above 5 is illegal. -/
theorem test_meets_IllegalWordOnlySetsIllegal : ¬ legal 0x00000041#32 := by
  rintro (h | ⟨h, -, -⟩ | h | h | h)
  · exact absurd h (by decide)
  · exact absurd (h 6 (by decide)) (by decide)
  all_goals exact absurd h (by decide)

/-- A pair of the list. -/
theorem test_meets_LegalWordLaunchesItsCommand : (0x00000031#32, Command.setPixel 0b11#2) ∈ legalWords := by decide

/-- A read of `STATUS` and another read, that answer. -/
theorem test_meets_ReadsHaveNoSideEffect : (0b0100#4).getLsbD 3 = false ∧ (∃ t, exec (decodePort 0b0100#4 0) atRest = .next t)
    ∧ (0b0011#4 ≠ 0b0100#4) ∧ (∃ t, exec (decodePort 0b0011#4 0) atRest = .next t) :=
  ⟨rfl, ⟨_, rfl⟩, by decide, ⟨_, rfl⟩⟩

/-- Each pseudo-instruction as the turns of a state, RED for `SETPX`. -/
theorem test_meets_PseudoInstructionsRun : (0b11#2 ≠ 0b10#2)
    ∧ (∀ p : Pseudo, ({ atRest with turns := p.turns ++ [.tick] } : State).turns = p.turns ++ [.tick])
    ∧ ({ running 1 with turns := [waitIdleTurn] } : State).turns = waitIdleTurn :: [] := ⟨by decide, fun _ => rfl, rfl⟩

/-- 30_encoding.md R58: the words `SETPX` and `CLRFLAGS` write. -/
theorem test_pseudo : (Pseudo.setpx 3 0 0b11).turns
      = [.host 0b1001 0x00000003, .host 0b1010 0x00000000, .host 0b1000 0x00000031]
    ∧ Pseudo.clrflags.turns = [.host 0b1100 0x00000300] := by decide

/-- The engine as built does not batch. -/
theorem test_meets_FrameWaveform : atRest.cfg.batchData = false := rfl

/-- The first and the last position of a unit with a payload and of one without. -/
theorem test_meets_UnitsSendTheirFrames :
    ((running 11).cfg.cmds.opcYwin :: (running 11).cfg.cmds.plYwin.bytes)[(running 11).sub]? = some 0x45#8
    ∧ ((running 11).cfg.cmds.opcYwin :: (running 11).cfg.cmds.plYwin.bytes)[{ running 11 with sub := 4 }.sub]? = some 0x01#8
    ∧ ((running 5).cfg.cmds.opcSwreset :: [])[(running 5).sub]? = some 0x12#8 := by decide

/-- The first and the last position of a stream. -/
theorem test_meets_StreamsSendThePlanes (s : State) :
    (s.cfg.cmds.opcWramA :: (List.range 15000).map (fun i => s.mem.get (15000 + i)))[0]? = some s.cfg.cmds.opcWramA
    ∧ (s.cfg.cmds.opcWramA :: (List.range 15000).map (fun i => s.mem.get (15000 + i)))[15000]? = some (s.mem.get 29999) := by
  constructor
  · rfl
  · rw [List.getElem?_cons_succ, List.getElem?_map, List.getElem?_range (by decide)]; rfl

/-- One past the last frame of a unit and of a stream. -/
theorem test_meets_UnitsStopPastTheirLastFrame : Instr.ywin.format = .spi ∧ Instr.wramP.format = .spi
    ∧ lastPosition (running 11).cfg.cmds .ywin < { running 11 with sub := 5 }.sub
    ∧ lastPosition (running 15).cfg.cmds .wramP < { running 15 with sub := 15001 }.sub := by decide

/-- An entry just entered is fresh. -/
theorem fresh_running (e : Fin 21) (h : e ≠ 20) : freshEntry (running e) :=
  ⟨by revert h; revert e; decide, rfl, rfl, rfl, rfl⟩

/-- A unit with a payload and one without. -/
theorem test_meets_WholeUnitIsSent : (freshEntry (running 11) ∧ entryOf (running 11).pc = .unit .ywin
      ∧ encodeSpi (running 11).cfg.cmds .ywin = some 0x45#8)
    ∧ (freshEntry (running 17) ∧ entryOf (running 17).pc = .unit .activate
      ∧ encodeSpi (running 17).cfg.cmds .activate = some 0x20#8) :=
  ⟨⟨fresh_running 11 (by decide), rfl, rfl⟩, fresh_running 17 (by decide), rfl, rfl⟩

/-- Both streams. -/
theorem test_meets_WholeStreamIsSent : (freshEntry (running 15) ∧ entryOf (running 15).pc = .unit .wramP
      ∧ encodeSpi (running 15).cfg.cmds .wramP = some 0x24#8)
    ∧ (freshEntry (running 16) ∧ entryOf (running 16).pc = .unit .wramA
      ∧ encodeSpi (running 16).cfg.cmds .wramA = some 0x26#8) :=
  ⟨⟨fresh_running 15 (by decide), rfl, rfl⟩, fresh_running 16 (by decide), rfl, rfl⟩

/-- Both pins and the pass. -/
theorem test_meets_PinAndPassEntries : (running 0).run = true ∧ (running 0).turns = [] ∧ entryOf (running 0).pc = .pin false
    ∧ entryOf (running 2).pc = .pin true ∧ (running 14).run = true ∧ (running 14).turns = []
    ∧ entryOf (running 14).pc = .pass := by decide

/-- The entry before the last, and one before it. -/
theorem test_meets_CompletingAnEntry : (running 19).pc ≠ 20 ∧ (running 19).pc = 19 ∧ (running 18).pc ≠ 19 := by decide

/-- Both delays. -/
theorem test_meets_DelayTakesItsTicks : (running 1).cfg.wf = true ∧ (freshEntry (running 1) ∧ entryOf (running 1).pc = .delay .rstLow)
    ∧ freshEntry (running 3) ∧ entryOf (running 3).pc = .delay .boot :=
  ⟨by decide, ⟨fresh_running 1 (by decide), rfl⟩, fresh_running 3 (by decide), rfl⟩

/-- A wait that completes at once, one that completes at the ceiling (V-BW-4) and one that times out (V-BW-5). -/
theorem test_meets_BusyWaitFollowsItsSamples (o : WaitOutcome) (ho : o = .completes 0 ∨ o = .completes 10000 ∨ o = .timesOut) :
    ∃ s : State, s.cfg.wf = true ∧ freshEntry s ∧ entryOf s.pc = .busyWait .act ∧ o.possible s.cfg = true
      ∧ s.busyIn = o.samples s.cfg ++ [true] := by
  refine ⟨{ running 18 with busyIn := o.samples exampleCfg ++ [true] }, (by decide : exampleCfg.wf = true), ⟨rfl, rfl, rfl, rfl, rfl⟩, rfl, ?_, rfl⟩
  rcases ho with rfl | rfl | rfl <;> decide

/-- A wait with the default settle time, and one with a settle time. -/
theorem test_meets_BusyWaitIsBounded : ((running 6).cfg.wf = true ∧ freshEntry (running 6) ∧ entryOf (running 6).pc = .busyWait .swrst)
    ∧ freshEntry (enter 4 { atRest with run := true, cfg := { exampleCfg with tBusySettle := 5 } }) :=
  ⟨⟨by decide, fresh_running 6 (by decide), rfl⟩, ⟨rfl, rfl, rfl, rfl, rfl⟩⟩

/-- A refresh in the middle of its last poll meets the invariant. -/
theorem test_meets_EveryRefreshEnds : EngineInv { running 18 with bw := .poll, wait := 9999 }
    ∧ { running 18 with bw := .poll, wait := 9999 }.run = true ∧ { running 18 with bw := .poll, wait := 9999 }.turns = [] :=
  ⟨inv_of_checks rfl (by decide), rfl, rfl⟩

/-- The three outcomes of a busy-wait in one refresh. -/
theorem test_meets_RefreshSendsItsTrace : ∃ s : State, s.cfg.wf = true ∧ s.run = false
    ∧ s.turns = [.host 0b1000#4 0x00000004#32] ∧ WaitOutcome.timesOut.possible s.cfg = true
    ∧ (WaitOutcome.completes 10000).possible s.cfg = true ∧ (WaitOutcome.completes 0).possible s.cfg = true
    ∧ s.busyIn = WaitOutcome.timesOut.samples s.cfg ++ ((WaitOutcome.completes 10000).samples s.cfg
        ++ ((WaitOutcome.completes 0).samples s.cfg ++ [true])) :=
  ⟨{ atRest with
      turns := [.host 0b1000#4 0x00000004#32]
      busyIn := WaitOutcome.timesOut.samples exampleCfg ++ ((WaitOutcome.completes 10000).samples exampleCfg
        ++ ((WaitOutcome.completes 0).samples exampleCfg ++ [true])) },
    by decide, rfl, rfl, by decide, by decide, by decide, rfl⟩

/-- The outcomes at their bounds. -/
theorem test_meets_RefreshTickCount : exampleCfg.wf = true ∧ (WaitOutcome.completes 0).possible exampleCfg = true
    ∧ (WaitOutcome.completes 10000).possible exampleCfg = true ∧ WaitOutcome.timesOut.possible exampleCfg = true
    ∧ (WaitOutcome.completes 10001).possible exampleCfg = false := by decide

/-- A refresh in a stream meets the invariant, and its step answers. -/
theorem test_meets_StepKeepsTheInvariant : EngineInv { running 15 with sub := 15000 }
    ∧ ∃ t, step { running 15 with sub := 15000 } = .next t := ⟨inv_of_checks rfl (by decide), _, rfl⟩

/-- A refresh waiting for its boot delay meets the invariant. -/
theorem test_meets_InvariantStatesNeverStop : EngineInv { running 3 with sub := 199 } := inv_of_checks rfl (by decide)

/-- Planes as after reset hold no forbidden pair, and a SET_PIXEL of RED is next. -/
theorem test_meets_ForbiddenPairIsNeverProduced : { atRest with turns := [.host 0b1000#4 0x31] }.mem.wf = true
    ∧ (∀ k, k < 120000 → ¬ (pixRead { atRest with turns := [.host 0b1000#4 0x31] } .primary k = some false
        ∧ pixRead { atRest with turns := [.host 0b1000#4 0x31] } .accent k = some true))
    ∧ ∃ t, step { atRest with turns := [.host 0b1000#4 0x31] } = .next t := by
  refine ⟨rfl, ?_, _, rfl⟩
  intro k hk h
  have hp := planeInv_of_unlisted (m := []) (fun _ _ => rfl) k hk
  rw [pixRead_eq _ _ hk, pixRead_eq _ _ hk, Option.some.injEq, Option.some.injEq] at h
  simp only [pairOk] at hp
  have h1 : laneOf (Memory.get [] (Plane.primary.base + byteOf k)) k = false := h.1
  have h2 : laneOf (Memory.get [] (Plane.accent.base + byteOf k)) k = true := h.2
  rw [h1, h2] at hp
  exact absurd hp (by decide)

/-- A step that answers. -/
theorem test_meets_ConfigurationIsFixed : ∃ t, step (running 0) = .next t := ⟨_, rfl⟩

/-- A step of the host that changes each of the registers, the planes and the data returned. -/
theorem test_meets_RegistersChangeOnlyByTheirAccess :
    field State.argX (step { atRest with turns := [.host 0b1001#4 7] }) = some 7
    ∧ field State.argY (step { atRest with turns := [.host 0b1010#4 7] }) = some 7
    ∧ field State.result (step { atRest with turns := [.host 0b1000#4 2] }) = some 5
    ∧ field State.mem (step { atRest with turns := [.host 0b1000#4 1] }) = some [(0, 0x7F#8)]
    ∧ field State.readData (step { atPixel 7 0 with turns := [.host 0b0001#4 0] }) = some 7 := by decide

/-- A command refused during a refresh, and a read of `STATUS`. -/
theorem test_meets_HostAccessLeavesARefreshAlone : (running 15).run = true ∧ Instr.refresh.format ≠ .spi
    ∧ (∃ t, exec .refresh (running 15) = .next t) ∧ (∃ t, exec .rdStatus (running 15) = .next t) :=
  ⟨rfl, by decide, ⟨_, rfl⟩, ⟨_, rfl⟩⟩

/-- Two states that differ in what the host sees, before a sequencer step and before a tick. -/
theorem test_meets_SequencerDoesNotSeeTheHost :
    seqView { running 8 with turns := [.sequencer], argX := 9, illegal := true } = seqView { running 8 with turns := [.sequencer, .tick] }
    ∧ (∃ t, step { running 8 with turns := [.sequencer], argX := 9, illegal := true } = .next t)
    ∧ seqView { running 1 with turns := [.tick], result := 5 } = seqView { running 1 with turns := [.tick, .tick] }
    ∧ (∃ t, step { running 1 with turns := [.tick], result := 5 } = .next t) := ⟨rfl, ⟨_, rfl⟩, rfl, ⟨_, rfl⟩⟩

/-- One step of a running refresh, in which the host tries to write the planes. -/
theorem test_meets_PlanesAreFrozenDuringARefresh :
    (∃ t, runSteps 1 { running 15 with turns := [.host 0b1000#4 3] } = .next t)
    ∧ ∀ m u, m < 1 → runSteps m { running 15 with turns := [.host 0b1000#4 3] } = .next u → u.run = true := by
  refine ⟨⟨_, rfl⟩, fun m u hm h => ?_⟩
  obtain rfl : m = 0 := by omega
  injection h with h; subst h; rfl

/-- Each flag cleared and set by a step. -/
theorem test_meets_LifeOfTheStickyFlags :
    field (fun t => (t.rejected, t.illegal)) (step { atRest with rejected := true, illegal := true, turns := [.host 0b1100#4 0x300] })
      = some (false, false)
    ∧ field State.rejected (step { running 4 with turns := [.host 0b1000#4 3] }) = some true
    ∧ field State.illegal (step { atRest with turns := [.host 0b1000#4 0x41] }) = some true := by decide

/-- Each timeout flag cleared by an accepted REFRESH and set by its busy-wait. -/
theorem test_meets_LifeOfTheTimeoutFlags :
    field (fun t => (t.toHwrst, t.toSwrst, t.toAct))
      (step { atRest with toHwrst := true, toSwrst := true, toAct := true, turns := [.host 0b1000#4 4] }) = some (false, false, false)
    ∧ field State.toHwrst (step { running 4 with wait := 10000, busyIn := [true] }) = some true
    ∧ field State.toSwrst (step { running 6 with wait := 10000, busyIn := [true] }) = some true
    ∧ field State.toAct (step { running 18 with wait := 10000, busyIn := [true] }) = some true := by decide

/-- A step that leaves `UNINIT`, and one inside a refresh that changes the state. -/
theorem test_meets_RefreshStateTransitions : EngineInv { atRest with turns := [.host 0b1000#4 4] }
    ∧ field State.state (step { atRest with turns := [.host 0b1000#4 4] }) = some .reset
    ∧ EngineInv { running 4 with busyIn := [false] }
    ∧ field State.state (step { running 4 with busyIn := [false] }) = some .initializing :=
  ⟨inv_of_checks rfl (by decide), by decide, inv_of_checks rfl (by decide), by decide⟩

/-- Each clause: inside a refresh, at its end, at rest, at the start of a refresh. -/
theorem test_meets_EntryIndexAdvances :
    field (fun t => (t.run, t.pc)) (step (running 14)) = some (true, 15)
    ∧ field (fun t => (t.run, t.pc)) (step { running 19 with sub := 1 }) = some (false, 20)
    ∧ field (fun t => (t.run, t.pc)) (step atRest) = some (false, 0)
    ∧ field (fun t => (t.run, t.pc)) (step { atRest with pc := 20, turns := [.host 0b1000#4 4] }) = some (true, 0) := by decide

/-- The invariant after a refresh and during one. -/
theorem test_meets_RunAndStateAgree : EngineInv { atRest with state := .sleeping, pc := 20 } ∧ EngineInv (running 14) :=
  ⟨inv_of_checks rfl (by decide), inv_of_checks rfl (by decide)⟩

/-- Distinct opcodes, payloads that place the planes, planes without the forbidden pair, the last pixel. -/
theorem test_meets_PanelShowsThePlanes : exampleCfg.cmds.distinct = true ∧ exampleReading.placesPlanes exampleCfg.cmds = true
    ∧ PlaneInv [] ∧ 119999 < 120000 :=
  ⟨by decide, by decide, planeInv_of_unlisted (fun _ _ => rfl), by decide⟩

/-- The last counter position with the byte it puts first; a window of 17 byte columns with the first byte outside it. -/
theorem test_meets_PayloadsMisplaceTheImage :
    (PanelCommands.distinct { exampleCommands with plXcnt := ⟨0x31, []⟩, plYcnt := ⟨0x2B, [0x01]⟩ } = true
      ∧ exampleReading.coversRam { exampleCommands with plXcnt := ⟨0x31, []⟩, plYcnt := ⟨0x2B, [0x01]⟩ } = true
      ∧ exampleReading.xCount (Payload.mk 0x31 []).bytes = 49 ∧ exampleReading.yCount (Payload.mk 0x2B [0x01]).bytes = 299
      ∧ PlaneInv [] ∧ byteOf 0 = (1 + 299 * 50 + 49) % 15000)
    ∧ (PanelCommands.distinct { exampleCommands with plXwin := ⟨0x00, [0x10]⟩ } = true
      ∧ exampleReading.increments exampleCommands.plDem.bytes = true
      ∧ inWindow (exampleReading.xWindow [0x00, 0x10]) (exampleReading.yWindow exampleCommands.plYwin.bytes)
        (exampleReading.xCount exampleCommands.plXcnt.bytes) (exampleReading.yCount exampleCommands.plYcnt.bytes) = true
      ∧ inWindow (exampleReading.xWindow [0x00, 0x10]) (exampleReading.yWindow exampleCommands.plYwin.bytes)
        (17 % 50) (17 / 50) = false) :=
  ⟨⟨by decide, by decide, by decide, by decide, planeInv_of_unlisted (fun _ _ => rfl), by decide⟩, by decide⟩

end Sys2Proof.Machine
end

namespace Sys2Proof.Machine

/-! The invariant of the engine, step by step: every clause after each kind of step (10_state.md R20 to R23). -/

/-! ### The configuration and the micro-program -/

/-- 00_scope.md R6: both delays take at least one tick. -/
theorem delayTicks_pos {c : Cfg} (h : c.wf = true) (d : DelayKind) : 0 < delayTicks c d := by
  simp only [Cfg.wf, Bool.and_eq_true, decide_eq_true_eq] at h
  cases d <;> simp only [delayTicks] <;> omega

/-- 00_scope.md R6: a poll period is at least one tick. -/
theorem tPoll_pos {c : Cfg} (h : c.wf = true) : 0 < c.tPoll := by
  simp only [Cfg.wf, Bool.and_eq_true, decide_eq_true_eq] at h
  omega

/-- A `PIN` entry drives `RST_N` to the level of the entry after it: low in entries 1 and 2 only (10_state.md R23). -/
theorem pin_level_next : ∀ (e : Fin 21) (v : Level), entryOf e = .pin v →
    v = !(nextEntry e == 1 || nextEntry e == 2) := by decide

/-- Around every other entry the level of `RST_N` stays: entries 1 and 2 lie between the two `PIN` entries. -/
theorem reset_low_next : ∀ e : Fin 21, (∀ v, entryOf e ≠ .pin v) →
    (nextEntry e == 1 || nextEntry e == 2) = (e == 1 || e == 2) := by decide

/-! ### The clauses of the invariant -/

/-- The clauses of the invariant that speak of data: the configuration, the planes and `RESULT`. -/
structure DataInv (s : State) : Prop where
  cfg    : s.cfg.wf = true
  mem    : s.mem.wf = true
  planes : PlaneInv s.mem
  result : resultOk s.result = true

theorem EngineInv.data {s : State} (h : EngineInv s) : DataInv s := ⟨h.cfg, h.mem, h.planes, h.result⟩

theorem DataInv.congr {s t : State} (h : DataInv s) (hc : t.cfg = s.cfg) (hm : t.mem = s.mem)
    (hr : t.result = s.result) : DataInv t :=
  ⟨hc ▸ h.cfg, hm ▸ h.mem, hm ▸ h.planes, hr ▸ h.result⟩

/-- Chip-select and the clock between two steps (41_spi_protocol.md R68, R69). -/
def LinkQuiet (s : State) : Prop :=
  s.sclk = false ∧ (s.csN = true ∨ s.cfg.batchData = true ∧ betweenData s = true)

theorem pinsOk_iff (s : State) :
    pinsOk s = true ↔ LinkQuiet s ∧ s.rstN = !(s.run && (s.pc == 1 || s.pc == 2)) := by
  simp [pinsOk, LinkQuiet]

theorem EngineInv.quiet {s : State} (h : EngineInv s) : LinkQuiet s := ((pinsOk_iff s).1 h.pins).1

theorem EngineInv.rstN_eq {s : State} (h : EngineInv s) : s.rstN = !(s.run && (s.pc == 1 || s.pc == 2)) :=
  ((pinsOk_iff s).1 h.pins).2

theorem betweenData_eq_true_iff (s : State) :
    betweenData s = true ↔ s.run = true ∧ 2 ≤ s.sub ∧ ∃ i, entryOf s.pc = .unit i := by
  cases h : entryOf s.pc <;> simp [betweenData, h]

/-- Chip-select is high outside the units of a refresh (41_spi_protocol.md R68). -/
theorem EngineInv.csN_high {s : State} (h : EngineInv s) (hu : s.run = true → ∀ i, entryOf s.pc ≠ .unit i) :
    s.csN = true := by
  rcases h.quiet.2 with hcs | ⟨_, hb⟩
  · exact hcs
  · obtain ⟨hr, _, i, hi⟩ := (betweenData_eq_true_iff s).1 hb
    exact absurd hi (hu hr i)

/-- A running refresh is in the state of an entry that is not the last (42_refresh_sequencer.md R93). -/
theorem phaseOk_running {s : State} (h : s.run = true) :
    phaseOk s = true ↔ s.pc ≠ 20 ∧ s.state = entryState s.pc := by
  simp [phaseOk, h, entryOf_eq_fin_iff]

theorem phaseOk_resting {s : State} (h : s.run = false) :
    phaseOk s = true ↔ s.state = .uninit ∨ s.state = .sleeping ∧ s.pc = 20 := by
  simp [phaseOk, h]

/-! ### Positions, by the kind of entry -/

section
variable {s : State}

theorem positionOk_delay {d : DelayKind} (h : entryOf s.pc = .delay d) :
    positionOk s = true ↔ s.sub < delayTicks s.cfg d := by simp [positionOk, h]

theorem positionOk_unit {i : Instr} (h : entryOf s.pc = .unit i) :
    positionOk s = true ↔ s.sub ≤ lastPosition s.cfg.cmds i := by simp [positionOk, h]

theorem positionOk_settle {k : WaitKind} (h : entryOf s.pc = .busyWait k) (hb : s.bw = .settle) :
    positionOk s = true ↔ s.sub < s.cfg.tBusySettle ∧ s.wait = 0 := by simp [positionOk, h, hb]

theorem positionOk_sample {k : WaitKind} (h : entryOf s.pc = .busyWait k) (hb : s.bw = .sample) :
    positionOk s = true ↔ s.wait ≤ s.cfg.tBusyMax + s.cfg.tPoll - 1 := by simp [positionOk, h, hb]

theorem positionOk_poll {k : WaitKind} (h : entryOf s.pc = .busyWait k) (hb : s.bw = .poll) :
    positionOk s = true ↔ s.sub < s.cfg.tPoll ∧ s.wait < s.cfg.tBusyMax + s.sub := by simp [positionOk, h, hb]

/-- An entry just entered is at a position it has. -/
theorem positionOk_enter (hc : s.cfg.wf = true) {e : Fin 21} (he : entryOf e ≠ .fin) :
    positionOk (enter e s) = true := by
  cases hk : entryOf e with
  | pin v => simp [positionOk, hk]
  | delay d => exact (positionOk_delay hk).2 (delayTicks_pos hc d)
  | busyWait k =>
    by_cases hs : 0 < s.cfg.tBusySettle
    · exact (positionOk_settle hk (if_pos hs)).2 ⟨hs, rfl⟩
    · exact (positionOk_sample hk (if_neg hs)).2 (Nat.zero_le _)
  | unit i => exact (positionOk_unit hk).2 (Nat.zero_le _)
  | pass => simp [positionOk, hk]
  | fin => exact absurd hk he

end

/-! ### The three ways a step goes on: staying in the entry, entering one, completing one -/

/-- A step that stays where it is keeps the invariant when data, position and link are in order after it. -/
theorem EngineInv.stay {s t : State} (h : EngineInv s) (hd : DataInv t)
    (hr : t.run = s.run) (hpc : t.pc = s.pc) (hst : t.state = s.state) (hrst : t.rstN = s.rstN)
    (hpos : t.run = true → positionOk t = true) (hq : LinkQuiet t) : EngineInv t where
  cfg := hd.cfg
  mem := hd.mem
  planes := hd.planes
  result := hd.result
  phase := by simpa only [phaseOk, hr, hpc, hst] using h.phase
  position := hpos
  pins := (pinsOk_iff t).2 ⟨hq, by rw [hrst, hr, hpc]; exact h.rstN_eq⟩

/-- Entering an entry during a refresh meets the invariant when the link rests and `RST_N` has the entry's level. -/
theorem DataInv.entered {s : State} (h : DataInv s) {e : Fin 21} (hr : s.run = true) (hck : s.sclk = false)
    (hcs : s.csN = true) (hrst : s.rstN = !(e == 1 || e == 2)) : EngineInv (enter e s) where
  cfg := h.cfg
  mem := h.mem
  planes := h.planes
  result := h.result
  phase := by
    by_cases he : entryOf e = .fin
    · have he20 := (entryOf_eq_fin_iff e).1 he
      exact (phaseOk_resting (if_pos he)).2 (.inr ⟨by rw [he20]; rfl, he20⟩)
    · exact (phaseOk_running ((if_neg he).trans hr)).2 ⟨fun h20 => he ((entryOf_eq_fin_iff e).2 h20), rfl⟩
  position := by
    intro hrun
    refine positionOk_enter h.cfg fun he => ?_
    simp [he] at hrun
  pins := by
    refine (pinsOk_iff _).2 ⟨⟨hck, .inl hcs⟩, ?_⟩
    by_cases he : entryOf e = .fin
    · simp [hrst, (entryOf_eq_fin_iff e).1 he]
    · simp [hrst, he, hr]

/-- Completing an entry that drives no pin keeps the invariant when the link rests. -/
theorem EngineInv.completed {s u : State} (h : EngineInv s) (hr : s.run = true) (hd : DataInv u) (hru : u.run = s.run)
    (hpc : u.pc = s.pc) (hrst : u.rstN = s.rstN) (hpin : ∀ v, entryOf s.pc ≠ .pin v) (hck : u.sclk = false)
    (hcs : u.csN = true) : EngineInv (complete u) := by
  refine hd.entered (hru.trans hr) hck hcs ?_
  rw [hpc, reset_low_next s.pc hpin, hrst, h.rstN_eq, hr, Bool.true_and]

/-- Outside a unit, a step that moves only the position keeps the invariant when the new position is one the entry has. -/
theorem EngineInv.position_moved {s : State} (h : EngineInv s) (hu : ∀ i, entryOf s.pc ≠ .unit i)
    {n w : Nat} {b : BusyPhase} {l : List LinkEvent}
    (hpos : positionOk { s with sub := n, bw := b, wait := w, trace := l } = true) :
    EngineInv { s with sub := n, bw := b, wait := w, trace := l } :=
  h.stay (h.data.congr rfl rfl rfl) rfl rfl rfl rfl (fun _ => hpos) ⟨h.quiet.1, .inl (h.csN_high fun _ => hu)⟩

/-- A turn used up changes no clause of the invariant. -/
theorem EngineInv.turn_used {s : State} (h : EngineInv s) (l : List Turn) : EngineInv { s with turns := l } :=
  h.stay (h.data.congr rfl rfl rfl) rfl rfl rfl rfl h.position h.quiet

/-! ### The steps of the sequencer -/

section
variable {s : State}

/-- 42_refresh_sequencer.md R88: a `PIN` entry drives `RST_N` and completes. -/
theorem EngineInv.pin_step (h : EngineInv s) (hr : s.run = true) {v : Level} (he : entryOf s.pc = .pin v) :
    EngineInv (stepPin v s) := by
  have hcs := h.csN_high (by simp [he])
  have hd : DataInv (note (.rst v) (drive .rstN v s)) := h.data.congr rfl rfl rfl
  exact hd.entered hr h.quiet.1 hcs (pin_level_next _ _ he)

/-- R89: a tick of a `DELAY` entry counts, or completes it. -/
theorem EngineInv.delay_step (h : EngineInv s) (hr : s.run = true) {d : DelayKind} (he : entryOf s.pc = .delay d) :
    EngineInv (stepDelay d s) := by
  have hpos : s.sub < delayTicks s.cfg d := (positionOk_delay he).1 (h.position hr)
  unfold stepDelay
  rcases countTo_cases (delayTicks s.cfg d) (note .tick s) with ⟨_, e⟩ | ⟨hne, e⟩ <;> rw [e]
  · exact h.completed hr (h.data.congr rfl rfl rfl) rfl rfl rfl (by simp [he]) h.quiet.1 (h.csN_high (by simp [he]))
  · exact h.position_moved (by simp [he]) ((positionOk_delay (by exact he)).2 (Nat.lt_of_le_of_ne hpos hne))

/-- R94: a tick of phase `SETTLE`. -/
theorem EngineInv.settle_step (h : EngineInv s) (hr : s.run = true) {k : WaitKind} (he : entryOf s.pc = .busyWait k)
    (hb : s.bw = .settle) : EngineInv (stepSettle s) := by
  obtain ⟨hsub, hwait⟩ := (positionOk_settle he hb).1 (h.position hr)
  unfold stepSettle
  split
  · refine h.position_moved (by simp [he]) ((positionOk_sample (by exact he) rfl).2 ?_)
    show s.wait ≤ s.cfg.tBusyMax + s.cfg.tPoll - 1
    omega
  · refine h.position_moved (by simp [he]) ((positionOk_settle (by exact he) (by exact hb)).2 ⟨?_, hwait⟩)
    exact Nat.lt_of_le_of_ne hsub ‹_›

/-- R94: what follows a sample, whatever its level. -/
theorem EngineInv.after_sample (h : EngineInv s) (hr : s.run = true) {k : WaitKind} (he : entryOf s.pc = .busyWait k)
    (b : Level) : EngineInv (afterSample k b s) := by
  have hcs := h.csN_high (by simp [he])
  unfold afterSample
  split_ifs with _ hceiling
  · exact h.completed hr h.data rfl rfl rfl (by simp [he]) h.quiet.1 hcs
  · exact h.completed hr (h.data.congr (by simp) (by simp) (by simp)) (by simp) (by simp) (by simp) (by simp [he])
      (by simpa using h.quiet.1) (by simpa using hcs)
  · exact h.position_moved (by simp [he])
      ((positionOk_poll (by exact he) rfl).2 ⟨tPoll_pos h.cfg, Nat.lt_of_not_le hceiling⟩)

/-- R94: a sample of `BUSY` is drawn, noted and acted on. -/
theorem EngineInv.sample_step (h : EngineInv s) (hr : s.run = true) {k : WaitKind} (he : entryOf s.pc = .busyWait k) :
    EngineInv (stepSample k s) := by
  obtain ⟨l, n, hs⟩ := sampleBusy_frame s
  unfold stepSample
  rw [hs]
  have hnoted : EngineInv (note (.sample (sampleBusy s).1) { s with busyIn := l, draws := n }) :=
    h.stay (h.data.congr rfl rfl rfl) rfl rfl rfl rfl h.position h.quiet
  exact hnoted.after_sample hr he _

/-- R94: a tick of phase `POLL`; `st.wait` stays below the ceiling of R96. -/
theorem EngineInv.poll_step (h : EngineInv s) (hr : s.run = true) {k : WaitKind} (he : entryOf s.pc = .busyWait k)
    (hb : s.bw = .poll) : EngineInv (stepPoll s) := by
  obtain ⟨hsub, hwait⟩ := (positionOk_poll he hb).1 (h.position hr)
  refine h.position_moved (by simp [he]) ?_
  by_cases hlast : s.sub + 1 = s.cfg.tPoll
  · refine (positionOk_sample (by exact he) (if_pos hlast)).2 ?_
    show s.wait + 1 ≤ s.cfg.tBusyMax + s.cfg.tPoll - 1
    omega
  · refine (positionOk_poll (by exact he) (if_neg hlast)).2 ?_
    show s.sub + 1 < s.cfg.tPoll ∧ s.wait + 1 < s.cfg.tBusyMax + (s.sub + 1)
    omega

theorem EngineInv.busyWait_step (h : EngineInv s) (hr : s.run = true) {k : WaitKind} (he : entryOf s.pc = .busyWait k) :
    EngineInv (stepBusyWait k s) := by
  unfold stepBusyWait
  split
  · exact h.settle_step hr he ‹_›
  · exact h.sample_step hr he
  · exact h.poll_step hr he ‹_›

/-- Every micro-program step that is no SPI instruction keeps the invariant. -/
theorem EngineInv.micro_step (h : EngineInv s) (hr : s.run = true) {e : Entry} (he : entryOf s.pc = e) {t : State}
    (ht : stepMicro e s = .next t) : EngineInv t := by
  rcases stepMicro_cases ht with ⟨v, rfl, rfl⟩ | ⟨d, rfl, rfl⟩ | ⟨k, rfl, rfl⟩ | ⟨rfl, rfl⟩
  · exact h.pin_step hr he
  · exact h.delay_step hr he
  · exact h.busyWait_step hr he
  · exact h.completed hr h.data rfl rfl rfl (by simp [he]) h.quiet.1 (h.csN_high (by simp [he]))

/-- Every frame of an SPI instruction keeps the invariant: chip-select is low after it only between two data bytes, and
high after the last. -/
theorem EngineInv.unit_step (h : EngineInv s) (hr : s.run = true) {i : Instr} (he : entryOf s.pc = .unit i) {t : State}
    (ht : exec i s = .next t) : EngineInv t := by
  obtain ⟨hpos, b, rfl⟩ := exec_spi_cases (format_of_entryOf he) ht
  rw [emit_eq]
  rcases countTo_cases (lastPosition s.cfg.cmds i + 1) _ with ⟨hlast, e⟩ | ⟨hne, e⟩ <;> rw [e]
  · have hlast : s.sub = lastPosition s.cfg.cmds i := Nat.succ.inj hlast
    exact h.completed hr (h.data.congr rfl rfl rfl) rfl rfl rfl (by simp [he]) rfl (by simp [hlast])
  · have hne : s.sub ≠ lastPosition s.cfg.cmds i := fun h => hne (congrArg _ h)
    refine h.stay (h.data.congr rfl rfl rfl) rfl rfl rfl rfl
      (fun _ => (positionOk_unit (by exact he)).2 (Nat.lt_of_le_of_ne hpos hne)) ⟨rfl, ?_⟩
    by_cases hhold : s.cfg.batchData = true ∧ s.sub ≠ 0
    · exact .inr ⟨hhold.1, (betweenData_eq_true_iff _).2 ⟨hr, Nat.succ_le_succ (Nat.pos_of_ne_zero hhold.2), i, he⟩⟩
    · have hhigh : (s.cfg.batchData && decide (s.sub ≠ 0)) = false := by simpa using hhold
      exact .inl (by simp only [hhigh, Bool.false_and, Bool.not_false])

end

/-! ### The accesses of the host -/

section
variable {s : State}

/-- GET_PIXEL of planes without the forbidden pair answers a word `RESULT` can hold (40_framebuffer.md R62). -/
theorem resultOk_read {m : Memory} (h : PlaneInv m) {k : Nat} (hk : k < nPix) :
    resultOk (pixelResult (laneAt m .primary k) (laneAt m .accent k)) = true := resultOk_pixelResult (h k hk)

theorem EngineInv.command_access (h : EngineInv s) {c : Command} {t : State} (ht : CommandEffect c s t) : EngineInv t := by
  cases ht with
  | nothing => exact h
  | illegal => exact h.stay (h.data.congr rfl rfl rfl) rfl rfl rfl rfl h.position h.quiet
  | rejected => exact h.stay (h.data.congr rfl rfl rfl) rfl rfl rfl rfl h.position h.quiet
  | clipped => exact h.stay { h.data with result := rfl } rfl rfl rfl rfl h.position h.quiet
  | read k hk => exact h.stay { h.data with result := resultOk_read h.planes hk } rfl rfl rfl rfl h.position h.quiet
  | write k code hr hk hc =>
    exact h.stay { h.data with mem := wf_pixelMem h.mem hk code, planes := planeInv_pixelMem h.mem h.planes hk hc }
      rfl rfl rfl rfl h.position h.quiet
  | clear hr =>
    exact h.stay { h.data with mem := Memory.wf_clear h.mem, planes := planeInv_clear s.mem }
      rfl rfl rfl rfl h.position h.quiet
  | refresh hr _ =>
    have hd : DataInv (clearTimeouts { s with run := true }) := h.data.congr rfl rfl rfl
    have hrst : s.rstN = true := by rw [h.rstN_eq, hr]; rfl
    exact hd.entered rfl h.quiet.1 (h.csN_high (by simp [hr])) hrst

theorem EngineInv.host_access (h : EngineInv s) {i : Instr} {t : State} (ht : HostEffect i s t) : EngineInv t := by
  cases ht with
  | command c _ _ hc => exact h.command_access hc
  | status =>
    obtain ⟨l, n, hs⟩ := sampleBusy_frame s
    rw [hs]
    exact h.stay (h.data.congr rfl rfl rfl) rfl rfl rfl rfl h.position h.quiet
  | nothing => exact h
  | _ => exact h.stay (h.data.congr rfl rfl rfl) rfl rfl rfl rfl h.position h.quiet

end

/-- Settles O45: a used-up turn, a host access, a frame of a unit and a step of every other entry each keep the
invariant. -/
theorem stepKeepsTheInvariant : Obligations.StepKeepsTheInvariant := by
  intro s t h hstep
  have h' : EngineInv { s with turns := s.turns.tail } := h.turn_used _
  cases step_cases hstep with
  | host i _ _ hi hs _ ht => subst hs; exact h'.host_access (exec_host_cases (by simp [hi]) ht)
  | unit i _ _ hr he hs ht => subst hs; exact h'.unit_step hr he ht
  | micro e _ _ hr he _ hs ht => subst hs; exact h'.micro_step hr he ht
  | idle => exact h'

end Sys2Proof.Machine

namespace Sys2Proof.Machine

/-! ### Reset and the words of the host port -/

/-- Settles O44: the planes of reset are all unlisted bytes, and the sequencer rests. -/
theorem resetMeetsTheInvariant : Obligations.ResetMeetsTheInvariant where
  cfg := rfl
  mem := Memory.wf_nil
  planes := planeInv_of_unlisted fun _ _ => rfl
  result := rfl
  phase := rfl
  position := by simp [State.reset]
  pins := rfl

/-- After reset no byte is listed, so each plane byte reads as its reset value. -/
theorem memRead_reset {a : Nat} (ha : a < planeSpace) : memRead State.reset a = some (Memory.unlisted a) :=
  memRead_of_lt _ ha

/-- Settles O48: the registers by definition, each plane byte as an unlisted one. -/
theorem resetValues : Obligations.ResetValues := by
  refine ⟨rfl, rfl, rfl, rfl, rfl, rfl, rfl, rfl, rfl, rfl, rfl, rfl, rfl, rfl, fun i hi => ⟨?_, ?_⟩,
    rfl, rfl, rfl, rfl, rfl, by decide⟩
  · rw [memRead_reset (by simp only [planeSpace]; omega), Memory.unlisted, if_pos (by exact hi)]
  · rw [memRead_reset (by simp only [planeSpace]; omega), Memory.unlisted, if_neg (by simp only [planeBytes]; omega)]

/-- The four bytes of a word make the word again (30_encoding.md R45). -/
theorem wordOfBytes_bytes (w : Word) : wordOfBytes (w.extractLsb' 0 8) (w.extractLsb' 8 8) (w.extractLsb' 16 8)
    (w.extractLsb' 24 8) = w := by
  unfold wordOfBytes
  rw [BitVec.extractLsb'_append_extractLsb'_eq_extractLsb', BitVec.extractLsb'_append_extractLsb'_eq_extractLsb',
    BitVec.extractLsb'_append_extractLsb'_eq_extractLsb', BitVec.extractLsb'_eq_self] <;> rfl

/-- The first byte of a transaction carries the control bits and nothing above them. -/
theorem controlByte_fields (ctrl : BitVec 4) :
    (0#4 ++ ctrl : BitVec 8).extractLsb' 4 4 = 0 ∧ (0#4 ++ ctrl : BitVec 8).extractLsb' 0 4 = ctrl := by
  revert ctrl; decide

/-- A transaction's bytes decode to the access its control bits and `DATA` stand for. -/
theorem decode_port_bytes (p : PanelCommands) (ctrl : BitVec 4) (data : Word) :
    decode p .port ((0#4 ++ ctrl : BitVec 8) :: bytesOfWord data) = .ok (decodePort ctrl data, []) := by
  obtain ⟨hhigh, hlow⟩ := controlByte_fields ctrl
  simp only [decode, bytesOfWord, hhigh, hlow, wordOfBytes_bytes, ne_eq, not_true_eq_false, if_false]

/-- R45: an access carries its control bits and, a write, its `DATA`. -/
theorem encodePort_decodePort (ctrl : BitVec 4) (data : Word) :
    encodePort (decodePort ctrl data) = some (ctrl, if ctrl.getLsbD 3 then data else 0) := by
  obtain ⟨n⟩ := ctrl
  fin_cases n <;> rfl

/-- A write access comes from its own control bits, with its own `DATA`. -/
theorem decodePort_write {ctrl c : BitVec 4} {data v : Word} {i : Instr} (h : decodePort ctrl data = i)
    (hi : encodePort i = some (c, v)) (hw : c.getLsbD 3 = true) : ctrl = c ∧ data = v := by
  rw [← h, encodePort_decodePort, Option.some.injEq, Prod.mk.injEq] at hi
  obtain ⟨hctrl, hdata⟩ := hi
  rw [hctrl, if_pos hw] at hdata
  exact ⟨hctrl, hdata⟩

/-- A word is its three fields (30_encoding.md R46). -/
theorem cmdWord_fields (w : Word) : (cmdRsvd w ++ cmdColor w ++ cmdOp w : BitVec 32) = w := by
  unfold cmdRsvd cmdColor cmdOp
  rw [BitVec.extractLsb'_append_extractLsb'_eq_extractLsb', BitVec.extractLsb'_append_extractLsb'_eq_extractLsb',
    BitVec.extractLsb'_eq_self] <;> rfl

/-- R51: the fields of a word that decodes are those of its command. -/
theorem decodeCmd_fields {w : Word} {c : Command} (h : decodeCmd w = .ok c) :
    cmdRsvd w = 0 ∧ cmdColor w = c.color ∧ cmdOp w = c.op := by
  unfold decodeCmd at h
  split_ifs at h <;> cases h <;> simp_all [Command.color, Command.op]

/-- A word that decodes is the word of its command. -/
theorem decodeCmd_word {w : Word} {c : Command} (h : decodeCmd w = .ok c) : w = encodeCmd c := by
  obtain ⟨hr, hc, ho⟩ := decodeCmd_fields h
  rw [← cmdWord_fields w, hr, hc, ho]; rfl

/-- Settles O5: the bytes of a transaction decode to the access `step` performs, and a unit's turn runs its instruction. -/
theorem stepRunsTheNextInstruction : Obligations.StepRunsTheNextInstruction := by
  refine ⟨fun p s ctrl data rest i hT hdec => ?_, fun s i hr he => ⟨fun hT => ?_, fun rest hT => ?_⟩⟩
  · rw [decode_port_bytes] at hdec
    cases hdec
    simp only [step, fetch, hT]
  · simp only [step, fetch, hT, hr, if_true, fetchEntry, he]
  · simp [step, fetch, hT, sequencerTurn, waitsForTick, hr, fetchEntry, he]

/-! ### Past the last frame -/

theorem stepUnit_past {payload : List Byte} {s : State} (h : payload.length < s.sub) (opc : Byte) :
    stepUnit opc payload s = .fault .sequencerRange := by
  simp only [stepUnit, unitFrame_eq_none h]

theorem stepStream_past {s : State} (h : planeBytes < s.sub) (opc : Byte) (pl : Plane) :
    stepStream opc pl s = .fault .sequencerRange := by
  obtain ⟨j, hj⟩ : ∃ j, s.sub = j + 1 := ⟨s.sub - 1, by omega⟩
  simp only [stepStream, hj, if_pos (show planeBytes ≤ j by omega)]

/-- Settles O30: each SPI instruction is a unit or a stream, and both stop past their last frame. -/
theorem unitsStopPastTheirLastFrame : Obligations.UnitsStopPastTheirLastFrame := by
  intro s i hi h
  cases i <;> simp only [Instr.format, reduceCtorEq] at hi
  case wramP => exact stepStream_past h _ _
  case wramA => exact stepStream_past h _ _
  all_goals exact stepUnit_past h _

end Sys2Proof.Machine

namespace Sys2Proof.Machine

/-! ### What the sequencer leaves to the host -/

/-- The host's side of the state is the same: its registers, the planes, the sticky flags, the turns and `CFG`. -/
structure HostSideKept (s t : State) : Prop where
  argX     : t.argX = s.argX
  argY     : t.argY = s.argY
  result   : t.result = s.result
  mem      : t.mem = s.mem
  readData : t.readData = s.readData
  rejected : t.rejected = s.rejected
  illegal  : t.illegal = s.illegal
  turns    : t.turns = s.turns
  cfg      : t.cfg = s.cfg

/-- How a step of the sequencer moves in the micro-program: it stays in its entry, or completes it
(42_refresh_sequencer.md R87). -/
def EntryMove (s t : State) : Prop :=
  (t.pc = s.pc ∧ t.run = s.run ∧ t.state = s.state) ∨
    (t.pc = nextEntry s.pc ∧ t.state = entryState t.pc ∧ t.run = if entryOf t.pc = .fin then false else s.run)

section
variable {s t u : State}

theorem HostSideKept.countTo (h : HostSideKept s u) (n : Nat) : HostSideKept s (countTo n u) := by
  obtain ⟨h1, h2, h3, h4, h5, h6, h7, h8, h9⟩ := h
  constructor <;> simpa

theorem EntryMove.of_complete (hpc : u.pc = s.pc) (hr : u.run = s.run) : EntryMove s (complete u) :=
  .inr ⟨congrArg nextEntry hpc, rfl, by rw [complete_run, complete_pc, hr]⟩

theorem EntryMove.of_countTo (hpc : u.pc = s.pc) (hr : u.run = s.run) (hst : u.state = s.state) (n : Nat) :
    EntryMove s (countTo n u) := by
  rcases countTo_cases n u with ⟨_, e⟩ | ⟨_, e⟩ <;> rw [e]
  · exact .of_complete hpc hr
  · exact .inl ⟨hpc, hr, hst⟩

theorem afterSample_frame (k : WaitKind) (b : Level) (s : State) :
    HostSideKept s (afterSample k b s) ∧ EntryMove s (afterSample k b s) := by
  unfold afterSample
  split_ifs
  · exact ⟨by constructor <;> rfl, .of_complete rfl rfl⟩
  · exact ⟨by constructor <;> simp, .of_complete (by simp) (by simp)⟩
  · exact ⟨by constructor <;> rfl, .inl ⟨rfl, rfl, rfl⟩⟩

theorem stepSample_frame (k : WaitKind) (s : State) :
    HostSideKept s (stepSample k s) ∧ EntryMove s (stepSample k s) := by
  obtain ⟨l, n, hs⟩ := sampleBusy_frame s
  unfold stepSample
  rw [hs]
  obtain ⟨hkept, hmove⟩ := afterSample_frame k (sampleBusy s).1
    (note (.sample (sampleBusy s).1) { s with busyIn := l, draws := n })
  obtain ⟨h1, h2, h3, h4, h5, h6, h7, h8, h9⟩ := hkept
  exact ⟨⟨h1, h2, h3, h4, h5, h6, h7, h8, h9⟩, hmove⟩

theorem stepBusyWait_frame (k : WaitKind) (s : State) :
    HostSideKept s (stepBusyWait k s) ∧ EntryMove s (stepBusyWait k s) := by
  unfold stepBusyWait
  split
  · unfold stepSettle
    split <;> exact ⟨by constructor <;> rfl, .inl ⟨rfl, rfl, rfl⟩⟩
  · exact stepSample_frame k s
  · exact ⟨by constructor <;> rfl, .inl ⟨rfl, rfl, rfl⟩⟩

/-- A micro-program step leaves the host's side and moves in the micro-program. -/
theorem stepMicro_frame {e : Entry} (h : stepMicro e s = .next t) : HostSideKept s t ∧ EntryMove s t := by
  rcases stepMicro_cases h with ⟨v, _, rfl⟩ | ⟨d, _, rfl⟩ | ⟨k, _, rfl⟩ | ⟨_, rfl⟩
  · exact ⟨by constructor <;> rfl, .of_complete rfl rfl⟩
  · exact ⟨.countTo (by constructor <;> rfl) _, .of_countTo rfl rfl rfl _⟩
  · exact stepBusyWait_frame k s
  · exact ⟨by constructor <;> rfl, .of_complete rfl rfl⟩

/-- A frame of an SPI instruction leaves the host's side and moves in the micro-program. -/
theorem exec_spi_frame {i : Instr} (hi : i.format = .spi) (h : exec i s = .next t) : HostSideKept s t ∧ EntryMove s t := by
  obtain ⟨_, b, rfl⟩ := exec_spi_cases hi h
  exact ⟨.countTo (by constructor <;> simp) _, .of_countTo (by simp) (by simp) (by simp) _⟩

/-! ### What a command can change -/

theorem guarded_cases {act : State → Result} (h : guarded s act = .next t) :
    (s.run = true ∧ t = { s with rejected := true }) ∨ (s.run = false ∧ act s = .next t) := by
  rcases Bool.eq_false_or_eq_true s.run with hr | hr
  · rw [guarded_running hr] at h; cases h; exact .inl ⟨hr, rfl⟩
  · rw [guarded_idle hr] at h; exact .inr ⟨hr, h⟩

/-- SET_PIXEL changes the planes, with a legal code and no refresh running, or at most a sticky flag. -/
theorem execSetPixel_cases {code : BitVec 2} (h : execSetPixel code s = .next t) :
    (t.mem = s.mem ∧ t.result = s.result) ∨
      (s.run = false ∧ code ≠ 0b10#2 ∧ ∃ k, k < nPix ∧ t = { s with mem := pixelMem s.mem k code }) := by
  unfold execSetPixel at h
  split at h
  · cases h; exact .inl ⟨rfl, rfl⟩
  · rcases guarded_cases h with ⟨_, rfl⟩ | ⟨hr, hset⟩
    · exact .inl ⟨rfl, rfl⟩
    · rcases Bool.eq_false_or_eq_true (inCanvas (pixelX s) (pixelY s)) with hin | hin
      · rw [setPixel_inCanvas code hin] at hset; cases hset
        exact .inr ⟨hr, ‹_›, _, pixelIndex_lt hin, rfl⟩
      · rw [setPixel_clipped s code hin] at hset; cases hset; exact .inl ⟨rfl, rfl⟩

/-- GET_PIXEL changes `RESULT` at most. -/
theorem execGetPixel_cases (h : execGetPixel s = .next t) : ∃ v, t = { s with result := v } := by
  rcases Bool.eq_false_or_eq_true (inCanvas (pixelX s) (pixelY s)) with hin | hin
  · rw [execGetPixel_inCanvas s hin] at h; cases h; exact ⟨_, rfl⟩
  · rw [execGetPixel_clipped s hin] at h; cases h; exact ⟨_, rfl⟩

theorem execClear_cases (h : execClear s = .next t) :
    (s.run = true ∧ t = { s with rejected := true }) ∨ (s.run = false ∧ t = { s with mem := s.mem.clear }) := by
  rcases guarded_cases h with hg | ⟨hr, hact⟩
  · exact .inl hg
  · cases hact; exact .inr ⟨hr, rfl⟩

theorem execRefresh_cases (h : execRefresh s = .next t) :
    (s.run = true ∧ t = { s with rejected := true }) ∨ (s.run = false ∧ t = accepted s) := by
  rcases guarded_cases h with hg | ⟨hr, hact⟩
  · exact .inl hg
  · cases hact; exact .inr ⟨hr, rfl⟩

/-- Only SET_PIXEL with a legal code and CLEAR change the planes, and only while no refresh runs (20_memory.md R37). -/
theorem runCommand_mem {c : Command} (h : runCommand c s = .next t) :
    t.mem = s.mem ∨ (s.run = false ∧
      ((c = .clear ∧ t.mem = s.mem.clear) ∨
        ∃ k code, k < nPix ∧ code ≠ 0b10#2 ∧ c = .setPixel code ∧ t.mem = pixelMem s.mem k code)) := by
  cases c with
  | nop => cases h; exact .inl rfl
  | setPixel code =>
    rcases execSetPixel_cases h with ⟨hm, _⟩ | ⟨hr, hc, k, hk, rfl⟩
    · exact .inl hm
    · exact .inr ⟨hr, .inr ⟨k, code, hk, hc, rfl, rfl⟩⟩
  | getPixel => obtain ⟨v, rfl⟩ := execGetPixel_cases h; exact .inl rfl
  | clear =>
    rcases execClear_cases h with ⟨_, rfl⟩ | ⟨hr, rfl⟩
    · exact .inl rfl
    · exact .inr ⟨hr, .inl ⟨rfl, rfl⟩⟩
  | refresh => rcases execRefresh_cases h with ⟨_, rfl⟩ | ⟨_, rfl⟩ <;> exact .inl rfl

/-- Only GET_PIXEL changes `RESULT` (10_state.md R16). -/
theorem runCommand_result {c : Command} (h : runCommand c s = .next t) : t.result = s.result ∨ c = .getPixel := by
  cases c with
  | nop => cases h; exact .inl rfl
  | setPixel code => rcases execSetPixel_cases h with ⟨_, hres⟩ | ⟨_, _, _, _, rfl⟩; exacts [.inl hres, .inl rfl]
  | getPixel => exact .inr rfl
  | clear => rcases execClear_cases h with ⟨_, rfl⟩ | ⟨_, rfl⟩ <;> exact .inl rfl
  | refresh => rcases execRefresh_cases h with ⟨_, rfl⟩ | ⟨_, rfl⟩ <;> exact .inl rfl

/-- No command changes the operands or the data returned. -/
theorem CommandEffect.operands {c : Command} (h : CommandEffect c s t) :
    t.argX = s.argX ∧ t.argY = s.argY ∧ t.readData = s.readData := by
  cases h <;> exact ⟨rfl, rfl, rfl⟩

/-- Only an accepted REFRESH moves the sequencer. -/
theorem CommandEffect.entry {c : Command} (h : CommandEffect c s t) :
    (t.pc = s.pc ∧ t.run = s.run ∧ t.state = s.state) ∨ (s.run = false ∧ c = .refresh ∧ t = accepted s) := by
  cases h
  case refresh hr hc => exact .inr ⟨hr, hc, rfl⟩
  all_goals exact .inl ⟨rfl, rfl, rfl⟩

/-! ### What a host access can change -/

/-- An access launches a command, by a legal word, or leaves planes, `RESULT` and sequencer as they are. -/
theorem exec_port_cases {i : Instr} (hi : i.format = .port) (h : exec i s = .next t) :
    (∃ w c, i = .wrCmd w ∧ decodeCmd w = .ok c ∧ runCommand c s = .next t) ∨
      (t.mem = s.mem ∧ t.result = s.result ∧ t.pc = s.pc ∧ t.run = s.run ∧ t.state = s.state) := by
  cases exec_host_cases (by simp [hi]) h with
  | command c _ hc _ =>
    rcases hc with rfl | ⟨w, rfl, hdec⟩
    · cases c <;> simp [Command.toInstr, Instr.format] at hi
    · refine .inl ⟨w, c, rfl, hdec, ?_⟩
      simpa only [exec, execWrCmd, hdec] using h
  | status => exact .inr (by simp)
  | _ => exact .inr ⟨rfl, rfl, rfl, rfl, rfl⟩

/-- `ARG_X` changes only by its own write (10_state.md R15). -/
theorem exec_port_argX {i : Instr} (hi : i.format = .port) (h : exec i s = .next t) :
    t.argX = s.argX ∨ i = .wrArgX t.argX := by
  cases exec_host_cases (by simp [hi]) h with
  | command c _ _ hc => exact .inl hc.operands.1
  | status => exact .inl (by simp)
  | argX v hv => exact .inr hv
  | _ => exact .inl rfl

/-- `ARG_Y` changes only by its own write (R15). -/
theorem exec_port_argY {i : Instr} (hi : i.format = .port) (h : exec i s = .next t) :
    t.argY = s.argY ∨ i = .wrArgY t.argY := by
  cases exec_host_cases (by simp [hi]) h with
  | command c _ _ hc => exact .inl hc.operands.2.1
  | status => exact .inl (by simp)
  | argY v hv => exact .inr hv
  | _ => exact .inl rfl

/-- A write of `CMD` launches the command of a legal word, and only sets ILLEGAL for another (43_host_port.md R103, R104). -/
theorem execWrCmd_cases {w : Word} (h : execWrCmd w s = .next t) :
    (∃ c, decodeCmd w = .ok c ∧ CommandEffect c s t) ∨ t = { s with illegal := true } := by
  unfold execWrCmd at h
  split at h
  · exact .inl ⟨_, ‹_›, runCommand_cases h⟩
  · cases h; exact .inr rfl

/-- The data returned changes only by a read, an access whose control bit `WE` is 0 (30_encoding.md R45). -/
theorem exec_port_readData {i : Instr} (hi : i.format = .port) (h : exec i s = .next t) :
    t.readData = s.readData ∨ ∃ c, encodePort i = some (c, 0) ∧ c.getLsbD 3 = false := by
  cases i <;> simp only [Instr.format, reduceCtorEq] at hi
  case wrCmd w =>
    rcases execWrCmd_cases h with ⟨_, _, hc⟩ | rfl
    · exact .inl hc.operands.2.2
    · exact .inl rfl
  case rdCmd | rdArgX | rdArgY | rdResult | rdStatus | rdRsvd5 | rdRsvd6 | rdRsvd7 => exact .inr ⟨_, rfl, rfl⟩
  all_goals cases h; exact .inl rfl

/-! ### One step, by the agent that moves -/

/-- A step is an access of the host, a step of the sequencer in a running refresh, or only uses up a turn. -/
theorem step_agents (h : step s = .next t) :
    (∃ ctrl data rest, s.turns = .host ctrl data :: rest ∧
        exec (decodePort ctrl data) { s with turns := rest } = .next t) ∨
      (s.run = true ∧ HostSideKept { s with turns := s.turns.tail } t ∧ EntryMove s t) ∨
      t = { s with turns := s.turns.tail } := by
  cases step_cases h with
  | host i _ _ hi hs hturn ht =>
    obtain ⟨ctrl, data, rest, hT, rfl⟩ := hturn
    rw [hT, List.tail_cons] at hs
    exact .inl ⟨ctrl, data, rest, hT, hs ▸ ht⟩
  | unit i _ _ hr he hs ht => subst hs; exact .inr (.inl ⟨hr, exec_spi_frame (format_of_entryOf he) ht⟩)
  | micro e _ _ hr he _ hs ht => subst hs; exact .inr (.inl ⟨hr, stepMicro_frame ht⟩)
  | idle => exact .inr (.inr rfl)

/-- What an access of the host launches: the command of a legal word written to `CMD`, or none. -/
theorem exec_decodePort_cases {ctrl : BitVec 4} {data : Word} (h : exec (decodePort ctrl data) s = .next t) :
    (∃ c, ctrl = 0b1000#4 ∧ data = encodeCmd c ∧ runCommand c s = .next t) ∨
      (t.mem = s.mem ∧ t.result = s.result ∧ t.pc = s.pc ∧ t.run = s.run ∧ t.state = s.state) := by
  rcases exec_port_cases (decodePort_format ctrl data) h with ⟨w, c, hw, hdec, hc⟩ | hsame
  · obtain ⟨hctrl, hdata⟩ := decodePort_write hw rfl rfl
    exact .inl ⟨c, hctrl, hdata.trans (decodeCmd_word hdec), hc⟩
  · exact .inr hsame

/-- What a step of the machine does to the planes. -/
theorem step_mem (h : step s = .next t) : t.mem = s.mem ∨
    (s.run = false ∧ ∃ c rest, s.turns = .host 0b1000#4 (encodeCmd c) :: rest ∧
      ((c = .clear ∧ t.mem = s.mem.clear) ∨
        ∃ k code, k < nPix ∧ code ≠ 0b10#2 ∧ c = .setPixel code ∧ t.mem = pixelMem s.mem k code)) := by
  rcases step_agents h with ⟨ctrl, data, rest, hT, ht⟩ | ⟨_, hkept, _⟩ | rfl
  · rcases exec_decodePort_cases ht with ⟨c, rfl, rfl, hc⟩ | ⟨hm, _⟩
    · exact (runCommand_mem hc).imp_right fun ⟨hr, hmem⟩ => ⟨hr, c, rest, hT, hmem⟩
    · exact .inl hm
  · exact .inl hkept.mem
  · exact .inl rfl

end

/-- The legal words of SET_PIXEL (30_encoding.md R51). -/
theorem setPixel_words : ∀ code : BitVec 2, code ≠ 0b10#2 →
    encodeCmd (.setPixel code) ∈ [0x00000001#32, 0x00000011#32, 0x00000031#32] := by decide

/-- The plane invariant, read through `PixRead` (10_state.md R20). -/
theorem planeInv_iff_pixRead (s : State) : PlaneInv s.mem ↔
    ∀ k, k < nPix → ¬ (pixRead s .primary k = some false ∧ pixRead s .accent k = some true) := by
  refine forall₂_congr fun k hk => ?_
  rw [pixRead_eq s _ hk, pixRead_eq s _ hk, pairOk]
  simp [imp_iff_or_not, or_comm]

/-- Settles O47: a step leaves the planes, clears them, or writes one pixel with a legal code. -/
theorem forbiddenPairIsNeverProduced : Obligations.ForbiddenPairIsNeverProduced := by
  intro s t hwf hs hstep
  have hs : PlaneInv s.mem := (planeInv_iff_pixRead s).2 hs
  refine (planeInv_iff_pixRead t).1 ?_
  rcases step_mem hstep with hm | ⟨_, _, _, _, ⟨_, hm⟩ | ⟨k, code, hk, hcode, _, hm⟩⟩ <;> rw [hm]
  · exact hs
  · exact planeInv_clear s.mem
  · exact planeInv_pixelMem hwf hs hk hcode

/-- A change of an operand register by a step is the host's write of it (10_state.md R15). -/
theorem step_operands {s t : State} (h : step s = .next t) :
    (t.argX = s.argX ∨ ∃ rest, s.turns = .host 0b1001#4 t.argX :: rest) ∧
      (t.argY = s.argY ∨ ∃ rest, s.turns = .host 0b1010#4 t.argY :: rest) := by
  rcases step_agents h with ⟨ctrl, data, rest, hT, ht⟩ | ⟨_, hkept, _⟩ | rfl
  · have hport := decodePort_format ctrl data
    constructor
    · refine (exec_port_argX hport ht).imp_right fun hw => ⟨rest, ?_⟩
      obtain ⟨rfl, rfl⟩ := decodePort_write (c := 0b1001#4) hw rfl rfl
      exact hT
    · refine (exec_port_argY hport ht).imp_right fun hw => ⟨rest, ?_⟩
      obtain ⟨rfl, rfl⟩ := decodePort_write (c := 0b1010#4) hw rfl rfl
      exact hT
  · exact ⟨.inl hkept.argX, .inl hkept.argY⟩
  · exact ⟨.inl rfl, .inl rfl⟩

/-- A change of `RESULT` by a step is the host's launch of GET_PIXEL (R16). -/
theorem step_result {s t : State} (h : step s = .next t) :
    t.result = s.result ∨ ∃ rest, s.turns = .host 0b1000#4 (encodeCmd .getPixel) :: rest := by
  rcases step_agents h with ⟨ctrl, data, rest, hT, ht⟩ | ⟨_, hkept, _⟩ | rfl
  · rcases exec_decodePort_cases ht with ⟨c, rfl, rfl, hc⟩ | ⟨_, hres, _⟩
    · rcases runCommand_result hc with hres | rfl
      · exact .inl hres
      · exact .inr ⟨rest, hT⟩
    · exact .inl hres
  · exact .inl hkept.result
  · exact .inl rfl

/-- A change of the data returned by a step is a read of the host (30_encoding.md R45). -/
theorem step_readData {s t : State} (h : step s = .next t) :
    t.readData = s.readData ∨ ∃ ctrl data rest, s.turns = .host ctrl data :: rest ∧ ctrl.getLsbD 3 = false := by
  rcases step_agents h with ⟨ctrl, data, rest, hT, ht⟩ | ⟨_, hkept, _⟩ | rfl
  · refine (exec_port_readData (decodePort_format ctrl data) ht).imp_right fun ⟨c, hc, hread⟩ => ?_
    rw [encodePort_decodePort, Option.some.injEq, Prod.mk.injEq] at hc
    exact ⟨ctrl, data, rest, hT, hc.1 ▸ hread⟩
  · exact .inl hkept.readData
  · exact .inl rfl

/-- Settles O50: each register by its own lemma on a step, the planes by the words of the commands that write them. -/
theorem registersChangeOnlyByTheirAccess : Obligations.RegistersChangeOnlyByTheirAccess := by
  intro s t h
  refine ⟨(step_operands h).1.resolve_left, (step_operands h).2.resolve_left, (step_result h).resolve_left,
    fun hne => ?_, (step_readData h).resolve_left⟩
  obtain ⟨hr, c, rest, hT, hc⟩ := (step_mem h).resolve_left hne
  refine ⟨hr, encodeCmd c, rest, hT, ?_⟩
  rcases hc with ⟨rfl, _⟩ | ⟨_, code, _, hcode, rfl, _⟩
  · decide
  · exact List.mem_append_left [0x00000003#32] (setPixel_words code hcode)

/-! ### The entry index -/

/-- How a step moves the sequencer: within or past its entry, by an accepted REFRESH, or not at all. -/
theorem step_entry {s t : State} (h : step s = .next t) :
    (s.run = true ∧ EntryMove s t) ∨ (t.pc = s.pc ∧ t.run = s.run ∧ t.state = s.state) ∨
      (s.run = false ∧ (t.pc = 0 ∧ t.run = true ∧ t.state = .reset) ∧
        ∃ rest, s.turns = .host 0b1000#4 (encodeCmd .refresh) :: rest) := by
  rcases step_agents h with ⟨ctrl, data, rest, hT, ht⟩ | ⟨hr, _, hmove⟩ | rfl
  · rcases exec_decodePort_cases ht with ⟨c, rfl, rfl, hc⟩ | ⟨_, _, hsame⟩
    · rcases (runCommand_cases hc).entry with hsame | ⟨hr, rfl, rfl⟩
      · exact .inr (.inl hsame)
      · exact .inr (.inr ⟨hr, ⟨rfl, rfl, rfl⟩, rest, hT⟩)
    · exact .inr (.inl hsame)
  · exact .inl ⟨hr, hmove⟩
  · exact .inr (.inl ⟨rfl, rfl, rfl⟩)

/-- The entry after an entry is the next by number, and the last one stays. -/
theorem nextEntry_stays_or_advances (e : Fin 21) : nextEntry e = e ∨ (nextEntry e).val = e.val + 1 := by
  by_cases h : e = 20
  · exact .inl (by rw [h]; rfl)
  · exact .inr (nextEntry_val h)

/-- Settles O57: the sequencer stays in its entry or completes it, and only an accepted REFRESH starts it. -/
theorem entryIndexAdvances : Obligations.EntryIndexAdvances := by
  intro s t h
  rcases step_entry h with ⟨hr, ⟨hpc, hrun, _⟩ | ⟨hpc, _, hrun⟩⟩ | ⟨hpc, hrun, _⟩ | ⟨hr, ⟨hpc, hrun, hst⟩, hT⟩
  · exact ⟨fun _ => .inl hpc, by simp [hrun, hr], by simp [hr], by simp [hr]⟩
  · refine ⟨fun _ => hpc ▸ nextEntry_stays_or_advances s.pc, fun _ hstop => ?_, by simp [hr], by simp [hr]⟩
    by_contra hlast
    rw [hrun, if_neg (fun he => hlast ((entryOf_eq_fin_iff _).1 he)), hr] at hstop
    cases hstop
  · refine ⟨fun _ => .inl hpc, fun h1 h2 => ?_, fun _ _ => hpc, fun h1 h2 => ?_⟩ <;> simp [hrun, h1] at h2
  · exact ⟨by simp [hr], by simp [hr], by simp [hrun], fun _ _ => ⟨hpc, hst, hT⟩⟩

end Sys2Proof.Machine

namespace Sys2Proof.Machine

/-! ### The sequencer's steps on what the sequencer sees -/

/-- A function of states applied to the next state an outcome answers. -/
def mapNext (f : State → State) : Result → Result
  | .next t => .next (f t)
  | .fault r => .fault r
  | .refused r => .refused r

theorem mapNext_eq_next {f : State → State} {o : Result} {u : State} (h : mapNext f o = .next u) :
    ∃ t, o = .next t ∧ f t = u := by
  cases o <;> simp only [mapNext, reduceCtorEq, Host.Outcome.next.injEq] at h
  exact ⟨_, rfl, h⟩

/-- What the next step performs, once fetched. -/
def perform : Fetched → Result
  | .instr i s => exec i s
  | .micro e s => stepMicro e s
  | .idle s => .next s

theorem step_eq_perform (s : State) : step s = perform (fetch s) := rfl

section
variable (s : State)

theorem countTo_seqView (n : Nat) : countTo n (seqView s) = seqView (countTo n s) := by
  unfold countTo
  rw [apply_ite seqView]; rfl

theorem emit_seqView (d : Level) (b : Byte) (more : Bool) : emit d b more (seqView s) = seqView (emit d b more s) := by
  rw [emit_eq, emit_eq]; rfl

theorem sampleBusy_seqView : sampleBusy (seqView s) = ((sampleBusy s).1, seqView (sampleBusy s).2) := by
  rcases sampleBusy_cases s with ⟨b, rest, hb, e⟩ | ⟨hb, e⟩ <;> rw [e, sampleBusy] <;>
    simp only [show (seqView s).busyIn = s.busyIn from rfl, hb] <;> rfl

theorem afterSample_seqView (k : WaitKind) (b : Level) : afterSample k b (seqView s) = seqView (afterSample k b s) := by
  unfold afterSample
  rw [apply_ite seqView, apply_ite seqView]
  cases k <;> rfl

theorem stepSample_seqView (k : WaitKind) : stepSample k (seqView s) = seqView (stepSample k s) := by
  unfold stepSample
  rw [sampleBusy_seqView]
  exact afterSample_seqView (note (.sample (sampleBusy s).1) (sampleBusy s).2) k _

theorem stepSettle_seqView : stepSettle (seqView s) = seqView (stepSettle s) := by
  unfold stepSettle
  rw [apply_ite seqView]; rfl

theorem stepBusyWait_seqView (k : WaitKind) : stepBusyWait k (seqView s) = seqView (stepBusyWait k s) := by
  unfold stepBusyWait
  rw [show (seqView s).bw = s.bw from rfl]
  split
  · exact stepSettle_seqView s
  · exact stepSample_seqView s k
  · rfl

theorem stepMicro_seqView (e : Entry) : stepMicro e (seqView s) = mapNext seqView (stepMicro e s) := by
  cases e with
  | pin v => rfl
  | delay d => exact congrArg Host.Outcome.next (countTo_seqView (note .tick s) _)
  | busyWait k => exact congrArg Host.Outcome.next (stepBusyWait_seqView s k)
  | pass => rfl
  | unit i => rfl
  | fin => rfl

theorem stepUnit_seqView (opc : Byte) (payload : List Byte) :
    stepUnit opc payload (seqView s) = mapNext seqView (stepUnit opc payload s) := by
  rcases Nat.lt_or_ge payload.length s.sub with h | h
  · rw [stepUnit_past h, stepUnit_past (by exact h)]; rfl
  · rw [stepUnit_eq h, stepUnit_eq (by exact h), emit_seqView, countTo_seqView]; rfl

theorem stepStream_seqView (opc : Byte) (pl : Plane) :
    stepStream opc pl (seqView s) = mapNext seqView (stepStream opc pl s) := by
  rcases Nat.lt_or_ge planeBytes s.sub with h | h
  · rw [stepStream_past h, stepStream_past (by exact h)]; rfl
  · rw [stepStream_eq h, stepStream_eq (by exact h), emit_seqView, countTo_seqView]; rfl

/-- An SPI instruction does on what the sequencer sees what it does on the whole state. -/
theorem exec_spi_seqView {i : Instr} (hi : i.format = .spi) : exec i (seqView s) = mapNext seqView (exec i s) := by
  cases i <;> simp only [Instr.format, reduceCtorEq] at hi
  case wramP => exact stepStream_seqView s _ _
  case wramA => exact stepStream_seqView s _ _
  all_goals exact stepUnit_seqView s _ _

theorem perform_fetchEntry_seqView : perform (fetchEntry (seqView s)) = mapNext seqView (perform (fetchEntry s)) := by
  unfold fetchEntry
  rw [show (seqView s).pc = s.pc from rfl]
  split
  · exact exec_spi_seqView s (format_of_entryOf ‹_›)
  · exact stepMicro_seqView s _

/-- A turn of the sequencer or the tick does on what the sequencer sees what it does on the whole state. -/
theorem perform_sequencerTurn_seqView (tick : Bool) :
    perform (sequencerTurn tick (seqView s)) = mapNext seqView (perform (sequencerTurn tick s)) := by
  unfold sequencerTurn
  rw [show (seqView s).run = s.run from rfl, show waitsForTick (seqView s) = waitsForTick s from rfl]
  split
  · exact perform_fetchEntry_seqView s
  · rfl

end

/-- A step in a turn of the sequencer or of the tick. -/
theorem step_of_turn {s : State} {turn : Turn} {rest : List Turn} (ht : turn = .sequencer ∨ turn = .tick)
    (hT : s.turns = turn :: rest) :
    step s = perform (sequencerTurn (turn == .tick) { s with turns := rest }) := by
  rcases ht with rfl | rfl <;> simp only [step_eq_perform, fetch, hT] <;> rfl

/-- Settles O52: the step of a turn, taken on what the sequencer sees, is the same in both states. -/
theorem sequencerDoesNotSeeTheHost : Obligations.SequencerDoesNotSeeTheHost := by
  intro s s' t turn rest rest' hturn hT hT' hview hstep
  rw [step_of_turn hturn hT] at hstep
  rw [step_of_turn hturn hT']
  have hview : seqView { s' with turns := rest' } = seqView { s with turns := rest } := hview.symm
  have hmap : mapNext seqView (perform (sequencerTurn (turn == .tick) { s' with turns := rest' })) = .next (seqView t) := by
    rw [← perform_sequencerTurn_seqView, hview, perform_sequencerTurn_seqView, hstep]; rfl
  obtain ⟨t', ht', hv⟩ := mapNext_eq_next hmap
  exact ⟨t', ht', hv.symm⟩

end Sys2Proof.Machine

namespace Sys2Proof.Machine

/-! ### Reads of the host port, the configuration, and the planes of a running refresh (20_memory.md R34, R37, R41) -/

section
variable {s t : State}

theorem toInstr_format (c : Command) : c.toInstr.format = .cmd := by cases c <;> rfl

/-- With `WE` = 0 no transaction is a write (30_encoding.md R45). -/
theorem decodePort_ne_write {ctrl c : BitVec 4} {data v : Word} {i : Instr} (hread : ctrl.getLsbD 3 = false)
    (hi : encodePort i = some (c, v)) (hw : c.getLsbD 3 = true) : decodePort ctrl data ≠ i := by
  intro h
  obtain ⟨rfl, _⟩ := decodePort_write h hi hw
  exact Bool.false_ne_true (hread.symm.trans hw)

/-- `RD STATUS` has the control bits 0b0100 only (R45). -/
theorem decodePort_eq_rdStatus {ctrl : BitVec 4} {data : Word} (h : decodePort ctrl data = .rdStatus) :
    ctrl = 0b0100#4 := by
  have henc := encodePort_decodePort ctrl data
  rw [h] at henc
  exact (congrArg Prod.fst (Option.some.inj henc)).symm

/-- What a read does: it returns a word, and a read of `STATUS` draws `BUSY` besides (20_memory.md R34). -/
theorem exec_read_cases {ctrl : BitVec 4} {data : Word} (hread : ctrl.getLsbD 3 = false)
    (h : exec (decodePort ctrl data) s = .next t) :
    (∃ v, t = { s with readData := v }) ∨
      (ctrl = 0b0100#4 ∧ ∃ v l n, t = { s with readData := v, busyIn := l, draws := n }) := by
  have hport := decodePort_format ctrl data
  cases exec_host_cases (by simp [hport]) h with
  | command c _ hc _ =>
    rcases hc with hc | ⟨w, hw, _⟩
    · rw [hc, toInstr_format] at hport; cases hport
    · exact absurd hw (decodePort_ne_write hread rfl rfl)
  | nothing => exact .inl ⟨s.readData, rfl⟩
  | read v => exact .inl ⟨v, rfl⟩
  | status hi =>
    obtain ⟨l, n, hdraw⟩ := sampleBusy_frame s
    exact .inr ⟨decodePort_eq_rdStatus hi, _, l, n, by rw [hdraw]⟩
  | illegal w hw => exact absurd hw (decodePort_ne_write hread rfl rfl)
  | argX v hw => exact absurd hw (decodePort_ne_write hread rfl rfl)
  | argY v hw => exact absurd hw (decodePort_ne_write hread rfl rfl)
  | sticky v hw => exact absurd hw (decodePort_ne_write hread rfl rfl)

theorem CommandEffect.cfg {c : Command} (h : CommandEffect c s t) : t.cfg = s.cfg := by
  cases h <;> rfl

theorem HostEffect.cfg {i : Instr} (h : HostEffect i s t) : t.cfg = s.cfg := by
  cases h with
  | command _ _ _ hc => exact hc.cfg
  | status => exact sampleBusy_cfg s
  | _ => rfl

theorem step_cfg (h : step s = .next t) : t.cfg = s.cfg := by
  rcases step_agents h with ⟨ctrl, data, _, _, ht⟩ | ⟨_, hkept, _⟩ | rfl
  · exact (exec_host_cases (by simp [decodePort_format]) ht).cfg
  · exact hkept.cfg
  · rfl

/-- A step of a running refresh, the host's accesses among them, leaves the planes (R37). -/
theorem step_mem_of_running (hr : s.run = true) (h : step s = .next t) : t.mem = s.mem :=
  (step_mem h).resolve_right fun ⟨hidle, _⟩ => Bool.false_ne_true (hidle.symm.trans hr)

/-- A run of one step more begins with a step that answers. -/
theorem runSteps_succ_eq_next {n : Nat} (h : runSteps (n + 1) s = .next t) :
    ∃ u, step s = .next u ∧ runSteps n u = .next t := by
  rw [runSteps_succ] at h
  split at h
  · exact ⟨_, ‹_›, h⟩
  · cases h
  · cases h

end

/-- Settles O25: the data returned and the draw are the only fields a read writes. -/
theorem readsHaveNoSideEffect : Obligations.ReadsHaveNoSideEffect := by
  intro s t ctrl data hread h
  rcases exec_read_cases hread h with ⟨v, rfl⟩ | ⟨hstatus, v, l, n, rfl⟩
  · exact ⟨rfl, fun _ => ⟨rfl, rfl⟩⟩
  · exact ⟨rfl, fun hne => absurd hstatus hne⟩

/-- Settles O49: neither the host, nor the sequencer, nor a used-up turn writes `CFG`. -/
theorem configurationIsFixed : Obligations.ConfigurationIsFixed := fun _ _ => step_cfg

/-- Settles O53, by induction on the number of steps, the first of them a step of a running refresh. -/
theorem planesAreFrozenDuringARefresh : Obligations.PlanesAreFrozenDuringARefresh := by
  intro n
  induction n with
  | zero => intro s t h _; cases h; rfl
  | succ n ih =>
    intro s t h hrun
    obtain ⟨u, hstep, hrest⟩ := runSteps_succ_eq_next h
    calc t.mem = u.mem := ih u t hrest fun m v hm hv => hrun (m + 1) v (by omega) (by rw [runSteps_next hstep, hv])
      _ = s.mem := step_mem_of_running (hrun 0 s (by omega) rfl) hstep

end Sys2Proof.Machine

namespace Sys2Proof.Machine

/-! ### `CMD` words and the commands they carry (30_encoding.md R46, R47, R51) -/

/-- A well-formed command is read back from its word. -/
theorem decodeCmd_encodeCmd {c : Command} (h : c.wf = true) : decodeCmd (encodeCmd c) = .ok c := by
  cases c with
  | setPixel code => revert code; decide
  | nop | getPixel | clear | refresh => rfl

/-- R51: no word decodes to SET_PIXEL with the code 0b10. -/
theorem wf_of_decodeCmd {w : Word} {c : Command} (h : decodeCmd w = .ok c) : c.wf = true := by
  unfold decodeCmd at h
  split_ifs at h <;> cases h <;> simp_all [Command.wf]

/-- The words that decode are those of the well-formed commands. -/
theorem decodeCmd_eq_ok_iff {w : Word} {c : Command} :
    decodeCmd w = .ok c ↔ c.wf = true ∧ w = encodeCmd c := by
  constructor
  · exact fun h => ⟨wf_of_decodeCmd h, decodeCmd_word h⟩
  · rintro ⟨hwf, rfl⟩
    exact decodeCmd_encodeCmd hwf

/-- The list of legal words is the list of the well-formed commands with their words. -/
theorem mem_legalWords_iff {w : Word} {c : Command} :
    (w, c) ∈ legalWords ↔ c.wf = true ∧ w = encodeCmd c := by
  constructor
  · have listed : ∀ r ∈ legalWords, r.2.wf = true ∧ r.1 = encodeCmd r.2 := by decide
    exact listed (w, c)
  · rintro ⟨hwf, rfl⟩
    cases c with
    | setPixel code => revert code; decide
    | nop | getPixel | clear | refresh => decide

/-- RSVD is 0 when bits [31:6] are. -/
theorem cmdRsvd_eq_zero_iff (w : Word) : cmdRsvd w = 0 ↔ ∀ i, 6 ≤ i → w.getLsbD i = false := by
  constructor
  · intro h i hi
    by_cases hlt : i < 32
    · have hbit := congrArg (fun r : BitVec 26 => r.getLsbD (i - 6)) h
      simpa [cmdRsvd, show i - 6 < 26 by omega, show 6 + (i - 6) = i by omega] using hbit
    · exact BitVec.getLsbD_of_ge w i (by omega)
  · intro h
    refine BitVec.eq_of_getLsbD_eq fun i _ => ?_
    simp [cmdRsvd, h]

/-- OP is SET_PIXEL's code when bits [3:0] are 0001. -/
theorem cmdOp_eq_one_iff (w : Word) : cmdOp w = 0x1 ↔
    w.getLsbD 3 = false ∧ w.getLsbD 2 = false ∧ w.getLsbD 1 = false ∧ w.getLsbD 0 = true := by
  have nibble : ∀ x : BitVec 4, x = 0x1 ↔
      x.getLsbD 3 = false ∧ x.getLsbD 2 = false ∧ x.getLsbD 1 = false ∧ x.getLsbD 0 = true := by decide
  rw [nibble]
  simp [cmdOp]

/-- COLOR is the code that is no colour when bits [5:4] are 10. -/
theorem cmdColor_eq_two_iff (w : Word) : cmdColor w = 0b10 ↔ w.getLsbD 5 = true ∧ w.getLsbD 4 = false := by
  have pair : ∀ x : BitVec 2, x = 0b10 ↔ x.getLsbD 1 = true ∧ x.getLsbD 0 = false := by decide
  rw [pair]
  simp [cmdColor]

/-- `legal(w)` by the fields of R46 in place of the bits. -/
theorem legal_iff_fields (w : Word) : legal w ↔ w = encodeCmd .nop
    ∨ (cmdRsvd w = 0 ∧ cmdOp w = 0x1 ∧ cmdColor w ≠ 0b10)
    ∨ w = encodeCmd .getPixel ∨ w = encodeCmd .clear ∨ w = encodeCmd .refresh := by
  rw [cmdRsvd_eq_zero_iff, cmdOp_eq_one_iff, ne_eq, cmdColor_eq_two_iff]
  exact Iff.rfl

/-- The SET_PIXEL words are those with its operation, a colour, and the reserved bits 0. -/
theorem setPixel_fields_iff (w : Word) : (cmdRsvd w = 0 ∧ cmdOp w = 0x1 ∧ cmdColor w ≠ 0b10) ↔
    ∃ code, Command.wf (.setPixel code) = true ∧ w = encodeCmd (.setPixel code) := by
  constructor
  · rintro ⟨hrsvd, hop, hcolor⟩
    refine ⟨cmdColor w, bne_iff_ne.2 hcolor, ?_⟩
    conv_lhs => rw [← cmdWord_fields w, hrsvd, hop]
    rfl
  · rintro ⟨code, hwf, rfl⟩
    revert code; decide

/-- A word is legal when it is the word of a well-formed command. -/
theorem legal_iff_encodeCmd (w : Word) : legal w ↔ ∃ c : Command, c.wf = true ∧ w = encodeCmd c := by
  rw [legal_iff_fields, setPixel_fields_iff]
  constructor
  · rintro (h | ⟨code, hwf, h⟩ | h | h | h)
    exacts [⟨.nop, rfl, h⟩, ⟨.setPixel code, hwf, h⟩, ⟨.getPixel, rfl, h⟩, ⟨.clear, rfl, h⟩, ⟨.refresh, rfl, h⟩]
  · rintro ⟨c, hwf, h⟩
    cases c with
    | nop => exact .inl h
    | setPixel code => exact .inr (.inl ⟨code, hwf, h⟩)
    | getPixel => exact .inr (.inr (.inl h))
    | clear => exact .inr (.inr (.inr (.inl h)))
    | refresh => exact .inr (.inr (.inr (.inr h)))

/-- Settles O2: decoding, the rule by bits and the list each say that the word is that of a well-formed command. -/
theorem legalCommandWords : Obligations.LegalCommandWords := by
  intro w
  refine ⟨?_, ?_, fun c => ?_⟩
  · simp only [legal_iff_encodeCmd, decodeCmd_eq_ok_iff]
  · simp only [legal_iff_encodeCmd, List.mem_map, Prod.exists, mem_legalWords_iff, exists_and_right, exists_eq_right]
  · rw [decodeCmd_eq_ok_iff, mem_legalWords_iff]

/-! ### The bytes of the three formats (log entry 11) -/

/-- An instruction of the `CMD` format is a command's, and well-formed with it. -/
theorem exists_command {i : Instr} (hi : i.format = .cmd) : ∃ c : Command, i = c.toInstr ∧ i.wf = c.wf := by
  cases i <;> simp only [Instr.format, reduceCtorEq] at hi
  case nop => exact ⟨.nop, rfl, rfl⟩
  case setPixel code => exact ⟨.setPixel code, rfl, rfl⟩
  case getPixel => exact ⟨.getPixel, rfl, rfl⟩
  case clear => exact ⟨.clear, rfl, rfl⟩
  case refresh => exact ⟨.refresh, rfl, rfl⟩

/-- R45: a `PORT` access is the one its control bits and `DATA` decode to, and its bytes carry both. -/
theorem exists_transaction (p : PanelCommands) {i : Instr} (hi : i.format = .port) :
    ∃ ctrl data, decodePort ctrl data = i ∧ encode p i = (0#4 ++ ctrl : BitVec 8) :: bytesOfWord data := by
  cases i <;> simp only [Instr.format, reduceCtorEq] at hi <;> exact ⟨_, _, rfl, rfl⟩

/-- R55: an SPI instruction is a row of the table of units, and its bytes are the row's opcode with tag 0. -/
theorem exists_opcode (p : PanelCommands) {i : Instr} (hi : i.format = .spi) :
    ∃ b, (b, i) ∈ spiTable p ∧ encode p i = [b, 0x00#8] := by
  cases i <;> simp only [Instr.format, reduceCtorEq] at hi <;> exact ⟨_, by simp [spiTable], rfl⟩

theorem encode_toInstr (p : PanelCommands) (c : Command) : encode p c.toInstr = bytesOfWord (encodeCmd c) := by
  cases c <;> rfl

/-- Decoding reads only the bytes of the instruction; what follows is handed on. -/
theorem decode_append {p : PanelCommands} {f : Format} {bytes left : List Byte} {i : Instr}
    (h : decode p f bytes = .ok (i, left)) (rest : List Byte) : decode p f (bytes ++ rest) = .ok (i, left ++ rest) := by
  unfold decode at h
  split at h
  · split at h <;> cases h
    simp only [List.cons_append, decode, *]
  · split at h <;> cases h
    simp only [List.cons_append, decode, *, if_false]
  · split at h
    · cases h
    · split at h <;> cases h
      simp only [List.cons_append, decode, *, if_false]
  all_goals cases h

theorem decode_cmd_bytes (p : PanelCommands) {c : Command} (h : c.wf = true) :
    decode p .cmd (bytesOfWord (encodeCmd c)) = .ok (c.toInstr, []) := by
  simp only [bytesOfWord, decode, wordOfBytes_bytes, decodeCmd_encodeCmd h]

/-- Where the opcodes differ, the row found for an opcode is the only one with it. -/
theorem decodeSpi_of_mem {p : PanelCommands} (hp : p.distinct = true) {b : Byte} {i : Instr}
    (h : (b, i) ∈ spiTable p) : decodeSpi p false b = .ok i := by
  have hkeys : ((spiTable p).map Prod.fst).Nodup := of_decide_eq_true hp
  have hfind : (spiTable p).find? (fun row => row.1 == b) = some (b, i) := by
    cases hf : (spiTable p).find? (fun row => row.1 == b) with
    | none => exact absurd (beq_self_eq_true b) (List.find?_eq_none.1 hf _ h)
    | some row =>
      have hb : row.1 = b := by simpa using List.find?_some hf
      exact congrArg some (List.inj_on_of_nodup_map hkeys (List.mem_of_find?_eq_some hf) h hb)
  simp only [decodeSpi, hfind, Bool.false_eq_true, if_false]

theorem decode_spi_bytes {p : PanelCommands} (hp : p.distinct = true) {b : Byte} {i : Instr}
    (h : (b, i) ∈ spiTable p) : decode p .spi [b, 0x00#8] = .ok (i, []) := by
  have htag : (0x00#8).extractLsb' 1 7 = 0 ∧ (0x00#8).getLsbD 0 = false := by decide
  simp only [decode, htag, decodeSpi_of_mem hp h, ne_eq, not_true_eq_false, if_false]

/-- Settles O1, format by format: the word of the command, the control bits and `DATA` of the transaction, the opcode of
the unit. -/
theorem decodeEncodeAgree : Obligations.DecodeEncodeAgree := by
  intro p i rest hwf hp
  refine decode_append (left := []) ?_ rest
  cases hi : i.format with
  | cmd =>
    obtain ⟨c, rfl, hc⟩ := exists_command hi
    rw [encode_toInstr]
    exact decode_cmd_bytes p (hc.symm.trans hwf)
  | port =>
    obtain ⟨ctrl, data, hdec, henc⟩ := exists_transaction p hi
    rw [henc, decode_port_bytes, hdec]
  | spi =>
    obtain ⟨b, hrow, henc⟩ := exists_opcode p hi
    rw [henc]
    exact decode_spi_bytes (hp hi) hrow

/-- Settles O3: the access carries its control bits, and its `DATA` where `WE` is 1. -/
theorem portControlBits : Obligations.PortControlBits := fun ctrl data =>
  ⟨_, encodePort_decodePort ctrl data, fun hw => if_pos hw⟩

/-- Settles O4: each word, run through the decoder. -/
theorem specWordsDecode : Obligations.SpecWordsDecode := ⟨rfl, rfl, rfl, rfl, rfl, rfl, rfl⟩

/-! ### Host turns in a run, and the pseudo-instructions (30_encoding.md R58) -/

section
variable {s : State} {rest : List Turn}

/-- A transaction listed next is the access the step performs. -/
theorem step_host {ctrl : BitVec 4} {data : Word} (h : s.turns = .host ctrl data :: rest) :
    step s = exec (decodePort ctrl data) { s with turns := rest } := by
  simp only [step, fetch, h]

theorem runSteps_one (s : State) : runSteps 1 s = step s := by
  rw [runSteps_succ]
  cases step s <;> rfl

/-- A write of a well-formed command's word performs the command inside the access (43_host_port.md R103). -/
theorem execWrCmd_encodeCmd {c : Command} (hc : c.wf = true) (s : State) :
    execWrCmd (encodeCmd c) s = runCommand c s := by
  simp only [execWrCmd, decodeCmd_encodeCmd hc]

theorem runSteps_command {c : Command} (hc : c.wf = true) (h : s.turns = .host 0b1000#4 (encodeCmd c) :: rest) :
    runSteps 1 s = runCommand c { s with turns := rest } :=
  calc runSteps 1 s
      = step s := runSteps_one s
    _ = execWrCmd (encodeCmd c) { s with turns := rest } := step_host h
    _ = runCommand c { s with turns := rest } := execWrCmd_encodeCmd hc _

/-- An access listed next that answers is the first step of the run. -/
theorem runSteps_access {n : Nat} {ctrl : BitVec 4} {data : Word} {t : State} (h : s.turns = .host ctrl data :: rest)
    (ht : exec (decodePort ctrl data) { s with turns := rest } = .next t) : runSteps (n + 1) s = runSteps n t :=
  runSteps_next ((step_host h).trans ht)

/-- Two steps write the coordinates. -/
theorem runSteps_coordinates {x y : Word} (h : s.turns = coordinateTurns x y ++ rest) :
    runSteps 2 s = .next { s with argX := x, argY := y, turns := rest } :=
  calc runSteps 2 s
      = runSteps 1 { s with argX := x, turns := .host 0b1010#4 y :: rest } := runSteps_access h rfl
    _ = runSteps 0 { s with argX := x, argY := y, turns := rest } := runSteps_access rfl rfl

/-- RUN is bit 4 of `STATUS` (10_state.md R17). -/
theorem statusWord_run (b : Level) (s : State) : (statusWord b s).getLsbD 4 = s.run := by
  simp only [statusWord, BitVec.getLsbD_setWidth, BitVec.getLsbD_append]
  simp

/-- A round of `WAITIDLE` ends the wait when no refresh runs. -/
theorem runSteps_waitIdle (h : s.turns = waitIdleTurn :: rest) :
    ∃ t, runSteps 1 s = .next t ∧ idleSeen t.readData = !s.run :=
  ⟨_, (runSteps_one s).trans (step_host h), congrArg not (statusWord_run _ _)⟩

/-- `CLRFLAGS` clears both sticky flags (43_host_port.md R114). -/
theorem clearSticky_both (s : State) : clearSticky 0x00000300#32 s = { s with rejected := false, illegal := false } := by
  simp [clearSticky]

/-- `SETPX` is SET_PIXEL on the coordinates it wrote. -/
theorem runSteps_setpx {x y : Word} {code : BitVec 2} (hcode : code ≠ 0b10#2)
    (h : s.turns = (Pseudo.setpx x y code).turns ++ rest) :
    runSteps 3 s = exec (.setPixel code) { s with argX := x, argY := y, turns := rest } := by
  rw [Pseudo.turns, List.append_assoc] at h
  rw [runSteps_add (n := 1) (runSteps_coordinates h)]
  exact runSteps_command (c := .setPixel code) (bne_iff_ne.2 hcode) rfl

/-- The word GET_PIXEL puts into `RESULT` (40_framebuffer.md R62). -/
def pixelWord (s : State) : Word :=
  if inCanvas (pixelX s) (pixelY s) then
    pixelResult (laneAt s.mem .primary (pixelIndex (pixelX s) (pixelY s)))
      (laneAt s.mem .accent (pixelIndex (pixelX s) (pixelY s)))
  else clippedResult

theorem execGetPixel_eq (s : State) : execGetPixel s = .next { s with result := pixelWord s } := by
  unfold pixelWord
  split
  · exact execGetPixel_inCanvas s ‹_›
  · exact execGetPixel_clipped s (Bool.eq_false_of_not_eq_true ‹_›)

/-- GET_PIXEL and a read of `RESULT` next: the word goes into `RESULT` and is returned, whatever turns are listed. -/
theorem runSteps_getPixel_read {d : Word}
    (h : s.turns = .host 0b1000#4 (encodeCmd .getPixel) :: .host 0b0011#4 d :: rest) :
    runSteps 2 s = .next { s with turns := rest, result := pixelWord s, readData := pixelWord s } :=
  calc runSteps 2 s
      = runSteps 1 { s with turns := .host 0b0011#4 d :: rest, result := pixelWord s } :=
        runSteps_access h ((execWrCmd_encodeCmd (c := .getPixel) rfl _).trans (execGetPixel_eq _))
    _ = .next { s with turns := rest, result := pixelWord s, readData := pixelWord s } := runSteps_access rfl rfl

/-- `GETPX` is GET_PIXEL on the coordinates it wrote, and then the read of what it put into `RESULT`. -/
theorem runSteps_getpx {x y : Word} (h : s.turns = (Pseudo.getpx x y).turns ++ rest) :
    ∃ t, exec .getPixel { s with argX := x, argY := y, turns := rest } = .next t
      ∧ runSteps 4 s = .next { t with readData := t.result } := by
  rw [Pseudo.turns, List.append_assoc] at h
  refine ⟨_, execGetPixel_eq _, ?_⟩
  rw [runSteps_add (n := 2) (runSteps_coordinates h)]
  exact runSteps_getPixel_read rfl

end

/-- Settles O26: each list of turns by its own lemma on the run. -/
theorem pseudoInstructionsRun : Obligations.PseudoInstructionsRun := by
  refine ⟨fun s x y c rest hc h => runSteps_setpx hc h, fun s x y rest h => runSteps_getpx h,
    fun s rest => ⟨?_, ?_, ?_, ?_, runSteps_waitIdle⟩⟩
  · exact runSteps_command (c := .clear) rfl
  · exact runSteps_command (c := .refresh) rfl
  · exact runSteps_command (c := .nop) rfl
  · exact fun h => (runSteps_access h rfl).trans (congrArg Host.Outcome.next (clearSticky_both _))

end Sys2Proof.Machine

namespace Sys2Proof.Machine

/-! ### The framebuffer: coordinates, lanes and colour codes (40_framebuffer.md R59, R60, R66) -/

/-- The index of a pixel, on signed integers. -/
theorem pixelIndex_cast {x y : Int} (h : inCanvas x y = true) : (pixelIndex x y : Int) = x + y * 400 := by
  rw [inCanvas_iff] at h
  simp only [pixelIndex, width]
  omega

/-- A mask is the top bit of a byte, moved down: most-significant-bit-first. -/
theorem maskOf_eq_shiftRight (k : Nat) : maskOf k = 0x80#8 >>> (k % 8) := by
  have shifts : ∀ r < 8, 1#8 <<< (7 - r) = 0x80#8 >>> r := by decide
  exact shifts (k % 8) (Nat.mod_lt k (by decide))

/-- Settles O8: the byte and the bit are the quotient and the remainder of the index by 8, and a row is 50 bytes. -/
theorem pixelAddressing : Obligations.PixelAddressing := by
  refine fun x y => ⟨inCanvas_iff x y, fun h => ?_⟩
  have hk := pixelIndex_cast h
  refine ⟨hk, pixelIndex_lt h, rfl, ?_, ?_, maskOf_eq_shiftRight _⟩ <;> simp only [byteOf, bitOf] <;> omega

/-- In the canvas the index says which coordinates. -/
theorem pixelIndex_injective {x y x' y' : Int} (h : inCanvas x y = true) (h' : inCanvas x' y' = true)
    (hk : pixelIndex x y = pixelIndex x' y') : x = x' ∧ y = y' := by
  have hcast := pixelIndex_cast h
  have hcast' := pixelIndex_cast h'
  rw [inCanvas_iff] at h h'
  omega

/-- Every index is that of its row and column. -/
theorem exists_pixelIndex {k : Nat} (hk : k < nPix) : ∃ x y : Int, inCanvas x y = true ∧ pixelIndex x y = k := by
  simp only [nPix] at hk
  have hin : inCanvas (k % 400 : Nat) (k / 400 : Nat) = true := by rw [inCanvas_iff]; omega
  refine ⟨_, _, hin, ?_⟩
  have hcast := pixelIndex_cast hin
  omega

/-- Settles O9: byte and bit say which index, and the index says which coordinates. -/
theorem lanesAndCoordinatesMatch : Obligations.LanesAndCoordinatesMatch := by
  refine ⟨fun x y x' y' h h' hbyte hbit => pixelIndex_injective h h' (lane_injective hbyte hbit),
    fun byte bit hbyte hbit => ?_⟩
  obtain ⟨x, y, hin, hk⟩ := exists_pixelIndex (k := byte * 8 + (7 - bit)) (by simp only [nPix]; omega)
  refine ⟨x, y, hin, ?_, ?_⟩ <;> rw [hk] <;> simp only [byteOf, bitOf] <;> omega

/-- Settles O10: the rows of the table, and the four pairs of plane bits. -/
theorem compositingTable : Obligations.CompositingTable := by
  refine ⟨⟨rfl, rfl⟩, ⟨rfl, rfl⟩, ⟨rfl, rfl⟩, fun c => ?_, ?_⟩
  · cases c <;> rfl
  · decide

/-- `PixRead` of a pixel is its lane. -/
theorem pixRead_eq_laneAt (s : State) (pl : Plane) {k : Nat} (hk : k < nPix) :
    pixRead s pl k = some (laneAt s.mem pl k) := pixRead_eq s pl hk

/-- A byte read is the same in two states whose plane memories agree at its address. -/
theorem memRead_congr_get {s t : State} {a : Nat} (h : s.mem.get a = t.mem.get a) : memRead s a = memRead t a := by
  simp only [memRead, h]

/-! ### SET_PIXEL (40_framebuffer.md R61) -/

section
variable {s : State} {c : BitVec 2}

theorem exec_setPixel_running (hc : c ≠ 0b10#2) (hr : s.run = true) :
    exec (.setPixel c) s = .next { s with rejected := true } :=
  (if_neg hc).trans (guarded_running hr _)

/-- A legal SET_PIXEL while no refresh runs passes the checks. -/
theorem exec_setPixel_idle (hc : c ≠ 0b10#2) (hr : s.run = false) : exec (.setPixel c) s = setPixel c s :=
  (if_neg hc).trans (guarded_idle hr _)

variable {m : Memory} {k : Nat}

theorem laneAt_pixelMem_primary (hm : m.wf = true) (hk : k < nPix) (c : BitVec 2) :
    laneAt (pixelMem m k c) .primary k = codePrimary c := (lane_pixelMem hm hk c .primary hk).trans (if_pos rfl)

theorem laneAt_pixelMem_accent (hm : m.wf = true) (hk : k < nPix) (c : BitVec 2) :
    laneAt (pixelMem m k c) .accent k = codeAccent c := (lane_pixelMem hm hk c .accent hk).trans (if_pos rfl)

/-- SET_PIXEL leaves every other lane. -/
theorem laneAt_pixelMem_of_ne (hm : m.wf = true) (hk : k < nPix) (c : BitVec 2) (pl : Plane) {j : Nat} (hj : j < nPix)
    (hjk : j ≠ k) : laneAt (pixelMem m k c) pl j = laneAt m pl j := (lane_pixelMem hm hk c pl hj).trans (if_neg hjk)

/-- SET_PIXEL leaves every byte but the pixel's byte of each plane. -/
theorem get_pixelMem_of_ne (hm : m.wf = true) (hk : k < nPix) (c : BitVec 2) {a : Nat}
    (hp : a ≠ Plane.primary.base + byteOf k) (ha : a ≠ Plane.accent.base + byteOf k) :
    (pixelMem m k c).get a = m.get a := by
  rw [get_pixelMem hm hk, if_neg ha, if_neg hp]

end

/-- Settles O11: the word, the three cases without a write, and the lanes and bytes of the memory after the write. -/
theorem setPixelEffect : Obligations.SetPixelEffect := by
  intro s c
  refine ⟨by revert c; decide, fun hc => if_pos hc, exec_setPixel_running, fun hc hr hclip => ?_,
    fun hc hr hm hin => ?_⟩
  · exact (exec_setPixel_idle hc hr).trans (setPixel_clipped s c hclip)
  · have hk := pixelIndex_lt hin
    refine ⟨_, (exec_setPixel_idle hc hr).trans (setPixel_inCanvas c hin), ?_, ?_, fun pl j hj hne => ?_,
      fun a hp ha => ?_, wf_pixelMem hm hk c, rfl⟩
    · exact (pixRead_eq_laneAt _ .primary hk).trans (congrArg some (laneAt_pixelMem_primary hm hk c))
    · exact (pixRead_eq_laneAt _ .accent hk).trans (congrArg some (laneAt_pixelMem_accent hm hk c))
    · rw [pixRead_eq_laneAt s pl hj, pixRead_eq_laneAt _ pl hj]
      exact congrArg some (laneAt_pixelMem_of_ne hm hk c pl hj hne)
    · exact memRead_congr_get (get_pixelMem_of_ne hm hk c (by rwa [Plane.base, Nat.zero_add]) ha)

/-! ### GET_PIXEL (40_framebuffer.md R62, R67) -/

/-- The bits of `RESULT` after a read in the canvas: CLIPPED 0, A, P, COLOR (10_state.md R16). -/
theorem pixelResult_bits (p a : Level) : (pixelResult p a).getLsbD 0 = p ∧ (pixelResult p a).getLsbD 1 = a
    ∧ (pixelResult p a).getLsbD 2 = p ∧ (pixelResult p a).getLsbD 3 = a := by
  revert p a; decide

/-- `RESULT` of a read in the canvas has no bit above A. -/
theorem pixelResult_high (p a : Level) {i : Nat} (hi : 4 ≤ i) : (pixelResult p a).getLsbD i = false := by
  have four_bits : ∀ p a : Level, (pixelResult p a).toNat < 2 ^ 4 := by decide
  exact Nat.testBit_eq_false_of_lt ((four_bits p a).trans_le (Nat.pow_le_pow_right (by decide) hi))

/-- The words of the four pairs of plane bits. -/
theorem pixelResult_words : ∀ p a : Level, pixelResult p a =
    (if a then (if p then 0x0000000F#32 else 0x0000000A#32) else (if p then 0x00000005#32 else 0x00000000#32)) := by
  decide

/-- The colour field of `RESULT` is the code of the pair of bits read. -/
theorem pixelResult_code : ∀ c : BitVec 2, (pixelResult (codePrimary c) (codeAccent c)).extractLsb' 0 2 = c := by
  decide

/-- Settles O12: the word of the pair of bits read, field by field. -/
theorem getPixelEffect : Obligations.GetPixelEffect := by
  refine fun s => ⟨rfl, execGetPixel_clipped s, fun hin => ?_⟩
  have hk := pixelIndex_lt hin
  obtain ⟨h0, h1, h2, h3⟩ := pixelResult_bits (laneAt s.mem .primary (pixelIndex s.argX.toInt s.argY.toInt))
    (laneAt s.mem .accent (pixelIndex s.argX.toInt s.argY.toInt))
  exact ⟨_, _, _, pixRead_eq_laneAt s .primary hk, pixRead_eq_laneAt s .accent hk, execGetPixel_inCanvas s hin,
    h0, h1, h2, h3, fun i => pixelResult_high _ _, pixelResult_words _ _⟩

/-- Settles O13: GET_PIXEL reads the two lanes that SET_PIXEL wrote. -/
theorem setPixelThenGetPixel : Obligations.SetPixelThenGetPixel := by
  intro s c hr hm hc hin
  have hk := pixelIndex_lt hin
  have hcode := pixelResult_code c
  rw [← laneAt_pixelMem_primary hm hk c, ← laneAt_pixelMem_accent hm hk c] at hcode
  exact ⟨_, _, (exec_setPixel_idle hc hr).trans (setPixel_inCanvas c hin), execGetPixel_inCanvas _ hin, hcode,
    pixelResult_high _ _ le_rfl, rfl⟩

/-! ### CLEAR (40_framebuffer.md R63) -/

theorem unlisted_primary {i : Nat} (hi : i < 15000) : Memory.unlisted i = 0xFF#8 := if_pos hi

theorem unlisted_accent (i : Nat) : Memory.unlisted (15000 + i) = 0x00#8 :=
  if_neg (by simp only [planeBytes]; omega)

/-- After CLEAR a pixel's primary bit is 1. -/
theorem laneAt_clear_primary (m : Memory) {k : Nat} (hk : k < nPix) : laneAt m.clear .primary k = true := by
  rw [laneAt, Memory.get_clear m (lane_exists hk .primary), Plane.base, Nat.zero_add, unlisted_primary (byteOf_lt hk),
    laneOf_FF]

/-- After CLEAR a pixel's accent bit is 0. -/
theorem laneAt_clear_accent (m : Memory) {k : Nat} (hk : k < nPix) : laneAt m.clear .accent k = false := by
  rw [laneAt, Memory.get_clear m (lane_exists hk .accent), Plane.base, unlisted_accent, laneOf, BitVec.getLsbD_zero]

/-- GET_PIXEL in cleared planes answers WHITE's word. -/
theorem execGetPixel_of_clear {s : State} {m : Memory} (hm : s.mem = m.clear)
    (hin : inCanvas (pixelX s) (pixelY s) = true) : execGetPixel s = .next { s with result := 0x00000005#32 } := by
  have hk := pixelIndex_lt hin
  rw [execGetPixel_inCanvas s hin, hm, laneAt_clear_primary m hk, laneAt_clear_accent m hk]
  rfl

theorem memRead_clear (s : State) {a : Nat} (ha : a < planeSpace) :
    memRead { s with mem := s.mem.clear } a = some (Memory.unlisted a) :=
  (memRead_of_lt _ ha).trans (congrArg some (Memory.get_clear s.mem ha))

theorem exec_clear_running {s : State} (hr : s.run = true) : exec .clear s = .next { s with rejected := true } :=
  show execClear s = _ from guarded_running hr _

theorem exec_clear_idle {s : State} (hr : s.run = false) : exec .clear s = .next { s with mem := s.mem.clear } :=
  show execClear s = _ from guarded_idle hr _

/-- Settles O14: a cleared byte reads as after reset, a second clear finds nothing listed, and a cleared pixel's pair of
bits is WHITE's. -/
theorem clearEffect : Obligations.ClearEffect := by
  refine fun s => ⟨rfl, exec_clear_running, fun hr =>
    ⟨{ s with mem := s.mem.clear }, exec_clear_idle hr, fun i hi => ⟨?_, ?_⟩, rfl, ?_, fun x y hin => ?_⟩⟩
  · rw [memRead_clear s (by simp only [planeSpace]; omega), unlisted_primary hi]
  · rw [memRead_clear s (by simp only [planeSpace]; omega), unlisted_accent]
  · rw [exec_clear_idle (by exact hr), Memory.clear_clear]
  · refine execGetPixel_of_clear (m := s.mem) rfl ?_
    exact hin

/-! ### The byte loop of CLEAR (40_framebuffer.md R63, log entry 20) -/

/-- The loop of CLEAR after `n` rounds: byte `i` of both planes is written in round `i`. -/
def clearRounds (m : Memory) (n : Nat) : Memory :=
  (List.range n).foldl (fun m i => (m.put (0 + i) 0xFF#8).put (15000 + i) 0x00#8) m

theorem clearRounds_succ (m : Memory) (n : Nat) :
    clearRounds m (n + 1) = ((clearRounds m n).put (0 + n) 0xFF#8).put (15000 + n) 0x00#8 := by
  simp only [clearRounds, List.range_succ, List.foldl_append, List.foldl_cons, List.foldl_nil]

theorem wf_clearRounds {m : Memory} (hm : m.wf = true) {n : Nat} (hn : n ≤ 15000) : (clearRounds m n).wf = true := by
  induction n with
  | zero => exact hm
  | succ n ih =>
    rw [clearRounds_succ]
    refine Memory.wf_put (Memory.wf_put (ih (by omega)) ?_ _) ?_ _ <;> simp only [planeSpace] <;> omega

/-- A byte the loop has written reads as unlisted, every other as before. -/
theorem get_clearRounds {m : Memory} (hm : m.wf = true) {n : Nat} (hn : n ≤ 15000) (a : Nat) :
    (clearRounds m n).get a = if a < n ∨ (15000 ≤ a ∧ a < 15000 + n) then Memory.unlisted a else m.get a := by
  induction n with
  | zero => exact (if_neg (by omega)).symm
  | succ n ih =>
    have hwf := wf_clearRounds hm (n := n) (by omega)
    have hprimary := Memory.wf_put hwf (a := 0 + n) (by simp only [planeSpace]; omega) 0xFF#8
    rw [clearRounds_succ, Memory.get_put hprimary, Memory.get_put hwf, ih (by omega)]
    by_cases hacc : a = 15000 + n
    · rw [if_pos hacc, if_pos (by omega), hacc, unlisted_accent]
    · rw [if_neg hacc]
      by_cases hpri : a = 0 + n
      · rw [if_pos hpri, if_pos (by omega), unlisted_primary (by omega)]
      · rw [if_neg hpri]
        exact if_congr (by omega) rfl rfl

/-- An address that does not exist is not listed (20_memory.md R26). -/
theorem Memory.get_of_planeSpace_le {m : Memory} (hm : Memory.cellsOk m) {a : Nat} (ha : planeSpace ≤ a) :
    m.get a = Memory.unlisted a := by
  induction m with
  | nil => rfl
  | cons c m ih =>
    obtain ⟨hc, hrest⟩ := (Memory.cellsOk_cons c m).1 hm
    exact (if_neg (hc.1.trans_le ha).ne).trans (ih hrest)

/-- Settles O15: both memories are canonical and every address reads as unlisted. -/
theorem clearIsTheByteLoop : Obligations.ClearIsTheByteLoop := by
  intro m hm
  change m.clear = clearRounds m 15000
  refine Memory.ext (Memory.wf_clear hm) (wf_clearRounds hm le_rfl) fun a => ?_
  rw [Memory.clear_eq_nil hm, get_clearRounds hm le_rfl]
  split
  · rfl
  · exact (Memory.get_of_planeSpace_le ((Memory.wf_iff m).1 hm).2 (by simp only [planeSpace]; omega)).symm

/-! ### NOP and the ignored writes (40_framebuffer.md R64, 43_host_port.md R112, R115) -/

/-- Settles O16: each word decodes to its access, each access answers the state it was given, and the word 0 is NOP. -/
theorem nopAndIgnoredWrites : Obligations.NopAndIgnoredWrites := fun s _ =>
  ⟨rfl, rfl, rfl, execWrCmd_encodeCmd (c := .nop) rfl s, rfl, rfl, rfl, rfl, rfl, rfl, rfl, rfl⟩

end Sys2Proof.Machine

namespace Sys2Proof.Machine

/-! ### One frame on the pins (41_spi_protocol.md R68, R69) -/

theorem emit_eq_frameSent (d : Level) (b : Byte) (more : Bool) (s : State) :
    emit d b more s = frameSent d b (s.cfg.batchData && d && more) s := emit_eq s d b more

/-- Each bit is set on `DIN` before its rising edge and is the level there, whatever `DIN` was before. -/
theorem dinAtRisingEdges_clocked (b : Byte) (v : Level) (bits : List Nat) (d : Level) :
    dinAtRisingEdges d (bits.flatMap (fun i => [(.din, b.getLsbD i), (.sclk, true), (.sclk, false)]) ++ [(.csN, v)])
      = bits.map b.getLsbD := by
  induction bits generalizing d with
  | nil => rfl
  | cons i bits ih => exact congrArg (b.getLsbD i :: ·) (ih _)

/-- Settles O27: the drives are listed in that order, every bit is clocked, and without `BATCH_DATA` chip-select ends high. -/
theorem frameWaveform : Obligations.FrameWaveform := fun d b => by
  refine ⟨rfl, rfl, rfl, rfl, fun d0 => dinAtRisingEdges_clocked b true [7, 6, 5, 4, 3, 2, 1, 0] d0, fun s hs => ?_⟩
  simp only [emit_eq_frameSent, hs, Bool.false_and, and_self]

/-! ### Units and streams (41_spi_protocol.md R72, 42_refresh_sequencer.md R90, R91) -/

/-- The frame at position `st.sub` of a unit of `n` data bytes, counted: the last one completes the entry with
chip-select high; before it the position moves on, chip-select held low only between data bytes (R69). -/
theorem countTo_emit {n : Nat} {s : State} (h : s.sub ≤ n) (b : Byte) :
    countTo (n + 1) (emit (decide (s.sub ≠ 0)) b (decide (s.sub < n)) s) =
      if s.sub = n then complete (frameSent (decide (0 < s.sub)) b false s)
      else { frameSent (decide (0 < s.sub)) b (s.cfg.batchData && decide (0 < s.sub)) s with sub := s.sub + 1 } := by
  have htag : decide (s.sub ≠ 0) = decide (0 < s.sub) := decide_eq_decide.2 Nat.pos_iff_ne_zero.symm
  rw [emit_eq_frameSent, htag]
  split
  · next hlast =>
    rw [decide_eq_false hlast.not_lt, Bool.and_false]
    exact countTo_of_eq (congrArg (· + 1) hlast)
  · next hmore =>
    rw [decide_eq_true (Nat.lt_of_le_of_ne h hmore), Bool.and_true]
    exact countTo_of_ne fun hlast => hmore (Nat.succ.inj hlast)

/-- An instruction whose meaning is a unit's step sends that unit. -/
theorem sendsUnit_of_stepUnit {i : Instr} {opc : State → Byte} {bytes : State → List Byte}
    (h : ∀ s, exec i s = stepUnit (opc s) (bytes s) s) : SendsUnit i opc bytes := by
  intro s b hb
  have hle : s.sub ≤ (bytes s).length := Nat.lt_succ_iff.1 (List.getElem?_eq_some_iff.1 hb).1
  have hbyte : unitByte (opc s) (bytes s) s.sub = b := by rw [unitByte, List.getD_eq_getElem?_getD, hb, Option.getD_some]
  rw [h, stepUnit_eq hle, hbyte, countTo_emit hle]

/-- Settles O28: the meaning of each of the ten is the step of its unit. -/
theorem unitsSendTheirFrames : Obligations.UnitsSendTheirFrames := by
  refine ⟨?_, ?_, ?_, ?_, ?_, ?_, ?_, ?_, ?_, ?_⟩ <;> exact sendsUnit_of_stepUnit fun _ => rfl

theorem streamByte_eq_unitByte {n : Nat} (h : n ≤ planeBytes) (opc : Byte) (m : Memory) (pl : Plane) :
    streamByte opc m pl n = unitByte opc (planeData m pl) n := by
  cases n with
  | zero => rfl
  | succ j => rw [unitByte, List.getD_cons_succ, List.getD_eq_getElem?_getD, getElem?_planeData m pl h]; rfl

/-- A stream is the unit whose payload is the plane in address order, past its last frame too. -/
theorem stepStream_eq_stepUnit (opc : Byte) (pl : Plane) (s : State) :
    stepStream opc pl s = stepUnit opc (planeData s.mem pl) s := by
  have hlen : (planeData s.mem pl).length = planeBytes := planeData_length s.mem pl
  rcases Nat.lt_or_ge planeBytes s.sub with hpast | hle
  · rw [stepStream_past hpast, stepUnit_past (hlen ▸ hpast)]
  · rw [stepStream_eq hle, stepUnit_eq (hlen ▸ hle), hlen, streamByte_eq_unitByte hle]

theorem sendsUnit_planeData {i : Instr} {opc : State → Byte} {pl : Plane}
    (h : ∀ s, exec i s = stepStream (opc s) pl s) : SendsUnit i opc (fun s => planeData s.mem pl) :=
  sendsUnit_of_stepUnit fun s => (h s).trans (stepStream_eq_stepUnit (opc s) pl s)

theorem planeData_primary (m : Memory) : planeData m .primary = (List.range 15000).map (fun i => m.get i) := by
  simp only [planeData, planeBytes, Plane.base, Nat.zero_add]

/-- Settles O29: the meaning of each of the two is the step of its stream, and the planes begin at 0 and at 15000. -/
theorem streamsSendThePlanes : Obligations.StreamsSendThePlanes := by
  constructor
  · simp only [← planeData_primary]
    exact sendsUnit_planeData fun _ => rfl
  · exact sendsUnit_planeData (pl := .accent) fun _ => rfl

end Sys2Proof.Machine

namespace Sys2Proof.Machine

/-! ### The sequencer's turns (42_refresh_sequencer.md R87, R89) -/

section
variable {s : State}

/-- An entry that is no unit is fetched as itself. -/
theorem fetchEntry_micro {e : Entry} (he : entryOf s.pc = e) (hu : ∀ i, e ≠ .unit i) : fetchEntry s = .micro e s := by
  unfold fetchEntry
  split
  · exact absurd (he.symm.trans ‹_›) (hu _)
  · rw [he]

theorem sequencerTurn_enabled {tick : Bool} (hr : s.run = true) (hw : waitsForTick s = tick) :
    sequencerTurn tick s = fetchEntry s := by simp [sequencerTurn, hr, hw]

theorem sequencerTurn_idle {tick : Bool} (h : s.run = false ∨ waitsForTick s = !tick) :
    sequencerTurn tick s = .idle s := by
  rcases h with h | h <;> simp [sequencerTurn, h]

/-- With no turn listed a running refresh takes the step of its entry. -/
theorem fetch_running (hr : s.run = true) (hT : s.turns = []) : fetch s = fetchEntry s := by
  simp only [fetch, hT, hr, if_true]

end

/-- Settles O6: an enabled turn fetches the entry itself. -/
theorem stepRunsTheNextEntry : Obligations.StepRunsTheNextEntry := by
  intro s e hr he hu
  refine ⟨fun hT => ?_, fun rest hT hw => ?_, fun rest hT hw => ?_⟩
  · rw [step_eq_perform, fetch_running hr hT, fetchEntry_micro he hu, perform]
  · rw [step_of_turn (.inl rfl) hT, sequencerTurn_enabled (by exact hr) (by exact hw), fetchEntry_micro (by exact he) hu,
      perform]
  · rw [step_of_turn (.inr rfl) hT, sequencerTurn_enabled (by exact hr) (by exact hw), fetchEntry_micro (by exact he) hu,
      perform]

/-- Settles O7: a turn that is not enabled fetches nothing. -/
theorem stepWithoutEnabledAgent : Obligations.StepWithoutEnabledAgent := by
  refine ⟨fun s hr hT => ?_, fun s rest hT h => ?_, fun s rest hT h => ?_⟩
  · simp only [step, fetch, hT, hr, Bool.false_eq_true, if_false]
  · rw [step_of_turn (.inl rfl) hT, sequencerTurn_idle (by exact h), perform]
  · rw [step_of_turn (.inr rfl) hT, sequencerTurn_idle (by exact h), perform]

/-! ### Acceptance, the table, and the entries of one step (R85 to R88, R92, R93) -/

theorem execRefresh_running {s : State} (hr : s.run = true) : execRefresh s = .next { s with rejected := true } :=
  guarded_running hr _

theorem execRefresh_idle {s : State} (hr : s.run = false) : execRefresh s = .next (accepted s) := guarded_idle hr _

/-- Settles O17: the guard, and entry 0 entered with clear timeout flags. -/
theorem refreshEffect : Obligations.RefreshEffect := fun _ => ⟨rfl, execRefresh_running, execRefresh_idle⟩

/-- Settles O33: the table row by row. -/
theorem microProgramTable : Obligations.MicroProgramTable := by
  constructor <;> decide

/-- With no turn listed a running refresh performs its entry, when that is no unit. -/
theorem step_micro {s : State} {e : Entry} (hr : s.run = true) (hT : s.turns = []) (he : entryOf s.pc = e)
    (hu : ∀ i, e ≠ .unit i) : step s = stepMicro e s := (stepRunsTheNextEntry s e hr he hu).1 hT

/-- Settles O34: the step of either entry completes it. -/
theorem pinAndPassEntries : Obligations.PinAndPassEntries := fun _ hr hT =>
  ⟨fun _ he => step_micro hr hT he nofun, fun he => step_micro hr hT he nofun⟩

/-- The entry that completes into the last one is entry 19. -/
theorem entryOf_nextEntry_eq_fin : ∀ e : Fin 21, e ≠ 20 → (entryOf (nextEntry e) = .fin ↔ e = 19) := by decide

/-- Settles O35: entering sets the position, the state of the row, and RUN to 0 at the last entry only. -/
theorem completingAnEntry : Obligations.CompletingAnEntry := by
  intro s hpc
  refine ⟨nextEntry_val hpc, rfl, rfl, rfl, rfl, ?_, fun h19 => ?_, rfl⟩
  · rw [complete_run, ← ite_not]
    simp only [entryOf_nextEntry_eq_fin s.pc hpc]
    by_cases h19 : s.pc = 19 <;> simp [h19]
  · rw [complete_state, h19]; rfl

/-! ### RUN and STATE (R93, R97) -/

/-- The states of the entries before the last are those of a running refresh. -/
theorem entryState_running : ∀ e : Fin 21, e ≠ 20 → ¬ (entryState e = .uninit ∨ entryState e = .sleeping) := by
  decide

/-- Settles O58: the phase clause of the invariant, with and without a running refresh. -/
theorem runAndStateAgree : Obligations.RunAndStateAgree := by
  intro s h
  rcases Bool.eq_false_or_eq_true s.run with hr | hr
  · obtain ⟨hpc, hst⟩ := (phaseOk_running hr).1 h.phase
    simpa [hr, hst] using entryState_running s.pc hpc
  · have hst := (phaseOk_resting hr).1 h.phase
    simpa [hr] using hst.imp_right And.left

/-- R97: completing an entry before the last keeps the state or moves it on by one transition. -/
theorem entryState_nextEntry : ∀ e : Fin 21, e ≠ 20 → entryState (nextEntry e) = entryState e ∨
    (entryState e, entryState (nextEntry e)) ∈
      [(RefreshState.uninit, RefreshState.reset), (.reset, .initializing), (.initializing, .ready),
       (.ready, .transferringBlack), (.transferringBlack, .transferringRed), (.transferringRed, .activating),
       (.activating, .sleeping), (.sleeping, .reset)] := by decide

/-- Settles O56: a running refresh completes an entry or stays in it, and a resting one is left by REFRESH only. -/
theorem refreshStateTransitions : Obligations.RefreshStateTransitions := by
  intro s t h hstep
  rcases step_entry hstep with ⟨hr, ⟨_, _, hst⟩ | ⟨hpc, hst, _⟩⟩ | ⟨_, _, hst⟩ | ⟨hr, ⟨_, _, hst⟩, hT⟩
  · exact ⟨.inl hst, fun hne => absurd hst hne⟩
  · obtain ⟨hpc20, hs⟩ := (phaseOk_running hr).1 h.phase
    rw [hs, hst, hpc]
    exact ⟨entryState_nextEntry s.pc hpc20, fun _ hrest => absurd hrest (entryState_running s.pc hpc20)⟩
  · exact ⟨.inl hst, fun hne => absurd hst hne⟩
  · refine ⟨.inr ?_, fun _ _ => hT⟩
    rcases (runAndStateAgree s h).1 hr with hs | hs <;> rw [hs, hst] <;> decide

end Sys2Proof.Machine

namespace Sys2Proof.Machine

/-! ### A unit or stream run by itself (42_refresh_sequencer.md R90, R91) -/

/-- The data bytes of an SPI instruction: a plane for a stream, `CFG`'s payload for the others. -/
def unitData (p : PanelCommands) (m : Memory) (i : Instr) : List Byte :=
  if i = .wramP then planeData m .primary else if i = .wramA then planeData m .accent else payloadOf p i

/-- Every SPI instruction is the step of a unit: its opcode and its data bytes. -/
theorem exec_eq_stepUnit {s : State} {i : Instr} {opc : Byte} (h : encodeSpi s.cfg.cmds i = some opc) :
    exec i s = stepUnit opc (unitData s.cfg.cmds s.mem i) s := by
  cases i <;> simp only [encodeSpi, Option.some.injEq, reduceCtorEq] at h <;> subst h
  case wramP => exact stepStream_eq_stepUnit _ .primary s
  case wramA => exact stepStream_eq_stepUnit _ .accent s
  all_goals rfl

theorem encodeSpi_of_entryOf {e : Fin 21} {i : Instr} (h : entryOf e = .unit i) (p : PanelCommands) :
    ∃ opc, encodeSpi p i = some opc := by
  have hf := format_of_entryOf h
  cases i <;> simp only [Instr.format, reduceCtorEq] at hf <;> exact ⟨_, rfl⟩

theorem lastPosition_eq_length (p : PanelCommands) (m : Memory) (i : Instr) :
    lastPosition p i = (unitData p m i).length := by
  by_cases hp : i = .wramP
  · simp [lastPosition, unitData, hp, planeData_length, planeBytes]
  · by_cases ha : i = .wramA <;> simp [lastPosition, unitData, hp, ha, planeData_length, planeBytes]

/-- The frames of a unit from position `n` on begin with the one at `n`. -/
theorem drop_unitTrace {data : List Byte} {n : Nat} (h : n ≤ data.length) (opc : Byte) :
    (unitTrace opc data).drop n = .frame (decide (0 < n)) (unitByte opc data n) :: (unitTrace opc data).drop (n + 1) := by
  cases n with
  | zero => rfl
  | succ j =>
    rw [unitTrace, List.drop_succ_cons, List.drop_succ_cons, List.drop_eq_getElem_cons (by simpa using h)]
    simp [unitByte, List.getD_eq_getElem?_getD, List.getElem?_eq_getElem (show j < data.length from h)]

theorem unitByte_length (opc : Byte) (data : List Byte) : unitByte opc data data.length = data.getLastD opc := by
  cases data with
  | nil => rfl
  | cons b l => simp [unitByte, List.getLastD_eq_getLast?, List.getLast?_eq_getElem?]

/-- The state when the rest of a unit's frames, from `st.sub` on, is sent, but for the position: pins of the last frame
(41_spi_protocol.md R68). -/
def unitSent (opc : Byte) (data : List Byte) (s : State) : State :=
  { s with
    csN := true, dc := decide (data ≠ []), sclk := false, din := (data.getLastD opc).getLsbD 0
    trace := ((unitTrace opc data).drop s.sub).reverse ++ s.trace }

/-- The state after a frame that is not the unit's last. -/
def unitAdvanced (opc : Byte) (data : List Byte) (s : State) : State :=
  { frameSent (decide (0 < s.sub)) (unitByte opc data s.sub) (s.cfg.batchData && decide (0 < s.sub)) s with
    sub := s.sub + 1 }

/-- The last frame sent is the whole rest of the unit. -/
theorem frameSent_last {s : State} {opc : Byte} {data : List Byte} (h : s.sub = data.length) :
    frameSent (decide (0 < s.sub)) (unitByte opc data s.sub) false s = unitSent opc data s := by
  have hrest : (unitTrace opc data).drop s.sub = [.frame (decide (0 < s.sub)) (unitByte opc data s.sub)] := by
    rw [drop_unitTrace h.le, List.drop_eq_nil_of_le (by simp [unitTrace, h])]
  have htag : decide (0 < s.sub) = decide (data ≠ []) := by simp [h, List.length_pos_iff]
  rw [unitSent, hrest, frameSent, htag, h, unitByte_length]
  rfl

/-- A frame sent and then the rest of the unit are the rest from that frame on. -/
theorem complete_unitSent_unitAdvanced {s : State} {opc : Byte} {data : List Byte} (h : s.sub ≤ data.length) :
    complete (unitSent opc data (unitAdvanced opc data s)) = complete (unitSent opc data s) := by
  simp [unitSent, unitAdvanced, frameSent, drop_unitTrace h, complete, enter]

/-- A running refresh in entry `e`, with no turn listed, so that it moves on by itself (log entry 4). -/
def InEntry (e : Entry) (s : State) : Prop := s.run = true ∧ s.turns = [] ∧ entryOf s.pc = e

theorem fresh_sub {s : State} (h : freshEntry s) : s.sub = 0 := h.2.1

theorem fresh_wait {s : State} (h : freshEntry s) : s.wait = 0 := h.2.2.1

theorem inEntry_of_fresh {s : State} {e : Entry} (h : freshEntry s) (he : entryOf s.pc = e) : InEntry e s := by
  obtain ⟨hr, -, -, -, hT⟩ := h
  exact ⟨hr, hT, he⟩

section
variable {s : State} {i : Instr} {opc : Byte}

/-- A step in a unit is its frame. -/
theorem step_unit (h : InEntry (.unit i) s) (ho : encodeSpi s.cfg.cmds i = some opc)
    (hle : s.sub ≤ (unitData s.cfg.cmds s.mem i).length) :
    step s = .next (if s.sub = (unitData s.cfg.cmds s.mem i).length
      then complete (unitSent opc (unitData s.cfg.cmds s.mem i) s)
      else unitAdvanced opc (unitData s.cfg.cmds s.mem i) s) := by
  obtain ⟨hr, hT, he⟩ := h
  rw [(stepRunsTheNextInstruction.2 s i hr he).1 hT, exec_eq_stepUnit ho, stepUnit_eq hle, countTo_emit hle]
  split
  · next hlast => rw [frameSent_last hlast]
  · rfl

/-- The rest of a unit, `k` frames and the last one, and its completion. -/
theorem runSteps_unit {k : Nat} (h : InEntry (.unit i) s) (ho : encodeSpi s.cfg.cmds i = some opc)
    (hk : s.sub + k = (unitData s.cfg.cmds s.mem i).length) :
    runSteps (k + 1) s = .next (complete (unitSent opc (unitData s.cfg.cmds s.mem i) s)) := by
  have hle : s.sub ≤ (unitData s.cfg.cmds s.mem i).length := Nat.le.intro hk
  have hstep := step_unit h ho hle
  induction k generalizing s with
  | zero => rw [runSteps_one, hstep, if_pos (by exact hk)]
  | succ k ih =>
    rw [if_neg (by omega)] at hstep
    have hk' : s.sub + 1 + k = (unitData s.cfg.cmds s.mem i).length := by omega
    have hle' : s.sub + 1 ≤ (unitData s.cfg.cmds s.mem i).length := Nat.le.intro hk'
    rw [runSteps_next hstep, ← complete_unitSent_unitAdvanced hle]
    exact ih (s := unitAdvanced opc _ s) h ho hk' hle' (step_unit h ho hle')

/-- A unit run from its entry is all its frames, and then the next entry. -/
theorem runSteps_unit_fresh (hs : freshEntry s) (he : entryOf s.pc = .unit i)
    (ho : encodeSpi s.cfg.cmds i = some opc) :
    runSteps ((unitData s.cfg.cmds s.mem i).length + 1) s = .next (complete { s with
      csN := true, dc := decide (unitData s.cfg.cmds s.mem i ≠ []), sclk := false
      din := ((unitData s.cfg.cmds s.mem i).getLastD opc).getLsbD 0
      trace := (unitTrace opc (unitData s.cfg.cmds s.mem i)).reverse ++ s.trace }) := by
  rw [runSteps_unit (inEntry_of_fresh hs he) ho (by rw [fresh_sub hs, Nat.zero_add]), unitSent, fresh_sub hs,
    List.drop_zero]

end

/-- Settles O31: the data of a unit that is no stream are its payload. -/
theorem wholeUnitIsSent : Obligations.WholeUnitIsSent := by
  intro s i opc hs he hp ha ho
  have hdata : unitData s.cfg.cmds s.mem i = payloadOf s.cfg.cmds i := by simp only [unitData, hp, ha, if_false]
  rw [Nat.add_comm, ← hdata]
  exact runSteps_unit_fresh hs he ho

theorem getLastD_planeData (m : Memory) (pl : Plane) (b : Byte) :
    (planeData m pl).getLastD b = m.get (pl.base + 14999) := by
  rw [List.getLastD_eq_getLast?, List.getLast?_eq_getElem?, planeData_length, getElem?_planeData m pl (by decide)]
  rfl

/-- Settles O32: the data of a stream are its plane. -/
theorem wholeStreamIsSent : Obligations.WholeStreamIsSent := by
  intro s i opc pl hs he hpl ho
  have hdata : unitData s.cfg.cmds s.mem i = planeData s.mem pl := by rcases hpl with ⟨rfl, rfl⟩ | ⟨rfl, rfl⟩ <;> rfl
  have hne : planeData s.mem pl ≠ [] := List.ne_nil_of_length_eq_add_one (planeData_length s.mem pl)
  have hrun := runSteps_unit_fresh hs he ho
  rwa [hdata, planeData_length, getLastD_planeData, decide_eq_true hne] at hrun

end Sys2Proof.Machine

namespace Sys2Proof.Machine

/-! ### Ticks (42_refresh_sequencer.md R89, R94) -/

/-- A run along a sequence of states, each the step of the one before. -/
theorem runSteps_sequence {f : Nat → State} {n : Nat} (h : ∀ j, j < n → step (f j) = .next (f (j + 1))) :
    runSteps n (f 0) = .next (f n) := by
  induction n with
  | zero => rfl
  | succ n ih =>
    rw [runSteps_add (ih fun j hj => h j (Nat.lt_succ_of_lt hj)), runSteps_one]
    exact h n (Nat.lt_succ_self n)

/-- The state after `j` ticks that count the position. -/
def ticked (s : State) (j : Nat) : State :=
  { s with sub := s.sub + j, trace := List.replicate j .tick ++ s.trace }

/-- The state after `j` ticks that count the position and the wait. -/
def polled (s : State) (j : Nat) : State := { ticked s j with wait := s.wait + j }

section
variable {s : State}

theorem step_inEntry {e : Entry} (h : InEntry e s) (hu : ∀ i, e ≠ .unit i) : step s = stepMicro e s := by
  obtain ⟨hr, hT, he⟩ := h
  exact step_micro hr hT he hu

theorem step_delay {d : DelayKind} (h : InEntry (.delay d) s) (hne : s.sub + 1 ≠ delayTicks s.cfg d) :
    step s = .next (ticked s 1) :=
  (step_inEntry h nofun).trans (congrArg Host.Outcome.next (countTo_of_ne hne))

theorem step_delay_last {d : DelayKind} (h : InEntry (.delay d) s) (hlast : s.sub + 1 = delayTicks s.cfg d) :
    step s = .next (complete (ticked s 1)) :=
  (step_inEntry h nofun).trans (congrArg Host.Outcome.next (countTo_of_eq hlast))

theorem step_busyWait {w : WaitKind} (h : InEntry (.busyWait w) s) : step s = .next (stepBusyWait w s) :=
  step_inEntry h nofun

theorem step_settle {w : WaitKind} (h : InEntry (.busyWait w) s) (hb : s.bw = .settle)
    (hne : s.sub + 1 ≠ s.cfg.tBusySettle) : step s = .next (ticked s 1) := by
  rw [step_busyWait h, stepBusyWait, hb]
  exact congrArg _ (if_neg hne)

theorem step_settle_last {w : WaitKind} (h : InEntry (.busyWait w) s) (hb : s.bw = .settle)
    (hlast : s.sub + 1 = s.cfg.tBusySettle) : step s = .next { ticked s 1 with sub := 0, bw := .sample } := by
  rw [step_busyWait h, stepBusyWait, hb]
  exact congrArg _ (if_pos hlast)

theorem step_poll {w : WaitKind} (h : InEntry (.busyWait w) s) (hb : s.bw = .poll) (hne : s.sub + 1 ≠ s.cfg.tPoll) :
    step s = .next (polled s 1) := by
  rw [step_busyWait h, stepBusyWait, hb]
  simp only [stepPoll, if_neg hne, ← hb]
  rfl

theorem step_poll_last {w : WaitKind} (h : InEntry (.busyWait w) s) (hb : s.bw = .poll)
    (hlast : s.sub + 1 = s.cfg.tPoll) : step s = .next { polled s 1 with bw := .sample } := by
  rw [step_busyWait h, stepBusyWait, hb]
  simp only [stepPoll, if_pos hlast]
  rfl

/-- The rest of a delay, `k` ticks and the last one, and its completion. -/
theorem runSteps_delay {d : DelayKind} {k : Nat} (h : InEntry (.delay d) s)
    (hk : s.sub + k + 1 = delayTicks s.cfg d) :
    runSteps (k + 1) s = .next (complete (ticked s (k + 1))) := by
  have hticks : runSteps k s = .next (ticked s k) := runSteps_sequence (f := ticked s) fun j hj =>
    step_delay (s := ticked s j) h (show s.sub + j + 1 ≠ delayTicks s.cfg d by omega)
  rw [runSteps_add hticks, runSteps_one]
  exact step_delay_last (s := ticked s k) h hk

/-- The rest of the settle time, and then the first sample. -/
theorem runSteps_settle {w : WaitKind} {k : Nat} (h : InEntry (.busyWait w) s) (hb : s.bw = .settle)
    (hk : s.sub + k + 1 = s.cfg.tBusySettle) :
    runSteps (k + 1) s = .next { ticked s (k + 1) with sub := 0, bw := .sample } := by
  have hticks : runSteps k s = .next (ticked s k) := runSteps_sequence (f := ticked s) fun j hj =>
    step_settle (s := ticked s j) h hb (show s.sub + j + 1 ≠ s.cfg.tBusySettle by omega)
  rw [runSteps_add hticks, runSteps_one]
  exact step_settle_last (s := ticked s k) h hb hk

/-- The rest of a poll period, and then the next sample. -/
theorem runSteps_poll {w : WaitKind} {k : Nat} (h : InEntry (.busyWait w) s) (hb : s.bw = .poll)
    (hk : s.sub + k + 1 = s.cfg.tPoll) :
    runSteps (k + 1) s = .next { polled s (k + 1) with bw := .sample } := by
  have hticks : runSteps k s = .next (polled s k) := runSteps_sequence (f := polled s) fun j hj =>
    step_poll (s := polled s j) h hb (show s.sub + j + 1 ≠ s.cfg.tPoll by omega)
  rw [runSteps_add hticks, runSteps_one]
  exact step_poll_last (s := polled s k) h hb hk

/-! ### Samples (R94) -/

/-- The state when a sample of `BUSY` is drawn and noted. -/
def sampled (s : State) : State := note (.sample (sampleBusy s).1) (sampleBusy s).2

/-- What the last sample of a busy-wait leaves to complete: its timeout flag is set where it is high. -/
def flagged (k : WaitKind) (b : Level) (s : State) : State := if b then setTimeout k s else s

/-- A last sample leaves everything but its own timeout flag. -/
theorem flagged_eq (k : WaitKind) (b : Level) (s : State) : flagged k b s = { s with
    toHwrst := s.toHwrst || (decide (k = .hwrst) && b), toSwrst := s.toSwrst || (decide (k = .swrst) && b)
    toAct := s.toAct || (decide (k = .act) && b) } := by
  cases b <;> cases k <;> simp [flagged, setTimeout]

theorem step_sample {k : WaitKind} (h : InEntry (.busyWait k) s) (hb : s.bw = .sample) :
    step s = .next (afterSample k (sampleBusy s).1 (sampled s)) := by
  rw [step_busyWait h, stepBusyWait, hb]; rfl

/-- A low sample, and a high one at the ceiling, completes the busy-wait. -/
theorem step_sample_last {k : WaitKind} (h : InEntry (.busyWait k) s) (hb : s.bw = .sample)
    (hlast : (sampleBusy s).1 = true → s.cfg.tBusyMax ≤ s.wait) :
    step s = .next (complete (flagged k (sampleBusy s).1 (sampled s))) := by
  rw [step_sample h hb, afterSample]
  cases hlevel : (sampleBusy s).1 with
  | false => rfl
  | true => rw [if_neg nofun, if_pos (by simpa [sampled] using hlast hlevel)]; rfl

/-- The state after a high sample below the ceiling. -/
def pollBegun (s : State) : State := { sampled s with sub := 0, bw := .poll }

theorem step_sample_again {k : WaitKind} (h : InEntry (.busyWait k) s) (hb : s.bw = .sample)
    (hlevel : (sampleBusy s).1 = true) (hwait : s.wait < s.cfg.tBusyMax) : step s = .next (pollBegun s) := by
  have hbelow : ¬ (sampled s).cfg.tBusyMax ≤ (sampled s).wait := by simpa [sampled] using hwait
  rw [step_sample h hb, afterSample, hlevel, if_neg nofun, if_neg hbelow, pollBegun]

/-- The state at the next sample after a high one: one poll period on. -/
def polledOn (s : State) : State := { polled (pollBegun s) s.cfg.tPoll with bw := .sample }

/-- A high sample below the ceiling is followed by a poll period and the next sample. -/
theorem runSteps_round {k : WaitKind} (hp : 0 < s.cfg.tPoll) (h : InEntry (.busyWait k) s) (hb : s.bw = .sample)
    (hlevel : (sampleBusy s).1 = true) (hwait : s.wait < s.cfg.tBusyMax) :
    runSteps (1 + s.cfg.tPoll) s = .next (polledOn s) := by
  obtain ⟨p, hp⟩ := Nat.exists_eq_add_one.2 hp
  have hbegun : InEntry (.busyWait k) (pollBegun s) := by simpa [InEntry, pollBegun, sampled] using h
  have hperiod : (pollBegun s).sub + p + 1 = (pollBegun s).cfg.tPoll := by simp [pollBegun, sampled, hp]
  rw [runSteps_add ((runSteps_one s).trans (step_sample_again h hb hlevel hwait)), polledOn, hp]
  exact runSteps_poll hbegun rfl hperiod

end

/-- Settles O36: a fresh delay is at position 0 of its ticks. -/
theorem delayTakesItsTicks : Obligations.DelayTakesItsTicks := by
  intro s d hc hs he
  obtain ⟨k, hk⟩ := Nat.exists_eq_add_one.2 (delayTicks_pos hc d)
  rw [hk, runSteps_delay (inEntry_of_fresh hs he) (by rw [fresh_sub hs, Nat.zero_add, hk])]
  rfl

/-! ### The outcome of a busy-wait (R94) -/

theorem WaitOutcome.lastLevel_eq_flag (o : WaitOutcome) : o.lastLevel = o.flag := by cases o <;> rfl

/-- The number of poll periods to the ceiling is the least that reaches it. -/
theorem pollsToCeiling_le_iff {c : Cfg} (hp : 0 < c.tPoll) (m : Nat) :
    pollsToCeiling c ≤ m ↔ c.tBusyMax ≤ m * c.tPoll := by
  rw [pollsToCeiling, ← Nat.ceilDiv_eq_add_pred_div, ceilDiv_le_iff_le_mul hp, Nat.mul_comm]

/-- The high samples of a possible outcome before its last sample are below the ceiling. -/
theorem WaitOutcome.below_ceiling {c : Cfg} (hp : 0 < c.tPoll) {o : WaitOutcome} (ho : o.possible c = true) {m : Nat}
    (hm : m < o.polls c) : m * c.tPoll < c.tBusyMax := by
  have hle : o.polls c ≤ pollsToCeiling c := by
    cases o with
    | completes j => exact of_decide_eq_true ho
    | timesOut => exact Nat.le_refl _
  exact Nat.lt_of_not_le fun h => absurd ((pollsToCeiling_le_iff hp m).2 h) (by omega)

/-- A last sample that is high is at the ceiling. -/
theorem WaitOutcome.at_ceiling {c : Cfg} (hp : 0 < c.tPoll) {o : WaitOutcome} (h : o.lastLevel = true) :
    c.tBusyMax ≤ o.polls c * c.tPoll := by
  cases o with
  | completes j => cases h
  | timesOut => exact (pollsToCeiling_le_iff hp _).1 (Nat.le_refl _)

/-- The events of `n` high samples with their poll periods and a last sample. -/
def pollTrace (c : Cfg) (n : Nat) (b : Level) : List LinkEvent :=
  (List.replicate n (LinkEvent.sample true :: List.replicate c.tPoll .tick)).flatten ++ [.sample b]

theorem pollTrace_succ (c : Cfg) (n : Nat) (b : Level) (l : List LinkEvent) :
    (pollTrace c (n + 1) b).reverse ++ l
      = (pollTrace c n b).reverse ++ (List.replicate c.tPoll .tick ++ .sample true :: l) := by
  simp [pollTrace, List.replicate_succ]

/-- The events of an outcome are the settle ticks and then those of its samples. -/
theorem pollTrace_settle (c : Cfg) (o : WaitOutcome) (l : List LinkEvent) :
    (pollTrace c (o.polls c) o.lastLevel).reverse ++ (List.replicate c.tBusySettle .tick ++ l)
      = (o.trace c).reverse ++ l := by
  simp [pollTrace, WaitOutcome.trace]

/-- What a busy-wait completes to does not depend on where in the entry it was. -/
theorem complete_flagged_congr (k : WaitKind) (b : Level) {s t : State}
    (h : t = { s with sub := t.sub, wait := t.wait, bw := t.bw }) :
    complete (flagged k b t) = complete (flagged k b s) := by
  rw [h, flagged_eq, flagged_eq]; rfl

/-- The next sample after a high scheduled one, `levels` being those left: a poll period on. -/
def nextSample (levels : List Level) (s : State) : State :=
  { s with
    busyIn := levels, sub := s.cfg.tPoll, wait := s.wait + s.cfg.tPoll
    trace := List.replicate s.cfg.tPoll .tick ++ .sample true :: s.trace }

theorem polledOn_scheduled {s : State} {levels : List Level} (hb : s.bw = .sample) (hin : s.busyIn = true :: levels) :
    polledOn s = nextSample levels s := by
  simp [polledOn, pollBegun, sampled, sampleBusy_cons hin, polled, ticked, note, nextSample, hb]

/-- From a sample on, `n` high samples below the ceiling and a last one that is low or at the ceiling. -/
theorem runSteps_samples {k : WaitKind} {b : Level} {rest : List Level} (n : Nat) {s : State} (hp : 0 < s.cfg.tPoll)
    (h : InEntry (.busyWait k) s) (hb : s.bw = .sample)
    (hbelow : ∀ m, m < n → s.wait + m * s.cfg.tPoll < s.cfg.tBusyMax)
    (hlast : b = true → s.cfg.tBusyMax ≤ s.wait + n * s.cfg.tPoll)
    (hin : s.busyIn = List.replicate n true ++ b :: rest) :
    runSteps (n * (1 + s.cfg.tPoll) + 1) s = .next (complete (flagged k b { s with
      busyIn := rest, trace := (pollTrace s.cfg n b).reverse ++ s.trace })) := by
  induction n generalizing s with
  | zero =>
    have hs := sampleBusy_cons (show s.busyIn = b :: rest from hin)
    rw [Nat.zero_mul, Nat.zero_add, runSteps_one, step_sample_last h hb (by simpa [hs] using hlast), sampled, hs]
    rfl
  | succ n ih =>
    have hlevel : (sampleBusy s).1 = true := by rw [sampleBusy_cons hin]
    have hround := runSteps_round hp h hb hlevel (by simpa using hbelow 0 (Nat.succ_pos n))
    have hbelow' : ∀ m, m < n → s.wait + s.cfg.tPoll + m * s.cfg.tPoll < s.cfg.tBusyMax := fun m hm => by
      have hround := hbelow (m + 1) (Nat.succ_lt_succ hm)
      rw [Nat.succ_mul] at hround
      omega
    have hlast' : b = true → s.cfg.tBusyMax ≤ s.wait + s.cfg.tPoll + n * s.cfg.tPoll := fun hhigh => by
      have hend := hlast hhigh
      rw [Nat.succ_mul] at hend
      omega
    have hrest := ih (s := nextSample (List.replicate n true ++ b :: rest) s) hp h hb hbelow' hlast' rfl
    rw [show (n + 1) * (1 + s.cfg.tPoll) + 1 = (1 + s.cfg.tPoll) + (n * (1 + s.cfg.tPoll) + 1) by ring,
      runSteps_add hround, polledOn_scheduled hb hin, pollTrace_succ]
    exact hrest.trans (congrArg _ (complete_flagged_congr k b rfl))

/-- The state at the first sample of a busy-wait just entered. -/
def settled (s : State) : State :=
  { s with bw := .sample, trace := List.replicate s.cfg.tBusySettle .tick ++ s.trace }

/-- The settle time of a busy-wait just entered, none or some ticks, and then its first sample. -/
theorem runSteps_settle_fresh {s : State} {w : WaitKind} (hs : freshEntry s) (he : entryOf s.pc = .busyWait w) :
    runSteps s.cfg.tBusySettle s = .next (settled s) := by
  have h := inEntry_of_fresh hs he
  obtain ⟨-, hsub, -, hb, -⟩ := hs
  rw [settled]
  cases hn : s.cfg.tBusySettle with
  | zero =>
    rw [hn, if_neg (Nat.lt_irrefl 0)] at hb
    rw [← hb]; rfl
  | succ k =>
    rw [hn, if_pos (Nat.succ_pos k)] at hb
    rw [runSteps_settle h hb (by rw [hsub, Nat.zero_add, hn]), ← hsub]; rfl

/-- A busy-wait takes the ticks and samples of its outcome, and completes. -/
theorem runSteps_outcome {s : State} {k : WaitKind} {o : WaitOutcome} {rest : List Level} (hp : 0 < s.cfg.tPoll)
    (hs : freshEntry s) (he : entryOf s.pc = .busyWait k) (ho : o.possible s.cfg = true)
    (hin : s.busyIn = o.samples s.cfg ++ rest) :
    runSteps (s.cfg.tBusySettle + o.polls s.cfg * (1 + s.cfg.tPoll) + 1) s
      = .next (complete (flagged k o.lastLevel { s with
          busyIn := rest, trace := (o.trace s.cfg).reverse ++ s.trace })) := by
  have h := inEntry_of_fresh hs he
  have hsamples := runSteps_samples (s := settled s) (b := o.lastLevel) (rest := rest) (o.polls s.cfg) hp h rfl
    (fun m hm => by simpa [settled, fresh_wait hs] using WaitOutcome.below_ceiling hp ho hm)
    (fun hhigh => by simpa [settled, fresh_wait hs] using WaitOutcome.at_ceiling hp hhigh)
    (hin.trans (List.append_assoc ..))
  rw [Nat.add_assoc, runSteps_add (runSteps_settle_fresh hs he), ← pollTrace_settle]
  exact hsamples.trans (congrArg _ (complete_flagged_congr k _ rfl))

/-- Settles O37: the settle time, and then the samples of the outcome. -/
theorem busyWaitFollowsItsSamples : Obligations.BusyWaitFollowsItsSamples := by
  intro s k o rest hc hs he ho hin
  rw [runSteps_outcome (tPoll_pos hc) hs he ho hin, o.lastLevel_eq_flag]
  rfl

end Sys2Proof.Machine

namespace Sys2Proof.Machine

/-! ### Every entry completes (42_refresh_sequencer.md R96) -/

/-- Run by itself the sequencer completes its entry, with at most `b` ticks. -/
def CompletesWithin (b : Nat) (s : State) : Prop :=
  ∃ n u, runSteps n s = .next (complete u) ∧ u.pc = s.pc ∧ u.run = s.run ∧ u.turns = s.turns
    ∧ ticksOf u.trace ≤ ticksOf s.trace + b

theorem ticksOf_replicate_append (n : Nat) (l : List LinkEvent) :
    ticksOf (List.replicate n .tick ++ l) = n + ticksOf l := by
  rw [ticksOf, List.count_append, List.count_replicate_self]; rfl

theorem ticksOf_sample (b : Level) (l : List LinkEvent) : ticksOf (.sample b :: l) = ticksOf l :=
  List.count_cons_of_ne (by simp)

/-- An entry completes when it completes from a state the sequencer reaches inside it. -/
theorem CompletesWithin.of_run {n b b' : Nat} {s v : State} (h : CompletesWithin b v) (hrun : runSteps n s = .next v)
    (hpc : v.pc = s.pc) (hr : v.run = s.run) (hT : v.turns = s.turns)
    (hticks : ticksOf v.trace + b ≤ ticksOf s.trace + b') : CompletesWithin b' s := by
  obtain ⟨m, u, hu, hupc, hur, huT, hut⟩ := h
  exact ⟨n + m, u, (runSteps_add hrun).trans hu, hupc.trans hpc, hur.trans hr, huT.trans hT, hut.trans hticks⟩

/-- The last sample of a busy-wait takes no tick. -/
theorem flagged_sampled_frame (k : WaitKind) (b : Level) (s : State) :
    (flagged k b (sampled s)).pc = s.pc ∧ (flagged k b (sampled s)).run = s.run
      ∧ (flagged k b (sampled s)).turns = s.turns ∧ ticksOf (flagged k b (sampled s)).trace = ticksOf s.trace := by
  simp [flagged_eq, sampled, ticksOf_sample]

@[simp] theorem polledOn_frame (s : State) :
    (polledOn s).pc = s.pc ∧ (polledOn s).run = s.run ∧ (polledOn s).turns = s.turns ∧ (polledOn s).cfg = s.cfg := by
  simp [polledOn, polled, ticked, pollBegun, sampled]

@[simp] theorem polledOn_wait (s : State) : (polledOn s).wait = s.wait + s.cfg.tPoll := by
  simp [polledOn, polled, pollBegun, sampled]

/-- A round is one poll period of ticks. -/
theorem ticksOf_polledOn (s : State) : ticksOf (polledOn s).trace = s.cfg.tPoll + ticksOf s.trace := by
  simp [polledOn, polled, ticked, pollBegun, sampled, ticksOf_replicate_append, ticksOf_sample]

/-- From a sample on, a busy-wait completes by the first sample at or above the ceiling, whatever `BUSY` does. -/
theorem completesWithin_sample {k : WaitKind} (s : State) (hp : 0 < s.cfg.tPoll) (h : InEntry (.busyWait k) s)
    (hb : s.bw = .sample) (hw : s.wait ≤ s.cfg.tBusyMax + s.cfg.tPoll - 1) :
    CompletesWithin (s.cfg.tBusyMax + s.cfg.tPoll - 1 - s.wait) s := by
  by_cases hagain : (sampleBusy s).1 = true ∧ s.wait < s.cfg.tBusyMax
  · obtain ⟨hlevel, hwait⟩ := hagain
    obtain ⟨hpc, hr, hT, hcfg⟩ := polledOn_frame s
    have hrest := completesWithin_sample (k := k) (polledOn s) (by simpa using hp) (by simpa [InEntry] using h) rfl
      (by rw [hcfg, polledOn_wait]; omega)
    refine hrest.of_run (runSteps_round hp h hb hlevel hwait) hpc hr hT ?_
    rw [ticksOf_polledOn, hcfg, polledOn_wait]
    omega
  · obtain ⟨hpc, hr, hT, hticks⟩ := flagged_sampled_frame k (sampleBusy s).1 s
    have hlast := step_sample_last h hb (by simpa using hagain)
    exact ⟨1, _, (runSteps_one s).trans hlast, hpc, hr, hT, hticks.trans_le (Nat.le_add_right _ _)⟩
termination_by s.cfg.tBusyMax - s.wait
decreasing_by rw [hcfg, polledOn_wait]; omega

/-- No busy-wait is the entry before the last. -/
theorem entryOf_before_fin : ∀ e : Fin 21, entryOf (nextEntry e) = .fin →
    entryOf e = .unit .dsleep ∨ entryOf e = .fin := by decide

/-- Settles O38: the settle time, and then every sample up to the ceiling. -/
theorem busyWaitIsBounded : Obligations.BusyWaitIsBounded := by
  intro s k hc hs he
  have hp := tPoll_pos hc
  have h := inEntry_of_fresh hs he
  have hsettle := runSteps_settle_fresh hs he
  obtain ⟨hr, -, hwait, -, -⟩ := hs
  have hsamples := completesWithin_sample (settled s) hp h rfl (hwait.trans_le (Nat.zero_le _))
  obtain ⟨n, u, hrun, hpc, hur, -, hticks⟩ := hsamples.of_run (b' := busyWaitBound s.cfg) hsettle
    rfl rfl rfl (by rw [settled, ticksOf_replicate_append, busyWaitBound]; simp only; omega)
  refine ⟨n, complete u, hrun, congrArg nextEntry hpc, rfl, ?_, hticks⟩
  rw [complete_run, hpc, if_neg, hur, hr]
  intro hfin
  rcases entryOf_before_fin s.pc hfin with hd | hd <;> rw [he] at hd <;> cases hd

/-- An entry that a run completes. -/
theorem completesWithin_of_run {n : Nat} {s u : State} (hrun : runSteps n s = .next (complete u)) (hpc : u.pc = s.pc)
    (hr : u.run = s.run) (hT : u.turns = s.turns) : ∃ b, CompletesWithin b s :=
  ⟨ticksOf u.trace, n, u, hrun, hpc, hr, hT, Nat.le_add_left _ _⟩

/-- From every position the invariant allows, a busy-wait completes. -/
theorem EngineInv.busyWait_completes {s : State} (h : EngineInv s) {k : WaitKind} (hin : InEntry (.busyWait k) s) :
    ∃ b, CompletesWithin b s := by
  have he : entryOf s.pc = .busyWait k := hin.2.2
  have hp := tPoll_pos h.cfg
  have hpos := h.position hin.1
  cases hb : s.bw with
  | settle =>
    obtain ⟨hsub, hwait⟩ := (positionOk_settle he hb).1 hpos
    obtain ⟨m, hm⟩ := Nat.exists_eq_add_of_lt hsub
    have hrest := completesWithin_sample { ticked s (m + 1) with sub := 0, bw := .sample } hp hin rfl
      (hwait.trans_le (Nat.zero_le _))
    exact ⟨_, hrest.of_run (runSteps_settle hin hb hm.symm) rfl rfl rfl (Nat.le_add_left _ _)⟩
  | sample => exact ⟨_, completesWithin_sample s hp hin hb ((positionOk_sample he hb).1 hpos)⟩
  | poll =>
    obtain ⟨hsub, hwait⟩ := (positionOk_poll he hb).1 hpos
    obtain ⟨m, hm⟩ := Nat.exists_eq_add_of_lt hsub
    have hrest := completesWithin_sample { polled s (m + 1) with bw := .sample } hp hin rfl
      (show s.wait + (m + 1) ≤ s.cfg.tBusyMax + s.cfg.tPoll - 1 by omega)
    exact ⟨_, hrest.of_run (runSteps_poll hin hb hm.symm) rfl rfl rfl (Nat.le_add_left _ _)⟩

/-- From every state of the invariant a running refresh completes its entry. -/
theorem EngineInv.entry_completes {s : State} (h : EngineInv s) (hr : s.run = true) (hT : s.turns = []) :
    ∃ b, CompletesWithin b s := by
  have hpos := h.position hr
  cases he : entryOf s.pc with
  | pin v =>
    exact completesWithin_of_run (u := note (.rst v) (drive .rstN v s))
      ((runSteps_one s).trans (step_micro hr hT he nofun)) rfl rfl rfl
  | delay d =>
    obtain ⟨m, hm⟩ := Nat.exists_eq_add_of_lt ((positionOk_delay he).1 hpos)
    exact completesWithin_of_run (runSteps_delay ⟨hr, hT, he⟩ hm.symm) rfl rfl rfl
  | busyWait k => exact h.busyWait_completes ⟨hr, hT, he⟩
  | unit i =>
    obtain ⟨opc, ho⟩ := encodeSpi_of_entryOf he s.cfg.cmds
    obtain ⟨m, hm⟩ := Nat.exists_eq_add_of_le ((positionOk_unit he).1 hpos)
    rw [lastPosition_eq_length _ s.mem] at hm
    exact completesWithin_of_run (runSteps_unit ⟨hr, hT, he⟩ ho hm.symm) rfl rfl rfl
  | pass => exact completesWithin_of_run (u := s) ((runSteps_one s).trans (step_micro hr hT he nofun)) rfl rfl rfl
  | fin => exact absurd ((entryOf_eq_fin_iff _).1 he) ((phaseOk_running hr).1 h.phase).1

theorem runSteps_keeps_inv {n : Nat} {s t : State} (h : EngineInv s) (hrun : runSteps n s = .next t) : EngineInv t := by
  induction n generalizing s with
  | zero => cases hrun; exact h
  | succ n ih =>
    obtain ⟨u, hstep, hrest⟩ := runSteps_succ_eq_next hrun
    exact ih (stepKeepsTheInvariant s u h hstep) hrest

/-- A running refresh completes its entry into the next one, and so on to the last. -/
theorem EngineInv.refresh_ends {s : State} (h : EngineInv s) (hr : s.run = true) (hT : s.turns = []) :
    ∃ n t, runSteps n s = .next t ∧ t.run = false ∧ t.state = .sleeping ∧ t.pc = 20 := by
  obtain ⟨b, n, u, hrun, hpc, hur, huT, -⟩ := h.entry_completes hr hT
  have hcpc : (complete u).pc = nextEntry s.pc := congrArg nextEntry hpc
  by_cases hlast : nextEntry s.pc = 20
  · refine ⟨n, complete u, hrun, ?_, ?_, hcpc.trans hlast⟩
    · rw [complete_run, hpc, hlast]; rfl
    · rw [complete_state, hpc, hlast]; rfl
  · have hcr : (complete u).run = true := by
      rw [complete_run, hpc, if_neg (fun hfin => hlast ((entryOf_eq_fin_iff _).1 hfin)), hur, hr]
    obtain ⟨m, t, hm, ht⟩ := (runSteps_keeps_inv h hrun).refresh_ends hcr (huT.trans hT)
    exact ⟨n + m, t, (runSteps_add hrun).trans hm, ht⟩
termination_by 20 - s.pc.val
decreasing_by
  have hval := nextEntry_val ((phaseOk_running hr).1 h.phase).1
  rw [hcpc, hval]
  exact Nat.sub_succ_lt_self _ _ (show s.pc.val < 20 by omega)

/-- Settles O39. -/
theorem everyRefreshEnds : Obligations.EveryRefreshEnds := fun _ h hr hT => h.refresh_ends hr hT

end Sys2Proof.Machine

namespace Sys2Proof.Machine

/-! ### The frames of a refresh (42_refresh_sequencer.md R98, R99) -/

theorem framesOf_append (l l' : List LinkEvent) : framesOf (l ++ l') = framesOf l ++ framesOf l' :=
  List.filterMap_append

/-- Events that are no frames add none. -/
theorem framesOf_eq_nil {l : List LinkEvent} (h : ∀ e ∈ l, ∀ dc b, e ≠ .frame dc b) : framesOf l = [] := by
  refine List.filterMap_eq_nil_iff.2 fun e he => ?_
  cases e with
  | frame dc b => exact absurd rfl (h _ he dc b)
  | rst | tick | sample => rfl

@[simp] theorem framesOf_unitTrace (opc : Byte) (data : List Byte) :
    framesOf (unitTrace opc data) = (false, opc) :: data.map (true, ·) := by
  rw [unitTrace]
  refine congrArg (_ :: ·) ?_
  induction data with
  | nil => rfl
  | cons b data ih => exact congrArg (_ :: ·) ih

@[simp] theorem framesOf_resetTrace (c : Cfg) : framesOf (resetTrace c) = [] :=
  framesOf_eq_nil (by simp +contextual [resetTrace, or_imp, forall_and])

@[simp] theorem framesOf_wait (c : Cfg) (o : WaitOutcome) : framesOf (o.trace c) = [] :=
  framesOf_eq_nil (by simp +contextual [WaitOutcome.trace, or_imp, forall_and])

/-- The frames before the write-primary command: the soft reset and the seven initialisation units. -/
def framesBefore (p : PanelCommands) : List (Level × Byte) :=
  (false, p.opcSwreset) :: framesOf (initTrace p)

/-- The frames from the write-primary command on. -/
def framesFrom (p : PanelCommands) (m : Memory) : List (Level × Byte) :=
  (false, p.opcWramP) :: (planeData m .primary).map (true, ·) ++ (false, p.opcWramA) :: (planeData m .accent).map (true, ·)
    ++ [(false, p.opcActivate), (false, p.opcDsleep), (true, p.plDsleep)]

theorem framesOf_refreshTrace (c : Cfg) (m : Memory) (hw sw act : WaitOutcome) :
    framesOf (refreshTrace c m hw sw act) = framesBefore c.cmds ++ framesFrom c.cmds m := by
  simp [refreshTrace, transferTrace, framesOf_append, framesBefore, framesFrom]

theorem framesBefore_length (p : PanelCommands) : (framesBefore p).length = 8 + initPayloadBytes p := by
  simp [framesBefore, initTrace, framesOf_append, initPayloadBytes]
  omega

theorem framesFrom_length (p : PanelCommands) (m : Memory) : (framesFrom p m).length = 30005 := by
  simp [framesFrom, planeData_length]

/-- Data bytes have tag 1. -/
theorem filter_tag_data (data : List Byte) : (data.map (true, ·)).filter (fun f => !f.1) = [] := by
  simp [List.filter_map]

theorem framesBefore_commands (p : PanelCommands) : ((framesBefore p).filter (fun f => !f.1)).length = 8 := by
  simp [framesBefore, initTrace, framesOf_append, List.filter_append, filter_tag_data]

theorem framesFrom_commands (p : PanelCommands) (m : Memory) :
    ((framesFrom p m).filter (fun f => !f.1)).length = 4 := by
  simp [framesFrom, List.filter_append, filter_tag_data]

theorem planeData_accent (m : Memory) :
    planeData m .accent = (List.range 15000).map (fun i => m.get (15000 + i)) := rfl

/-- Settles O41: the frames before the write-primary command, and those from it on. -/
theorem refreshFrameCount : Obligations.RefreshFrameCount := by
  intro c m hw sw act
  rw [framesOf_refreshTrace]
  refine ⟨?_, ?_, ?_⟩
  · rw [List.length_append, framesBefore_length, framesFrom_length]; omega
  · rw [List.filter_append, List.length_append, framesBefore_commands, framesFrom_commands]
  · rw [← framesBefore_length, List.drop_left, framesFrom, planeData_primary, planeData_accent, List.map_map,
      List.map_map]
    rfl

end Sys2Proof.Machine

namespace Sys2Proof.Machine

/-! ### A whole refresh, entry by entry (42_refresh_sequencer.md R98)

`o` gives the outcome of each busy-wait. What a refresh appends to the link trace, and the levels of `BUSY` it takes, are
those of its entries in order. -/

/-- The timeout flag of a busy-wait. -/
def timedOut : WaitKind → State → Bool
  | .hwrst, s => s.toHwrst
  | .swrst, s => s.toSwrst
  | .act, s => s.toAct

/-- The outcome of each of the three busy-waits. -/
def outcomes (hw sw act : WaitOutcome) : WaitKind → WaitOutcome
  | .hwrst => hw
  | .swrst => sw
  | .act => act

/-- The events of an entry. -/
def entryTrace (c : Cfg) (m : Memory) (o : WaitKind → WaitOutcome) : Entry → List LinkEvent
  | .pin v => [.rst v]
  | .delay d => List.replicate (delayTicks c d) .tick
  | .busyWait k => (o k).trace c
  | .unit i => unitTrace ((encodeSpi c.cmds i).getD 0) (unitData c.cmds m i)
  | .pass | .fin => []

/-- The levels of `BUSY` an entry samples. -/
def entrySamples (c : Cfg) (o : WaitKind → WaitOutcome) : Entry → List Level
  | .busyWait k => (o k).samples c
  | .pin _ | .delay _ | .unit _ | .pass | .fin => []

/-- The entries before `e`, in order. -/
def entriesBefore (e : Fin 21) : List Entry := (microProgram.take e.val).map Prod.snd

/-- The entries from `e` on, in order. -/
def entriesFrom (e : Fin 21) : List Entry := (microProgram.drop e.val).map Prod.snd

theorem entriesBefore_nextEntry : ∀ e : Fin 21, e ≠ 20 →
    entriesBefore (nextEntry e) = entriesBefore e ++ [entryOf e] := by decide

theorem entriesFrom_nextEntry : ∀ e : Fin 21, e ≠ 20 →
    entriesFrom e = entryOf e :: entriesFrom (nextEntry e) := by decide

/-- The events of a refresh are those of its entries. -/
theorem refreshTrace_eq (c : Cfg) (m : Memory) (hw sw act : WaitOutcome) :
    refreshTrace c m hw sw act = (entriesBefore 20).flatMap (entryTrace c m (outcomes hw sw act)) := by
  simp [refreshTrace, resetTrace, initTrace, transferTrace, entriesBefore, microProgram, entryTrace, outcomes,
    encodeSpi, unitData, payloadOf, delayTicks]

/-- The levels a refresh samples are those of its entries. -/
theorem samples_eq (c : Cfg) (hw sw act : WaitOutcome) (rest : List Level) :
    hw.samples c ++ (sw.samples c ++ (act.samples c ++ rest))
      = (entriesFrom 0).flatMap (entrySamples c (outcomes hw sw act)) ++ rest := by
  simp [entriesFrom, microProgram, entrySamples, outcomes]

/-- What an entry of a refresh does before it completes, from `u` to `v`. -/
structure EntryDone (o : WaitKind → WaitOutcome) (u v : State) : Prop where
  kept   : HostSideKept u v
  pc     : v.pc = u.pc
  run    : v.run = u.run
  trace  : v.trace = (entryTrace u.cfg u.mem o (entryOf u.pc)).reverse ++ u.trace
  levels : u.busyIn = entrySamples u.cfg o (entryOf u.pc) ++ v.busyIn
  flags  : ∀ k, timedOut k v = (timedOut k u || (decide (entryOf u.pc = .busyWait k) && (o k).flag))
  driven : ∀ l, entryOf u.pc = .pin l → v.rstN = l
  rstN   : (∀ l, entryOf u.pc ≠ .pin l) → v.rstN = u.rstN

section
variable {o : WaitKind → WaitOutcome} {u : State}

/-- A step of a `PIN` entry is the whole entry. -/
theorem entryDone_pin {v : Level} (he : entryOf u.pc = .pin v) : EntryDone o u (note (.rst v) (drive .rstN v u)) where
  kept := by constructor <;> rfl
  pc := rfl
  run := rfl
  trace := by rw [he]; rfl
  levels := by rw [he]; rfl
  flags k := by cases k <;> simp [he, timedOut]
  driven l hl := by simpa [he] using hl
  rstN hne := absurd he (hne v)

/-- An entry that is neither pin nor busy-wait is done when its events are appended. -/
theorem entryDone_quiet {v : State} (hkept : HostSideKept u v) (hpc : v.pc = u.pc) (hrun : v.run = u.run)
    (htrace : v.trace = (entryTrace u.cfg u.mem o (entryOf u.pc)).reverse ++ u.trace) (hlevels : v.busyIn = u.busyIn)
    (hflags : ∀ k, timedOut k v = timedOut k u) (hrst : v.rstN = u.rstN)
    (hp : ∀ l, entryOf u.pc ≠ .pin l) (hb : ∀ k, entryOf u.pc ≠ .busyWait k) : EntryDone o u v where
  kept := hkept
  pc := hpc
  run := hrun
  trace := htrace
  levels := by
    cases he : entryOf u.pc with
    | busyWait k => exact absurd he (hb k)
    | pin | delay | unit | pass | fin => exact hlevels.symm
  flags k := by simp [hflags, hb]
  driven l hl := absurd hl (hp l)
  rstN _ := hrst

theorem timedOut_flagged (k k' : WaitKind) (b : Level) (s : State) :
    timedOut k' (flagged k b s) = (timedOut k' s || (decide (k = k') && b)) := by
  rw [flagged_eq]; cases k' <;> rfl

/-- A busy-wait is done when its levels are taken, its events appended and its flag set where it timed out. -/
theorem entryDone_busyWait {k : WaitKind} (he : entryOf u.pc = .busyWait k) {rest : List Level}
    (hin : u.busyIn = (o k).samples u.cfg ++ rest) :
    EntryDone o u (flagged k (o k).lastLevel { u with
      busyIn := rest, trace := ((o k).trace u.cfg).reverse ++ u.trace }) where
  kept := by rw [flagged_eq]; constructor <;> rfl
  pc := by rw [flagged_eq]
  run := by rw [flagged_eq]
  trace := by rw [flagged_eq, he]; rfl
  levels := by rw [flagged_eq, he]; exact hin
  flags k' := by
    rw [timedOut_flagged, he, (o k).lastLevel_eq_flag, show timedOut k' _ = timedOut k' u by cases k' <;> rfl]
    by_cases hk : k = k'
    · subst hk; simp
    · simp [hk]
  driven l hl := by simp [he] at hl
  rstN _ := by rw [flagged_eq]

/-- A unit is done when its frames are sent. -/
theorem entryDone_unit {i : Instr} {opc : Byte} (he : entryOf u.pc = .unit i) (ho : encodeSpi u.cfg.cmds i = some opc)
    {cs d ck di : Level} :
    EntryDone o u { u with
      csN := cs, dc := d, sclk := ck, din := di
      trace := (unitTrace opc (unitData u.cfg.cmds u.mem i)).reverse ++ u.trace } :=
  entryDone_quiet (by constructor <;> rfl) rfl rfl (by simp [he, entryTrace, ho]) rfl (fun k => by cases k <;> rfl) rfl
    (by simp [he]) (by simp [he])

/-- Every entry before the last, just entered and with the levels of its samples scheduled, is done and completes. -/
theorem runSteps_entry (hc : u.cfg.wf = true) (hs : freshEntry u) (hfin : entryOf u.pc ≠ .fin)
    (ho : ∀ k, (o k).possible u.cfg = true) {rest : List Level}
    (hin : u.busyIn = entrySamples u.cfg o (entryOf u.pc) ++ rest) :
    ∃ n v, runSteps n u = .next (complete v) ∧ EntryDone o u v := by
  cases he : entryOf u.pc with
  | pin v => exact ⟨1, _, (runSteps_one u).trans (step_inEntry (inEntry_of_fresh hs he) nofun), entryDone_pin he⟩
  | delay d =>
    refine ⟨_, _, delayTakesItsTicks u d hc hs he, entryDone_quiet (by constructor <;> rfl) rfl rfl ?_ rfl ?_ rfl ?_ ?_⟩
    · simp [he, entryTrace]
    · exact fun k => by cases k <;> rfl
    · simp [he]
    · simp [he]
  | busyWait k =>
    rw [he] at hin
    exact ⟨_, _, runSteps_outcome (tPoll_pos hc) hs he (ho k) hin, entryDone_busyWait he hin⟩
  | unit i =>
    obtain ⟨opc, hopc⟩ := encodeSpi_of_entryOf he u.cfg.cmds
    exact ⟨_, _, runSteps_unit_fresh hs he hopc, entryDone_unit he hopc⟩
  | pass =>
    refine ⟨1, u, (runSteps_one u).trans (step_inEntry (inEntry_of_fresh hs he) nofun),
      entryDone_quiet (by constructor <;> rfl) rfl rfl ?_ rfl (fun _ => rfl) rfl ?_ ?_⟩ <;> simp [he, entryTrace]
  | fin => exact absurd he hfin

end

/-- Where a refresh accepted in `s` is when it enters entry `e`. -/
structure RefreshAt (s : State) (o : WaitKind → WaitOutcome) (rest : List Level) (e : Fin 21) (u : State) : Prop where
  fresh  : e ≠ 20 → freshEntry u
  pc     : u.pc = e
  kept   : HostSideKept s u
  trace  : u.linkTrace = s.linkTrace ++ (entriesBefore e).flatMap (entryTrace s.cfg s.mem o)
  levels : u.busyIn = (entriesFrom e).flatMap (entrySamples s.cfg o) ++ rest
  flags  : ∀ k, timedOut k u = (decide (.busyWait k ∈ entriesBefore e) && (o k).flag)
  rstN   : e ≠ 0 → u.rstN = !(e == 1 || e == 2)

section
variable {s u v : State} {o : WaitKind → WaitOutcome} {rest : List Level} {e : Fin 21}

theorem HostSideKept.trans (h : HostSideKept s u) (h' : HostSideKept u v) : HostSideKept s v where
  argX := h'.argX.trans h.argX
  argY := h'.argY.trans h.argY
  result := h'.result.trans h.result
  mem := h'.mem.trans h.mem
  readData := h'.readData.trans h.readData
  rejected := h'.rejected.trans h.rejected
  illegal := h'.illegal.trans h.illegal
  turns := h'.turns.trans h.turns
  cfg := h'.cfg.trans h.cfg

theorem HostSideKept.complete (h : HostSideKept s u) : HostSideKept s (complete u) := h.trans (by constructor <;> rfl)

/-- The levels still scheduled at an entry are its own and those from the next entry on. -/
theorem RefreshAt.levels_eq (h : RefreshAt s o rest e u) (he : e ≠ 20) :
    u.busyIn = entrySamples u.cfg o (entryOf u.pc)
      ++ ((entriesFrom (nextEntry e)).flatMap (entrySamples s.cfg o) ++ rest) := by
  rw [h.levels, entriesFrom_nextEntry e he, List.flatMap_cons, List.append_assoc, h.kept.cfg, h.pc]

/-- Completing an entry that is done takes the refresh to the next one. -/
theorem RefreshAt.next (h : RefreshAt s o rest e u) (he : e ≠ 20) (hd : EntryDone o u v) :
    RefreshAt s o rest (nextEntry e) (complete v) where
  fresh hne := by
    obtain ⟨hr, -, -, -, hT⟩ := h.fresh he
    refine freshEntry_complete (hd.run.trans hr) (hd.kept.turns.trans hT) fun hfin => hne ?_
    rw [hd.pc, h.pc] at hfin
    exact (entryOf_eq_fin_iff _).1 hfin
  pc := by rw [complete_pc, hd.pc, h.pc]
  kept := (h.kept.trans hd.kept).complete
  trace := by
    have htrace := h.trace
    rw [State.linkTrace] at htrace
    rw [State.linkTrace, complete_trace, hd.trace, List.reverse_append, List.reverse_reverse, htrace,
      entriesBefore_nextEntry e he, List.flatMap_append, List.flatMap_singleton, List.append_assoc, h.kept.cfg,
      h.kept.mem, h.pc]
  levels := List.append_cancel_left (hd.levels.symm.trans (h.levels_eq he))
  flags k := by
    have hmem : decide (Entry.busyWait k ∈ entriesBefore (nextEntry e))
        = (decide (.busyWait k ∈ entriesBefore e) || decide (entryOf e = .busyWait k)) := by
      simp [entriesBefore_nextEntry e he, eq_comm]
    calc timedOut k (complete v) = timedOut k v := by cases k <;> rfl
      _ = _ := by rw [hd.flags, h.flags, h.pc, hmem, ← Bool.and_or_distrib_right]
  rstN _ := by
    rw [complete_rstN]
    by_cases hpin : ∃ l, entryOf e = .pin l
    · obtain ⟨l, hl⟩ := hpin
      rw [hd.driven l (h.pc ▸ hl), pin_level_next e l hl]
    · have hno : ∀ l, entryOf e ≠ .pin l := fun l hl => hpin ⟨l, hl⟩
      rw [hd.rstN (h.pc ▸ hno), reset_low_next e hno, h.rstN]
      rintro rfl
      exact hno _ rfl

/-- A refresh accepted in `s` enters every entry. -/
theorem RefreshAt.reached (h : RefreshAt s o rest 0 u) (hc : s.cfg.wf = true) (ho : ∀ k, (o k).possible s.cfg = true)
    (j : Nat) (hj : j < 21) : ∃ n t, runSteps n u = .next t ∧ RefreshAt s o rest ⟨j, hj⟩ t := by
  induction j with
  | zero => exact ⟨0, u, rfl, h⟩
  | succ j ih =>
    obtain ⟨n, t, hrun, ht⟩ := ih (by omega)
    have hne : (⟨j, by omega⟩ : Fin 21) ≠ 20 := by simp [Fin.ext_iff]; omega
    obtain ⟨m, v, hm, hd⟩ := runSteps_entry (o := o) (ht.kept.cfg ▸ hc) (ht.fresh hne)
      (fun hfin => hne (ht.pc ▸ (entryOf_eq_fin_iff _).1 hfin)) (ht.kept.cfg ▸ ho) (ht.levels_eq hne)
    have hnext : nextEntry ⟨j, by omega⟩ = (⟨j + 1, hj⟩ : Fin 21) := Fin.ext (nextEntry_val hne)
    exact ⟨n + m, complete v, (runSteps_add hrun).trans hm, hnext ▸ ht.next hne hd⟩

end

/-- A refresh begins at entry 0, with nothing sent yet and clear timeout flags (R85). -/
theorem refreshAt_accepted {s : State} {o : WaitKind → WaitOutcome} {rest : List Level} (hT : s.turns = [])
    (hin : s.busyIn = (entriesFrom 0).flatMap (entrySamples s.cfg o) ++ rest) :
    RefreshAt s o rest 0 (accepted s) where
  fresh _ := ⟨rfl, rfl, rfl, rfl, hT⟩
  pc := rfl
  kept := by constructor <;> rfl
  trace := (List.append_nil _).symm
  levels := hin
  flags k := by cases k <;> rfl
  rstN hne := absurd rfl hne

/-- The last unit of a refresh, and its end. -/
theorem RefreshAt.last {s u : State} {o : WaitKind → WaitOutcome} {rest : List Level} (h : RefreshAt s o rest 19 u) :
    ∃ n t, runSteps n u = .next t ∧ RefreshAt s o rest 20 t ∧ t.run = false ∧ t.state = .sleeping ∧ t.csN = true
      ∧ t.sclk = false ∧ t.dc = true ∧ t.din = s.cfg.cmds.plDsleep.getLsbD 0 := by
  have he : entryOf u.pc = .unit .dsleep := by rw [h.pc]; rfl
  have hopc : encodeSpi u.cfg.cmds .dsleep = some u.cfg.cmds.opcDsleep := rfl
  refine ⟨_, _, runSteps_unit_fresh (h.fresh (by decide)) he hopc, h.next (by decide) (entryDone_unit he hopc), ?_, ?_,
    rfl, rfl, rfl, ?_⟩
  · rw [complete_run, h.pc]; rfl
  · rw [complete_state, h.pc]; rfl
  · rw [← h.kept.cfg]; rfl

/-- Settles O40: the refresh from its acceptance to entry 19, and its last unit. -/
theorem refreshSendsItsTrace : Obligations.RefreshSendsItsTrace := by
  intro s hw sw act rest hc hr hT hhw hsw hact hin
  have ho : ∀ k, (outcomes hw sw act k).possible s.cfg = true := fun k => by cases k <;> assumption
  have haccept : runSteps 1 s = .next (accepted { s with turns := [] }) :=
    (runSteps_command (c := .refresh) rfl hT).trans (execRefresh_idle (by exact hr))
  obtain ⟨n, u, hu, hat⟩ := (refreshAt_accepted (s := { s with turns := [] }) rfl
    (hin.trans (samples_eq s.cfg hw sw act rest))).reached hc ho 19 (by decide)
  obtain ⟨m, t, ht, hend, hrun, hstate, hcs, hck, hdc, hdin⟩ := hat.last
  refine ⟨1 + (n + m), t, (runSteps_add haccept).trans ((runSteps_add hu).trans ht), ?_, hrun, hstate, hend.pc,
    hend.levels, hend.flags .hwrst, hend.flags .swrst, hend.flags .act, hcs, hck, hend.rstN (by decide), hdc, hdin, hend.kept.mem,
    hend.kept.argX, hend.kept.argY, hend.kept.result, hend.kept.rejected, hend.kept.illegal⟩
  rw [refreshTrace_eq]
  exact hend.trace

end Sys2Proof.Machine

namespace Sys2Proof.Machine

/-! ### The command register (43_host_port.md R103 to R105) -/

/-- A command's own instruction means what the command does when a word launches it. -/
theorem exec_toInstr (c : Command) (s : State) : exec c.toInstr s = runCommand c s := by cases c <;> rfl

/-- R104: a word that is not legal decodes to no command. -/
theorem execWrCmd_illegal {w : Word} (h : ¬ legal w) (s : State) :
    execWrCmd w s = .next { s with illegal := true } := by
  have hdec : ∀ c, decodeCmd w ≠ .ok c := fun c hc => h ((legalCommandWords w).1.1 ⟨c, hc⟩)
  unfold execWrCmd
  split
  · exact absurd ‹_› (hdec _)
  · rfl

/-- R105: a running refresh refuses every command but NOP and GET_PIXEL. -/
theorem execWrCmd_refused {s : State} {c : Command} (hc : c.wf = true) (hnop : c ≠ .nop) (hget : c ≠ .getPixel)
    (hr : s.run = true) :
    execWrCmd (encodeCmd c) s = .next { s with rejected := true } := by
  rw [execWrCmd_encodeCmd hc]
  cases c with
  | nop => exact absurd rfl hnop
  | setPixel code => exact exec_setPixel_running (bne_iff_ne.1 hc) hr
  | getPixel => exact absurd rfl hget
  | clear => exact exec_clear_running hr
  | refresh => exact execRefresh_running hr

/-- GET_PIXEL's word has GET_PIXEL's effect, and RUN has no part in it (40_framebuffer.md R62). -/
theorem execWrCmd_getPixel (s : State) : execWrCmd 0x00000002#32 s = .next { s with result := pixelWord s } :=
  (execWrCmd_encodeCmd (c := .getPixel) rfl s).trans (execGetPixel_eq s)

/-- Settles O23: the word launches nothing. -/
theorem illegalWordOnlySetsIllegal : Obligations.IllegalWordOnlySetsIllegal := fun s _ h => execWrCmd_illegal h s

/-- Settles O24: the word is that of a well-formed command, and a command always answers. -/
theorem legalWordLaunchesItsCommand : Obligations.LegalWordLaunchesItsCommand := by
  intro s w c h
  obtain ⟨hwf, rfl⟩ := mem_legalWords_iff.1 h
  obtain ⟨t, ht⟩ := runCommand_next c s
  exact ⟨t, (execWrCmd_encodeCmd hwf s).trans ht, (exec_toInstr c s).trans ht⟩

/-- Settles O18: the five words the guard refuses, NOP, and GET_PIXEL, which does not read RUN. -/
theorem guardDuringRefresh : Obligations.GuardDuringRefresh := by
  intro s hr
  refine ⟨?_, execWrCmd_encodeCmd (c := .nop) rfl s, fun t ht => ?_⟩
  · simp only [List.forall_mem_cons]
    exact ⟨execWrCmd_refused (c := .setPixel 0b00#2) rfl nofun nofun hr,
      execWrCmd_refused (c := .setPixel 0b01#2) rfl nofun nofun hr,
      execWrCmd_refused (c := .setPixel 0b11#2) rfl nofun nofun hr,
      execWrCmd_refused (c := .clear) rfl nofun nofun hr,
      execWrCmd_refused (c := .refresh) rfl nofun nofun hr, nofun⟩
  · have ht' : t = { s with run := false, result := pixelWord s } :=
      (Host.Outcome.next.inj ((execWrCmd_getPixel _).symm.trans ht)).symm
    rw [ht', ← hr]
    exact execWrCmd_getPixel s

/-! ### A host access during a refresh (43_host_port.md R104, R105, 20_memory.md R37) -/

section
variable {s t : State}

/-- A command launched during a refresh changes nothing the sequencer sees: the guard refuses the others. -/
theorem CommandEffect.seqView_running {c : Command} (h : CommandEffect c s t) (hr : s.run = true) :
    seqView t = seqView s := by
  have not_idle : s.run ≠ false := by simp [hr]
  cases h with
  | write _ _ hidle => exact absurd hidle not_idle
  | clear hidle => exact absurd hidle not_idle
  | refresh hidle => exact absurd hidle not_idle
  | nothing | illegal | rejected | clipped | read => rfl

/-- An access during a refresh changes nothing the sequencer sees but, by a read of `STATUS`, the draws of `BUSY`. -/
theorem HostEffect.seqView_running {i : Instr} (h : HostEffect i s t) (hr : s.run = true) :
    seqView t = seqView s ∨ i = .rdStatus ∧ ∃ l n, seqView t = { seqView s with busyIn := l, draws := n } := by
  cases h with
  | command c _ _ hc => exact .inl (hc.seqView_running hr)
  | status hi =>
    obtain ⟨l, n, hdraw⟩ := sampleBusy_frame s
    exact .inr ⟨hi, l, n, by rw [hdraw]; rfl⟩
  | illegal | nothing | read | argX | argY | sticky => exact .inl rfl

end

/-- Settles O51: only a read of `STATUS` changes what the sequencer sees, and in it only the draws. -/
theorem hostAccessLeavesARefreshAlone : Obligations.HostAccessLeavesARefreshAlone := by
  intro s t i hr hi h
  rcases (exec_host_cases hi h).seqView_running hr with hsame | ⟨hstatus, l, n, hdraws⟩
  · exact ⟨by rw [hsame]; rfl, fun _ => ⟨(congrArg State.busyIn hsame :), (congrArg State.draws hsame :)⟩⟩
  · exact ⟨by rw [hdraws]; rfl, fun hne => absurd hstatus hne⟩

/-! ### The status register (43_host_port.md R113, R114, 10_state.md R17) -/

theorem sampleBusy_nil {s : State} (h : s.busyIn = []) :
    sampleBusy s = (Config.busyLevel s.draws, { s with draws := s.draws + 1 }) := by simp [sampleBusy, h]

/-- STATE is bits [3:0] of `STATUS` (R17). -/
theorem statusWord_state (b : Level) (s : State) : (statusWord b s).extractLsb' 0 4 = s.state.code := by
  refine BitVec.eq_of_getLsbD_eq fun i hi => ?_
  simp only [statusWord, BitVec.getLsbD_extractLsb', BitVec.getLsbD_setWidth, BitVec.getLsbD_append]
  simp [hi, show i < 32 by omega]

/-- The timeout flags, the sticky flags and `BUSY` are bits 5 to 10 of `STATUS` (R17). -/
theorem statusWord_flags (b : Level) (s : State) : (statusWord b s).getLsbD 5 = s.toHwrst
    ∧ (statusWord b s).getLsbD 6 = s.toSwrst ∧ (statusWord b s).getLsbD 7 = s.toAct
    ∧ (statusWord b s).getLsbD 8 = s.rejected ∧ (statusWord b s).getLsbD 9 = s.illegal
    ∧ (statusWord b s).getLsbD 10 = b := by
  simp only [statusWord, BitVec.getLsbD_setWidth, BitVec.getLsbD_append]
  simp

/-- `STATUS` has no bit above `BUSY` (R17). -/
theorem statusWord_high (b : Level) (s : State) {i : Nat} (hi : 11 ≤ i) : (statusWord b s).getLsbD i = false := by
  rw [statusWord, BitVec.getLsbD_setWidth, BitVec.getLsbD_of_ge _ i hi, Bool.and_false]

/-- Settles O21: the level drawn, the word made of it field by field, and the frame of a draw. -/
theorem statusRead : Obligations.StatusRead := by
  refine fun s => ⟨fun _ => rfl, (sampleBusy s).1, respond (statusWord (sampleBusy s).1 s) (sampleBusy s).2, rfl,
    fun l rest h => ?_, fun h => ?_, statusWord_state _ s, statusWord_run _ s, ?_⟩
  · rw [sampleBusy_cons h]
    exact ⟨rfl, rfl, rfl⟩
  · rw [sampleBusy_nil h]
    exact ⟨rfl, h, rfl⟩
  · obtain ⟨h5, h6, h7, h8, h9, h10⟩ := statusWord_flags (sampleBusy s).1 s
    obtain ⟨l, n, hdraw⟩ := sampleBusy_frame s
    exact ⟨h5, h6, h7, h8, h9, h10, fun _ => statusWord_high _ s, by rw [hdraw]; rfl⟩

/-- R114: a 1 at bit 8 or bit 9 clears its flag, a 0 leaves it. -/
theorem clearSticky_eq_ite (v : Word) (s : State) : clearSticky v s = { s with
    rejected := if v.getLsbD 8 then false else s.rejected
    illegal := if v.getLsbD 9 then false else s.illegal } := by
  rw [Bool.if_false_left, Bool.if_false_left, Bool.decide_eq_true, Bool.decide_eq_true, Bool.and_comm,
    Bool.and_comm (!v.getLsbD 9)]
  rfl

/-- Settles O22: the access clears each of the two flags by its own bit, and nothing else. -/
theorem statusWrite : Obligations.StatusWrite := fun s v =>
  ⟨rfl, congrArg Host.Outcome.next (clearSticky_eq_ite v s)⟩

/-! ### The other accesses of the port (43_host_port.md R106 to R111, R115) -/

/-- Settles O19: each control value, and the word each read returns. -/
theorem portReads : Obligations.PortReads :=
  ⟨fun _ => ⟨rfl, rfl, rfl, rfl, rfl, rfl, rfl⟩, fun _ => ⟨rfl, rfl, rfl, rfl, rfl, rfl, rfl⟩⟩

/-- Settles O20: each write stores its word, and neither reads RUN. -/
theorem operandWrites : Obligations.OperandWrites := fun _ _ => ⟨rfl, rfl, rfl, rfl⟩

end Sys2Proof.Machine

namespace Sys2Proof.Machine

/-! ### States of the invariant never stop (60_exceptions.md R117) -/

section
variable {s : State}

/-- A unit's entry is fetched as its instruction. -/
theorem fetchEntry_unit {i : Instr} (he : entryOf s.pc = .unit i) : fetchEntry s = .instr i s := by
  simp only [fetchEntry, he]

/-- An SPI instruction answers at every position its entry has. -/
theorem exec_unit_next {i : Instr} (he : entryOf s.pc = .unit i) (hpos : positionOk s = true) :
    ∃ t, exec i s = .next t := by
  obtain ⟨opc, hopc⟩ := encodeSpi_of_entryOf he s.cfg.cmds
  have hsub : s.sub ≤ (unitData s.cfg.cmds s.mem i).length :=
    lastPosition_eq_length s.cfg.cmds s.mem i ▸ (positionOk_unit he).1 hpos
  exact ⟨_, (exec_eq_stepUnit hopc).trans (stepUnit_eq hsub opc)⟩

/-- A running refresh is never at the last entry, and every other entry has a step. -/
theorem EngineInv.entry_next (h : EngineInv s) (hr : s.run = true) : ∃ t, perform (fetchEntry s) = .next t := by
  cases he : entryOf s.pc with
  | unit i => rw [fetchEntry_unit he]; exact exec_unit_next he (h.position hr)
  | fin => exact absurd ((entryOf_eq_fin_iff _).1 he) ((phaseOk_running hr).1 h.phase).1
  | pin | delay | busyWait | pass => rw [fetchEntry_micro he nofun]; exact ⟨_, rfl⟩

/-- A turn of the sequencer performs its entry or nothing. -/
theorem EngineInv.turn_next (h : EngineInv s) (tick : Bool) : ∃ t, perform (sequencerTurn tick s) = .next t := by
  unfold sequencerTurn
  split_ifs with hc
  · exact h.entry_next (Bool.and_eq_true_iff.1 hc).1
  · exact ⟨_, rfl⟩

end

/-- Settles O46: a host access always answers, and the sequencer is at a position its entry has. -/
theorem invariantStatesNeverStop : Obligations.InvariantStatesNeverStop := by
  intro s h
  cases hT : s.turns with
  | nil =>
    rcases Bool.eq_false_or_eq_true s.run with hr | hr
    · rw [step_eq_perform, fetch_running hr hT]
      exact h.entry_next hr
    · exact ⟨s, stepWithoutEnabledAgent.1 s hr hT⟩
  | cons turn rest =>
    cases turn with
    | host ctrl data => rw [step_host hT]; exact exec_host_next (by simp [decodePort_format]) _
    | sequencer => rw [step_of_turn (.inl rfl) hT]; exact (h.turn_used rest).turn_next _
    | tick => rw [step_of_turn (.inr rfl) hT]; exact (h.turn_used rest).turn_next _

end Sys2Proof.Machine

namespace Sys2Proof.Machine

/-! ### What a step does to the flags (60_exceptions.md R120) -/

/-- The two sticky and the three timeout flags are the same. -/
structure FlagsKept (s t : State) : Prop where
  rejected : t.rejected = s.rejected
  illegal  : t.illegal = s.illegal
  toHwrst  : t.toHwrst = s.toHwrst
  toSwrst  : t.toSwrst = s.toSwrst
  toAct    : t.toAct = s.toAct

/-- What a step does to the flags: everything it can do. -/
inductive FlagEffect (s : State) : State → Prop where
  | kept {t : State} : FlagsKept s t → FlagEffect s t
  /-- A command refused by the guard (43_host_port.md R105). -/
  | refused (c : Command) (rest : List Turn) : s.run = true → s.turns = .host 0b1000#4 (encodeCmd c) :: rest →
      c.wf = true → c ≠ .nop → c ≠ .getPixel → FlagEffect s { s with turns := rest, rejected := true }
  /-- A word that is not legal (R104). -/
  | illegal (w : Word) (rest : List Turn) : s.turns = .host 0b1000#4 w :: rest → ¬ legal w →
      FlagEffect s { s with turns := rest, illegal := true }
  /-- A write of `STATUS` (R114). -/
  | sticky (v : Word) (rest : List Turn) : s.turns = .host 0b1100#4 v :: rest →
      FlagEffect s (clearSticky v { s with turns := rest })
  /-- An accepted REFRESH (42_refresh_sequencer.md R85). -/
  | accepted (rest : List Turn) : s.run = false → s.turns = .host 0b1000#4 (encodeCmd .refresh) :: rest →
      FlagEffect s (accepted { s with turns := rest })
  /-- A high sample of busy-wait `k` at the ceiling (R94). -/
  | timeout {t : State} (k : WaitKind) : s.run = true → entryOf s.pc = .busyWait k → s.bw = .sample →
      s.cfg.tBusyMax ≤ s.wait → t.trace = .sample true :: s.trace → FlagsKept (setTimeout k s) t → FlagEffect s t

section
variable {s t u : State}

theorem FlagsKept.trans (h : FlagsKept s u) (h' : FlagsKept u t) : FlagsKept s t where
  rejected := h'.rejected.trans h.rejected
  illegal := h'.illegal.trans h.illegal
  toHwrst := h'.toHwrst.trans h.toHwrst
  toSwrst := h'.toSwrst.trans h.toSwrst
  toAct := h'.toAct.trans h.toAct

/-- The turn used up is no flag. -/
theorem flagsKept_turns (s : State) (l : List Turn) : FlagsKept s { s with turns := l } := by constructor <;> rfl

theorem FlagsKept.setTimeout (h : FlagsKept s t) (k : WaitKind) : FlagsKept (setTimeout k s) (setTimeout k t) := by
  obtain ⟨hrej, hill, hhw, hsw, hact⟩ := h
  constructor <;> simp [*]

/-! ### Accesses of the host -/

/-- SET_PIXEL past its checks changes the planes at most. -/
theorem setPixel_cases {code : BitVec 2} (h : setPixel code s = .next t) : ∃ m, t = { s with mem := m } := by
  rcases Bool.eq_false_or_eq_true (inCanvas (pixelX s) (pixelY s)) with hin | hin
  · rw [setPixel_inCanvas code hin] at h; cases h; exact ⟨_, rfl⟩
  · rw [setPixel_clipped s code hin] at h; cases h; exact ⟨s.mem, rfl⟩

/-- The command of a legal word leaves the flags, but where the guard refuses it and where it starts a refresh. NOP and
GET_PIXEL have no guard (43_host_port.md R105). -/
theorem runCommand_flags {c : Command} (hc : c.wf = true) (h : runCommand c s = .next t) : FlagsKept s t ∨
    (s.run = true ∧ c ≠ .nop ∧ c ≠ .getPixel ∧ t = { s with rejected := true }) ∨
      (s.run = false ∧ c = .refresh ∧ t = accepted s) := by
  cases c with
  | nop => cases h; exact .inl (by constructor <;> rfl)
  | getPixel =>
    obtain ⟨v, rfl⟩ := execGetPixel_cases h
    exact .inl (by constructor <;> rfl)
  | setPixel code =>
    rcases guarded_cases ((if_neg (bne_iff_ne.1 hc)).symm.trans h) with ⟨hr, rfl⟩ | ⟨_, hset⟩
    · exact .inr (.inl ⟨hr, nofun, nofun, rfl⟩)
    · obtain ⟨m, rfl⟩ := setPixel_cases hset
      exact .inl (by constructor <;> rfl)
  | clear =>
    rcases execClear_cases h with ⟨hr, rfl⟩ | ⟨_, rfl⟩
    · exact .inr (.inl ⟨hr, nofun, nofun, rfl⟩)
    · exact .inl (by constructor <;> rfl)
  | refresh =>
    rcases execRefresh_cases h with ⟨hr, rfl⟩ | ⟨hr, rfl⟩
    · exact .inr (.inl ⟨hr, nofun, nofun, rfl⟩)
    · exact .inr (.inr ⟨hr, rfl, rfl⟩)

/-- Of the accesses of the port only the writes of `CMD` and of `STATUS` touch a flag (R103, R104, R114). -/
theorem exec_port_flags {i : Instr} (hi : i.format = .port) (h : exec i s = .next t) :
    (∃ w, i = .wrCmd w) ∨ (∃ v, i = .wrStatus v ∧ t = clearSticky v s) ∨ FlagsKept s t := by
  cases exec_host_cases (by simp [hi]) h with
  | command c _ hc _ =>
    rcases hc with rfl | ⟨w, hw, _⟩
    · simp [toInstr_format] at hi
    · exact .inl ⟨w, hw⟩
  | illegal w hw => exact .inl ⟨w, hw⟩
  | sticky v hv => exact .inr (.inl ⟨v, hv, rfl⟩)
  | status => exact .inr (.inr (by constructor <;> simp))
  | nothing | read | argX | argY => exact .inr (.inr (by constructor <;> rfl))

/-- What an access of the host does to the flags, by its control bits and its word (30_encoding.md R45). -/
theorem host_flags {ctrl : BitVec 4} {data : Word} {rest : List Turn} (hT : s.turns = .host ctrl data :: rest)
    (h : exec (decodePort ctrl data) { s with turns := rest } = .next t) : FlagEffect s t := by
  have hturn := flagsKept_turns s rest
  rcases exec_port_flags (decodePort_format ctrl data) h with ⟨w, hw⟩ | ⟨v, hv, rfl⟩ | hkept
  · rw [hw] at h
    obtain ⟨rfl, rfl⟩ := decodePort_write hw rfl rfl
    by_cases hlegal : legal data
    · obtain ⟨c, hwf, rfl⟩ := (legal_iff_encodeCmd data).1 hlegal
      rcases runCommand_flags hwf ((execWrCmd_encodeCmd hwf _).symm.trans h) with
        hkept | ⟨hr, hnop, hget, rfl⟩ | ⟨hr, rfl, rfl⟩
      · exact .kept (hturn.trans hkept)
      · exact .refused c rest hr hT hwf hnop hget
      · exact .accepted rest hr hT
    · cases (execWrCmd_illegal hlegal _).symm.trans h
      exact .illegal data rest hT hlegal
  · obtain ⟨rfl, rfl⟩ := decodePort_write hv rfl rfl
    exact .sticky data rest hT
  · exact .kept (hturn.trans hkept)

/-! ### Steps of the sequencer -/

/-- A busy-wait leaves the flags, but at a high sample at the ceiling, which sets its own timeout flag (R94). -/
theorem stepBusyWait_flags (k : WaitKind) (s : State) : FlagsKept s (stepBusyWait k s) ∨
    (s.bw = .sample ∧ s.cfg.tBusyMax ≤ s.wait ∧ (stepBusyWait k s).trace = .sample true :: s.trace ∧
      FlagsKept (setTimeout k s) (stepBusyWait k s)) := by
  unfold stepBusyWait
  split
  · unfold stepSettle
    split <;> exact .inl (by constructor <;> rfl)
  · unfold stepSample afterSample
    split_ifs with hlow hceiling
    · exact .inl (by constructor <;> simp)
    · exact .inr ⟨‹_›, by simpa using hceiling, by simpa using hlow, by constructor <;> simp⟩
    · exact .inl (by constructor <;> simp)
  · exact .inl (by constructor <;> rfl)

/-- Every entry but a busy-wait leaves the flags. -/
theorem stepMicro_flags {e : Entry} (h : stepMicro e s = .next t) :
    FlagsKept s t ∨ ∃ k, e = .busyWait k ∧ t = stepBusyWait k s := by
  rcases stepMicro_cases h with ⟨v, _, rfl⟩ | ⟨d, _, rfl⟩ | hwait | ⟨_, rfl⟩
  · exact .inl (by constructor <;> rfl)
  · exact .inl (by constructor <;> simp [stepDelay])
  · exact .inr hwait
  · exact .inl (by constructor <;> rfl)

/-- A frame of an SPI instruction leaves the flags. -/
theorem exec_spi_flags {i : Instr} (hi : i.format = .spi) (h : exec i s = .next t) : FlagsKept s t := by
  obtain ⟨_, b, rfl⟩ := exec_spi_cases hi h
  constructor <;> simp

theorem step_flags (h : step s = .next t) : FlagEffect s t := by
  have hturn := flagsKept_turns s s.turns.tail
  cases step_cases h with
  | host i _ _ _ hs hturn ht =>
    obtain ⟨ctrl, data, rest, hT, rfl⟩ := hturn
    rw [hT, List.tail_cons] at hs
    exact host_flags hT (hs ▸ ht)
  | unit i _ _ _ he hs ht => subst hs; exact .kept (hturn.trans (exec_spi_flags (format_of_entryOf he) ht))
  | micro e _ _ hr he _ hs ht =>
    subst hs
    rcases stepMicro_flags ht with hkept | ⟨k, rfl, rfl⟩
    · exact .kept (hturn.trans hkept)
    · rcases stepBusyWait_flags k { s with turns := s.turns.tail } with hkept | ⟨hbw, hceiling, htrace, hset⟩
      · exact .kept (hturn.trans hkept)
      · exact .timeout k hr he hbw hceiling htrace ((hturn.setTimeout k).trans hset)
  | idle => exact .kept hturn

end

/-! ### The sticky flags -/

/-- The words of the commands that have a guard (43_host_port.md R105). -/
theorem guarded_words {c : Command} (hc : c.wf = true) (hnop : c ≠ .nop) (hget : c ≠ .getPixel) :
    encodeCmd c ∈ [0x00000001#32, 0x00000011#32, 0x00000031#32, 0x00000003#32, 0x00000004#32] := by
  cases c with
  | nop => exact absurd rfl hnop
  | getPixel => exact absurd rfl hget
  | setPixel code => exact List.mem_append_left [0x00000003#32, 0x00000004#32] (setPixel_words code (bne_iff_ne.1 hc))
  | clear | refresh => decide

/-- Settles O54: of the effects of a step, a refused command and an illegal word set one flag each, and a write of `STATUS`
clears the flags of its bits. -/
theorem lifeOfTheStickyFlags : Obligations.LifeOfTheStickyFlags := by
  intro s t h
  cases step_flags h with
  | kept hk => simp +contextual [hk.rejected, hk.illegal]
  | timeout k _ _ _ _ _ hk => simp +contextual [hk.rejected, hk.illegal]
  | accepted rest => simp +contextual [accepted]
  | refused c rest hr hT hwf hnop hget =>
    exact ⟨nofun, by simp +contextual, fun _ _ => ⟨hr, _, rest, hT, guarded_words hwf hnop hget⟩, by simp +contextual⟩
  | illegal w rest hT hw => exact ⟨by simp +contextual, nofun, by simp +contextual, fun _ _ => ⟨w, rest, hT, hw⟩⟩
  | sticky v rest hT =>
    exact ⟨fun hs ht => ⟨v, rest, hT, by simpa [hs] using ht⟩, fun hs ht => ⟨v, rest, hT, by simpa [hs] using ht⟩,
      by simp +contextual, by simp +contextual⟩

/-! ### The timeout flags -/

/-- The entry of each busy-wait (42_refresh_sequencer.md R86). -/
def waitEntry : WaitKind → Fin 21
  | .hwrst => 4
  | .swrst => 6
  | .act => 18

theorem eq_waitEntry {k : WaitKind} {e : Fin 21} (h : entryOf e = .busyWait k) : e = waitEntry k := by
  revert e
  cases k <;> decide

section
variable {s t : State} {k : WaitKind}

theorem FlagsKept.timedOut (h : FlagsKept s t) (k : WaitKind) : timedOut k t = timedOut k s := by
  cases k
  exacts [h.toHwrst, h.toSwrst, h.toAct]

theorem timedOut_setTimeout (k k' : WaitKind) (s : State) :
    timedOut k' (setTimeout k s) = (timedOut k' s || decide (k = k')) := by
  cases k' <;> simp [timedOut]

/-- R120: a timeout flag is cleared by an accepted REFRESH only. -/
theorem step_clears_timedOut (h : step s = .next t) (hs : timedOut k s = true) (ht : timedOut k t = false) :
    s.run = false ∧ ∃ rest, s.turns = .host 0b1000#4 0x00000004#32 :: rest := by
  cases step_flags h with
  | accepted rest hr hT => exact ⟨hr, rest, hT⟩
  | kept hk => simp [hk.timedOut, hs] at ht
  | timeout k' _ _ _ _ _ hk => simp [hk.timedOut, timedOut_setTimeout, hs] at ht
  | refused | illegal | sticky => cases k <;> exact absurd (hs.symm.trans ht) nofun

/-- R94: a timeout flag is set by its own busy-wait only, by a high sample at the ceiling. -/
theorem step_sets_timedOut (h : step s = .next t) (hs : timedOut k s = false) (ht : timedOut k t = true) :
    s.pc = waitEntry k ∧ s.run = true ∧ s.bw = .sample ∧ s.cfg.tBusyMax ≤ s.wait ∧ t.trace = .sample true :: s.trace := by
  cases step_flags h with
  | timeout k' hr he hbw hceiling htrace hk =>
    obtain rfl : k' = k := by simpa [hk.timedOut, timedOut_setTimeout, hs] using ht
    exact ⟨eq_waitEntry he, hr, hbw, hceiling, htrace⟩
  | kept hk => simp [hk.timedOut, hs] at ht
  | accepted => cases k <;> cases ht
  | refused | illegal | sticky => cases k <;> exact absurd (hs.symm.trans ht) nofun

end

/-- Settles O55: the clauses are those of the two lemmas above for each of the three busy-waits. -/
theorem lifeOfTheTimeoutFlags : Obligations.LifeOfTheTimeoutFlags := by
  intro s t h
  refine ⟨?_, fun ⟨hs, ht⟩ => (step_sets_timedOut (k := .hwrst) h hs ht).1,
    fun ⟨hs, ht⟩ => (step_sets_timedOut (k := .swrst) h hs ht).1,
    fun ⟨hs, ht⟩ => (step_sets_timedOut (k := .act) h hs ht).1, ?_⟩
  · rintro (⟨hs, ht⟩ | ⟨hs, ht⟩ | ⟨hs, ht⟩)
    exacts [step_clears_timedOut (k := .hwrst) h hs ht, step_clears_timedOut (k := .swrst) h hs ht,
      step_clears_timedOut (k := .act) h hs ht]
  · rintro (⟨hs, ht⟩ | ⟨hs, ht⟩ | ⟨hs, ht⟩)
    exacts [(step_sets_timedOut (k := .hwrst) h hs ht).2, (step_sets_timedOut (k := .swrst) h hs ht).2,
      (step_sets_timedOut (k := .act) h hs ht).2]

end Sys2Proof.Machine

namespace Sys2Proof.Machine

/-! ### What the panel shows after a refresh (60_exceptions.md R129, 70_reset_and_hazards.md R140) -/

/-- Every pair of plane bits but the forbidden one is a colour's (40_framebuffer.md R60). -/
theorem colourOfPair_isSome : ∀ p a : Level, (p || !a) = true → (colourOfPair p a).isSome = true := by decide

/-- The colour of a pixel whose RAM bytes do not hold the forbidden pair, by the dual-plane flag. -/
theorem panelColour_of_bytes {q : Panel} {k : Nat} {b b' : Byte} (hb : q.rb[byteOf k]? = some b)
    (hb' : q.rr[byteOf k]? = some b') (hpair : (laneOf b k || !laneOf b' k) = true) :
    some (panelColour q k) = if q.dual then colourOfPair (laneOf b k) (laneOf b' k)
      else some (if laneOf b k then .white else .black) := by
  obtain ⟨c, hc⟩ := Option.isSome_iff_exists.1 (colourOfPair_isSome _ _ hpair)
  simp only [panelColour, hb, hb', Option.getD_some, hc]
  cases q.dual <;> rfl

/-- Settles O59: with a window of the whole RAM and counters at 0 each byte of the planes stands at its own address. -/
theorem panelShowsThePlanes : Obligations.PanelShowsThePlanes := by
  intro r c m j1 j2 j3 q k hd hplaces hm hk
  simp only [PanelReading.placesPlanes, Bool.and_eq_true, beq_iff_eq] at hplaces
  obtain ⟨⟨hcovers, hx⟩, hy⟩ := hplaces
  have hbyte : byteOf k < 15000 := byteOf_lt hk
  have hpair : (laneOf (m.get (byteOf k)) k || !laneOf (m.get (15000 + byteOf k)) k) = true := by
    simpa [pairOk, Plane.base] using hm k hk
  obtain ⟨hrb, hrr, hdual⟩ := filled_wholeRam r c.cmds m q hcovers (by omega) (by omega) hbyte
    (a := byteOf k) (by rw [hx, hy]; omega)
  obtain ⟨-, -, himage⟩ := panelAfter_refresh_fields r c m j1 j2 j3 hd q
  rw [himage k hk, panelColour_of_bytes hrb hrr hpair, hdual]

end Sys2Proof.Machine

namespace Sys2Proof.Machine

/-! ### The ticks of a refresh and the figures (70_reset_and_hazards.md R141, 42_refresh_sequencer.md R96) -/

@[simp] theorem ticksOf_append (l l' : List LinkEvent) : ticksOf (l ++ l') = ticksOf l + ticksOf l' :=
  List.count_append

@[simp] theorem ticksOf_unitTrace (opc : Byte) (data : List Byte) : ticksOf (unitTrace opc data) = 0 :=
  List.count_eq_zero.2 (by simp [unitTrace])

@[simp] theorem ticksOf_resetTrace (c : Cfg) : ticksOf (resetTrace c) = c.tRstLow + c.tBoot := by
  simp [resetTrace, ticksOf]

@[simp] theorem ticksOf_initTrace (p : PanelCommands) : ticksOf (initTrace p) = 0 := by simp [initTrace]

@[simp] theorem ticksOf_transferTrace (p : PanelCommands) (m : Memory) : ticksOf (transferTrace p m) = 0 := by
  simp [transferTrace]

/-- The ticks of a busy-wait: its settle time and its poll periods. -/
@[simp] theorem ticksOf_wait (c : Cfg) (o : WaitOutcome) :
    ticksOf (o.trace c) = c.tBusySettle + o.polls c * c.tPoll := by
  simp [WaitOutcome.trace, ticksOf, List.count_flatten]

/-- The ticks of a refresh are those of the reset and of its three busy-waits; units take none. -/
theorem ticksOf_refreshTrace (c : Cfg) (m : Memory) (hw sw act : WaitOutcome) :
    ticksOf (refreshTrace c m hw sw act)
      = c.tRstLow + c.tBoot + ((c.tBusySettle + hw.polls c * c.tPoll)
        + ((c.tBusySettle + sw.polls c * c.tPoll) + (c.tBusySettle + act.polls c * c.tPoll))) := by
  simp [refreshTrace]

/-- R96: the last poll period of a busy-wait begins below the ceiling, so one wait stays in its bound. -/
theorem WaitOutcome.ticks_le_bound {c : Cfg} (hc : c.wf = true) {o : WaitOutcome} (ho : o.possible c = true) :
    c.tBusySettle + o.polls c * c.tPoll ≤ busyWaitBound c := by
  have hp := tPoll_pos hc
  rw [busyWaitBound]
  cases hn : o.polls c with
  | zero => omega
  | succ n =>
    have hlast : n * c.tPoll < c.tBusyMax := WaitOutcome.below_ceiling hp ho (by omega)
    rw [Nat.succ_mul]
    omega

/-- Settles O42: the ticks of the parts, and the bound of each busy-wait. -/
theorem refreshTickCount : Obligations.RefreshTickCount := by
  intro c m hw sw act hc hhw hsw hact
  rw [ticksOf_refreshTrace, refreshTickBound]
  have hhwBound := WaitOutcome.ticks_le_bound hc hhw
  have hswBound := WaitOutcome.ticks_le_bound hc hsw
  have hactBound := WaitOutcome.ticks_le_bound hc hact
  exact ⟨by ring, by omega⟩

/-- Settles O43: each figure, computed from `CFG_EX`. -/
theorem timingFigures : Obligations.TimingFigures :=
  ⟨rfl, rfl, rfl, rfl, rfl, rfl, rfl, rfl⟩

end Sys2Proof.Machine

namespace Sys2Proof.Machine

/-! ### Payloads that do not place the planes (70_reset_and_hazards.md R140) -/

/-- The pair that byte `i` of both planes holds at the bit of pixel `k` is that of pixel `8 * i + k % 8`, so it is not the
forbidden one. -/
theorem PlaneInv.pair_of_byte {m : Memory} (hm : PlaneInv m) {i : Nat} (hi : i < 15000) (k : Nat) :
    (laneOf (m.get i) k || !laneOf (m.get (15000 + i)) k) = true := by
  have hbyte : byteOf (8 * i + k % 8) = i := by rw [byteOf]; omega
  have hbit : bitOf (8 * i + k % 8) = bitOf k := by rw [bitOf, bitOf]; omega
  have hpair := hm (8 * i + k % 8) (by rw [nPix]; omega)
  simpa [pairOk, laneOf, Plane.base, hbyte, hbit] using hpair

/-- The first half of R140: counters set elsewhere than to the first byte shift the image by as many bytes, around the
end of the RAM. -/
theorem panelAfter_refresh_image_shifted (r : PanelReading) (c : Cfg) (m : Memory) (j1 j2 j3 : Nat) (q : Panel)
    {k i : Nat} (hd : c.cmds.distinct = true) (hcovers : r.coversRam c.cmds = true)
    (hx : r.xCount c.cmds.plXcnt.bytes < 50) (hy : r.yCount c.cmds.plYcnt.bytes < 300) (hm : PlaneInv m)
    (hk : k < 120000) (hi : i < 15000)
    (hbyte : byteOf k = (i + r.yCount c.cmds.plYcnt.bytes * 50 + r.xCount c.cmds.plXcnt.bytes) % 15000) :
    (panelAfter r c.cmds (refreshTrace c m (.completes j1) (.completes j2) (.completes j3)) q).image[k]?
      = if r.selectsDual c.cmds.plDuc.bytes then colourOfPair (laneOf (m.get i) k) (laneOf (m.get (15000 + i)) k)
        else some (if laneOf (m.get i) k then .white else .black) := by
  obtain ⟨hrb, hrr, hdual⟩ := filled_wholeRam r c.cmds m q hcovers hx hy hi hbyte
  obtain ⟨-, -, himage⟩ := panelAfter_refresh_fields r c m j1 j2 j3 hd q
  rw [himage k hk, panelColour_of_bytes hrb hrr (hm.pair_of_byte hi k), hdual]

/-- The second half of R140: the bytes of both RAMs outside the window keep what they held. -/
theorem panelAfter_refresh_outside (r : PanelReading) (c : Cfg) (m : Memory) (j1 j2 j3 : Nat) (q : Panel) {a : Nat}
    (hd : c.cmds.distinct = true) (hincr : r.increments c.cmds.plDem.bytes = true)
    (hin : inWindow (r.xWindow c.cmds.plXwin.bytes) (r.yWindow c.cmds.plYwin.bytes)
      (r.xCount c.cmds.plXcnt.bytes) (r.yCount c.cmds.plYcnt.bytes) = true)
    (hout : inWindow (r.xWindow c.cmds.plXwin.bytes) (r.yWindow c.cmds.plYwin.bytes) (a % 50) (a / 50) = false) :
    (panelAfter r c.cmds (refreshTrace c m (.completes j1) (.completes j2) (.completes j3)) q).rb[a]? = q.rb[a]?
      ∧ (panelAfter r c.cmds (refreshTrace c m (.completes j1) (.completes j2) (.completes j3)) q).rr[a]? = q.rr[a]? := by
  obtain ⟨hrb, hrr, -⟩ := panelAfter_refresh_fields r c m j1 j2 j3 hd q
  rw [hrb, hrr]
  exact filled_outside r c.cmds m q hincr hin hout

/-- Settles O60: the shift in a window of the whole RAM, and the bytes outside a smaller one. -/
theorem payloadsMisplaceTheImage : Obligations.PayloadsMisplaceTheImage :=
  ⟨fun r c m j1 j2 j3 q _ _ => panelAfter_refresh_image_shifted r c m j1 j2 j3 q,
    fun r c m j1 j2 j3 q _ => panelAfter_refresh_outside r c m j1 j2 j3 q⟩

end Sys2Proof.Machine
